-- ==== Sys2Proof/Word.lean ====
section
/-! DEFINITION. The word types of the BitPack/PatchCodec block (spec/00_scope.md R6): everything the host moves through
the register port is one 32-bit word, BUF is made of bytes. Signed PATCH entries are words read with `BitVec.toInt`. -/

namespace Sys2Proof

/-- A 32-bit word of the register port: a command word, an operand, a PATCH entry (R6, R21). -/
abbrev Word := BitVec 32

/-- One byte of BUF (R43). -/
abbrev Byte := BitVec 8

end Sys2Proof
end

