-- ==== Sys2Proof/Syntax.lean ====
section
/-! DEFINITION. The 13 commands of spec/opcode_table.json, one constructor each, with the operand fields the command
word carries at their exact widths (spec/30_encoding.md R80, R81, R84). All other operands come from registers and
memories, not from the command word. -/

namespace Sys2Proof

/-- A command of the block (R84). -/
inductive Instr where
  /-- PACK n: format N, `n = arg[5:0]` (R106). -/
  | pack (n : BitVec 6)
  /-- UNPACK n: format N, `n = arg[5:0]` (R107). -/
  | unpack (n : BitVec 6)
  /-- FLUSH: format Z (R108). -/
  | flush
  /-- BP_RESET: format Z (R109). -/
  | bpReset
  /-- INIT_ENC cap: format C, `cap = arg[23:0]` (R121). -/
  | initEnc (cap : BitVec 24)
  /-- INIT_DEC cap: format C, `cap = arg[23:0]` (R122). -/
  | initDec (cap : BitVec 24)
  /-- CODE_GH: format Z (R123). -/
  | codeGh
  /-- DECODE_GH: format Z (R124). -/
  | decodeGh
  /-- CODE_PH large: format L, `large = arg[0]` (R126). -/
  | codePh (large : Bool)
  /-- DECODE_PH large: format L, `large = arg[0]` (R127). -/
  | decodePh (large : Bool)
  /-- CODE_PATCH postquant: format Q, `postquant = arg[15:0]` (R141). -/
  | codePatch (postquant : BitVec 16)
  /-- DECODE_PATCH: format Z (R142). -/
  | decodePatch
  /-- END_DATA: format Z (R128). -/
  | endData
deriving DecidableEq, Repr

end Sys2Proof
end

