-- ==== Sys2Proof/Decode.lean ====
section
/-! DEFINITION. The decoder and, after it, the encoder of the 32-bit command word (spec/30_encoding.md R80, R81, R84,
R85). Decoding is total: a word is one of the 13 rows' commands or is rejected with the reason R85 gives. -/

namespace Sys2Proof

/-- Why a command word is illegal (R85): its `op` is none of the 13, or its must-be-zero bits are not all zero. -/
inductive IllegalWord where
  | unknownOp
  | nonzeroReserved
deriving DecidableEq, Repr

/-- `op`, bits 31:24 of the command word (R80). -/
def opField (w : Word) : BitVec 8 := w.extractLsb' 24 8

/-- `arg`, bits 23:0 of the command word (R80). -/
def argField (w : Word) : BitVec 24 := w.extractLsb' 0 24

/-- Format Z: `arg[23:0]` must be 0 (R80). -/
def formatZ (arg : BitVec 24) (i : Instr) : Except IllegalWord Instr :=
  if arg = 0 then .ok i else .error .nonzeroReserved

/-- Format N: `arg[23:6]` must be 0, `n = arg[5:0]` (R80). -/
def formatN (arg : BitVec 24) (i : BitVec 6 → Instr) : Except IllegalWord Instr :=
  if arg.extractLsb' 6 18 = 0 then .ok (i (arg.extractLsb' 0 6)) else .error .nonzeroReserved

/-- Format L: `arg[23:1]` must be 0, `large = arg[0]` (R80). -/
def formatL (arg : BitVec 24) (i : Bool → Instr) : Except IllegalWord Instr :=
  if arg.extractLsb' 1 23 = 0 then .ok (i (arg.getLsbD 0)) else .error .nonzeroReserved

/-- Format Q: `arg[23:16]` must be 0, `postquant = arg[15:0]` (R80). -/
def formatQ (arg : BitVec 24) (i : BitVec 16 → Instr) : Except IllegalWord Instr :=
  if arg.extractLsb' 16 8 = 0 then .ok (i (arg.extractLsb' 0 16)) else .error .nonzeroReserved

/-- The command a word stands for, or why it is illegal (R84, R85). Format C has no must-be-zero bits. -/
def decode (w : Word) : Except IllegalWord Instr :=
  let arg := argField w
  match (opField w).toNat with
  | 0x01 => formatN arg .pack
  | 0x02 => formatN arg .unpack
  | 0x03 => formatZ arg .flush
  | 0x04 => formatZ arg .bpReset
  | 0x10 => .ok (.initEnc arg)
  | 0x11 => .ok (.initDec arg)
  | 0x20 => formatZ arg .codeGh
  | 0x21 => formatZ arg .decodeGh
  | 0x22 => formatL arg .codePh
  | 0x23 => formatL arg .decodePh
  | 0x24 => formatQ arg .codePatch
  | 0x25 => formatZ arg .decodePatch
  | 0x26 => formatZ arg .endData
  | _ => .error .unknownOp

/-- The opcode of each command (R84). -/
def opcodeOf (i : Instr) : BitVec 8 :=
  match i with
  | .pack _ => 0x01
  | .unpack _ => 0x02
  | .flush => 0x03
  | .bpReset => 0x04
  | .initEnc _ => 0x10
  | .initDec _ => 0x11
  | .codeGh => 0x20
  | .decodeGh => 0x21
  | .codePh _ => 0x22
  | .decodePh _ => 0x23
  | .codePatch _ => 0x24
  | .decodePatch => 0x25
  | .endData => 0x26

/-- The operand field of each command, its unused bits zero (R80, R81). -/
def argOf (i : Instr) : BitVec 24 :=
  match i with
  | .pack n | .unpack n => n.setWidth 24
  | .initEnc cap | .initDec cap => cap
  | .codePh large | .decodePh large => (BitVec.ofBool large).setWidth 24
  | .codePatch postquant => postquant.setWidth 24
  | .flush | .bpReset | .codeGh | .decodeGh | .decodePatch | .endData => 0

/-- The command word of a command (R84, R86). -/
def encode (i : Instr) : Word := opcodeOf i ++ argOf i

/-- The instruction the decoder reads from the word whose low `nbits` bits are `w`'s and whose other bits are 0: the
host's question about a row of the opcode table. The block has one word length, so the word goes to `decode` as it
stands. -/
def decodeTableWord (nbits w : Nat) : Option Instr :=
  match decode (BitVec.ofNat 32 (w % 2 ^ nbits)) with
  | .ok i => some i
  | .error _ => none

end Sys2Proof
end

