-- ==== Sys2Proof/Config.lean ====
section
/-! DEFINITION. What an instance of the block fixes (spec/00_scope.md R5): the one open parameter `BUF_AW`, the sizes;
the two enumerations a session moves through (R20); and the FREE VALUES, opaque constants without a body, one for every
value the spec calls unspecified (R48, R49, R158; 93_implementation_defined.md U1 to U3). No proof can see what a free
value is. The wire constants (sentinel, code values) stand in Machine/Operands.lean. -/

namespace Sys2Proof

/-- The open parameter `BUF_AW`, one of 1..23, held as `BUF_AW - 1` so that no value outside the range exists
(R5; 92_eei_decisions.md D5). -/
abbrev BufAw := Fin 23

/-- `BUF_AW` as a number, 1..23. -/
def BufAw.width (p : BufAw) : Nat := p.val + 1

/-- `MAX_CAP = 2^BUF_AW`: the number of bytes of BUF and the largest legal capacity (R5, R43). -/
def BufAw.maxCap (p : BufAw) : Nat := 2 ^ p.width

/-- `BUF_AW = 16`, the value R5 suggests. DESIGN CHOICE (notes/assumptions/1.md): only `State.reset` uses it; every
statement is about every value. -/
def suggestedBufAw : BufAw := 15

/-- `PATCH_WORDS`: the number of words of the PATCH memory (R5, R44). -/
def patchWords : Nat := 65536

/-- The direction of the session (R20). -/
inductive Dir where
  | none
  | enc
  | dec
deriving DecidableEq, Repr, Inhabited

/-- The codec state machine's states (R20, R120). -/
inductive CodecState where
  | idle
  | ready
  | groupOpen
  | patchOpen
  | closed
deriving DecidableEq, Repr, Inhabited

namespace Config

/-- FREE VALUE (U1, R48): the byte at a BUF address that nothing has written since the contents of BUF last became
unspecified (hardware reset or fault entry). First argument: the model's `epoch`; second: the address. -/
opaque bufUnspecified : Nat → Nat → BitVec 8

/-- FREE VALUE (U1, R48): the same for a PATCH index. -/
opaque patchUnspecified : Nat → Nat → BitVec 32

/-- FREE VALUE (U3, R49): the word a register read returns while the block is Faulted, a fresh one at every read. For
STATUS only the bits outside FAULT and CAUSE are taken from it. -/
opaque faultedRead : Nat → BitVec 32

/-! FREE VALUES (U2, R158): what each register holds once a fault has been raised, by the epoch the fault opens. -/

opaque faultedCapacity : Nat → BitVec 24
opaque faultedByteCount : Nat → BitVec 24
opaque faultedAcc : Nat → BitVec 8
opaque faultedAccBits : Nat → BitVec 4
opaque faultedTotalBits : Nat → BitVec 32
opaque faultedDir : Nat → Dir
opaque faultedCodecState : Nat → CodecState
opaque faultedCurPatchSize : Nat → BitVec 8
opaque faultedCurWordBits : Nat → BitVec 5
opaque faultedData : Nat → BitVec 32
opaque faultedGhStride : Nat → BitVec 16
opaque faultedGhPatchSize : Nat → BitVec 8
opaque faultedGhLayerType : Nat → BitVec 8
opaque faultedPhQuantWbits : Nat → BitVec 8
opaque faultedPhDcOffset : Nat → BitVec 32
opaque faultedPhRange : Nat → BitVec 16
opaque faultedPhPatchIds : Nat → BitVec 32
opaque faultedBufAddr : Nat → BitVec 23
opaque faultedPatchAddr : Nat → BitVec 16

end Config
end Sys2Proof
end

