-- ==== Sys2Proof/Machine/State.lean ====
section
/-! DEFINITION. The machine's state as plain data (spec/10_state.md R20 to R49), what the host can do to it (R21, R170),
the reasons a step can stop, and the state after hardware reset (R48). -/

namespace Sys2Proof.Machine

/-- A memory of `w`-bit entries: the entries written since its contents last became unspecified, as pairs of address and
contents. BUF is a `Memory 8`, that is a list of `Host.Cell`; PATCH is a `Memory 32`. An address that is not listed
holds the free value that `State.bufByte` and `State.patchWord` name (R48). -/
abbrev Memory (w : Nat) := List (Nat × BitVec w)

/-- The one canonical form: addresses strictly rising, every one below `size`. An unlisted address holds a free value,
which is no value an entry could be compared with, so an entry is never redundant: two memories in this form that agree
at every address (listed with the same contents, or unlisted) are the same list. -/
abbrev Memory.wf {w : Nat} (size : Nat) (m : Memory w) : Prop :=
  m.Pairwise (fun p q => p.1 < q.1) ∧ ∀ p ∈ m, p.1 < size

/-- The 22 registers of the port (R21). -/
inductive Reg where
  | cmd
  | status
  | faultCmd
  | capacity
  | byteCount
  | acc
  | accBits
  | totalBits
  | data
  | ghStride
  | ghPatchSize
  | ghLayerType
  | phQuantWbits
  | phDcOffset
  | phRange
  | phPatchIds
  | curPatchSize
  | curWordBits
  | bufAddr
  | bufData
  | patchAddr
  | patchData
deriving DecidableEq, Repr

/-- One thing the host does to the block (R9, R21, R170): a register read, a register write, or a pulse of `rst`. -/
inductive Txn where
  /-- `RegRead(r)`. -/
  | read (r : BitVec 5)
  /-- `RegWrite(r, w)`. A write to register 0, CMD, runs a command (R42). -/
  | write (r : BitVec 5) (w : Word)
  /-- `rst` asserted and released (R170). -/
  | rst
deriving DecidableEq, Repr

/-- The six faults of the block (R150). They are not `Fault`s of this model: raising one is a next state, the Faulted
condition (`raiseFault`, R158, R159). -/
inductive Cause where
  /-- R151. -/
  | bufferExhausted
  /-- R152. -/
  | invalidBitWidth
  /-- R153. -/
  | invalidQuantizationIndex
  /-- R154. -/
  | illegalCommand
  /-- R155. -/
  | illegalOperand
  /-- R156. -/
  | sequenceError
deriving DecidableEq, Repr

/-- The whole state of the block (R20), the instance's parameter, and four fields of the model's own. -/
structure State where
  /-- The instance's `BUF_AW` (R5): no step changes it. -/
  bufAw : BufAw
  /-- BUF (R43). -/
  buf : Memory 8
  /-- `capacity` (R33). -/
  capacity : BitVec 24
  /-- `byte_count` (R34). -/
  byteCount : BitVec 24
  /-- `acc` (R35). -/
  acc : Byte
  /-- `acc_bits` (R36). -/
  accBits : BitVec 4
  /-- `total_bits` (R37). -/
  totalBits : Word
  /-- `dir` (R20, R31). -/
  dir : Dir
  /-- `state` (R20, R31, R120). -/
  codecState : CodecState
  /-- `cur_patch_size` (R38). -/
  curPatchSize : BitVec 8
  /-- `cur_word_bits` (R39). -/
  curWordBits : BitVec 5
  /-- DATA (R22). -/
  data : Word
  /-- GH_STRIDE (R23). -/
  ghStride : BitVec 16
  /-- GH_PATCH_SIZE (R24). -/
  ghPatchSize : BitVec 8
  /-- GH_LAYER_TYPE (R25). -/
  ghLayerType : BitVec 8
  /-- PH_QUANT_WBITS (R26). -/
  phQuantWbits : BitVec 8
  /-- PH_DC_OFFSET (R27). -/
  phDcOffset : Word
  /-- PH_RANGE (R28). -/
  phRange : BitVec 16
  /-- PH_PATCH_IDS (R29). -/
  phPatchIds : Word
  /-- PATCH (R44). -/
  patch : Memory 32
  /-- BUF_ADDR (R40): the low `BUF_AW` bits are the register, the bits above them are 0. -/
  bufAddr : BitVec 23
  /-- PATCH_ADDR (R41). -/
  patchAddr : BitVec 16
  /-- `fault`, STATUS.FAULT (R31). -/
  fault : Bool
  /-- `cause`, STATUS.CAUSE (R31, R150). -/
  cause : BitVec 8
  /-- `fault_cmd`, FAULT_CMD (R32). -/
  faultCmd : Word
  /-- The MODEL's own: the host's transactions not yet accepted, next one first (R21, R69). -/
  pending : List Txn
  /-- The MODEL's own: what the port returned for the last transaction accepted; `none` for a write or a reset. -/
  response : Option Word
  /-- The MODEL's own: how often the contents of BUF and PATCH have become unspecified; it indexes the free values. -/
  epoch : Nat
  /-- The MODEL's own: how many reads have returned an unspecified value while Faulted; it indexes them. -/
  draws : Nat
deriving DecidableEq, Repr

/-- Why the model stops a step. The block's own six faults are not here (see `Cause`). -/
inductive Fault where
  /-- A command would access BUF at an address that does not exist (`byte_count` at or above `MAX_CAP`, R43). Raised by
  `storeByte` and `loadByte`. SAFE: `capacity` never exceeds `MAX_CAP` (R45(b)), so no run from reset gets here. -/
  | bufAddressAbsent
deriving DecidableEq, Repr

/-- Why the model gives an instruction no meaning. -/
inductive Refusal where
  /-- The instruction has no meaning in this model. No arm of `exec` answers with it. SAFE. -/
  | notModelled (mnemonic : String)
deriving DecidableEq, Repr

/-- The block right after hardware reset (R48, R170), with no transaction pending. BUF and PATCH list nothing: every
address holds a free value. The model's own fields and `BUF_AW` are notes/assumptions/1.md, 2.md and 5.md. -/
def State.reset : State where
  bufAw := suggestedBufAw
  buf := []
  capacity := 0
  byteCount := 0
  acc := 0
  accBits := 0
  totalBits := 0
  dir := .none
  codecState := .idle
  curPatchSize := 0
  curWordBits := 0
  data := 0
  ghStride := 0
  ghPatchSize := 0
  ghLayerType := 0
  phQuantWbits := 0
  phDcOffset := 0
  phRange := 0
  phPatchIds := 0
  patch := []
  bufAddr := 0
  patchAddr := 0
  fault := false
  cause := 0
  faultCmd := 0
  pending := []
  response := none
  epoch := 0
  draws := 0

end Sys2Proof.Machine
end

