-- ==== Sys2Proof/Machine/Flags.lean ====
section
/-! DEFINITION. The block's one flag, FAULT, and the STATUS register it is read from (spec/10_state.md R31,
spec/60_exceptions.md R150, R160). No command computes a condition code. -/

namespace Sys2Proof.Machine

/-- STATUS.DIR (R31). -/
def dirCode (d : Dir) : BitVec 2 :=
  match d with
  | .none => 0
  | .enc => 1
  | .dec => 2

/-- STATUS.STATE (R31). -/
def stateCode (c : CodecState) : BitVec 3 :=
  match c with
  | .idle => 0
  | .ready => 1
  | .groupOpen => 2
  | .patchOpen => 3
  | .closed => 4

/-- STATUS.CAUSE (R150). Code 0 means no fault. -/
def causeCode (c : Cause) : BitVec 8 :=
  match c with
  | .bufferExhausted => 1
  | .invalidBitWidth => 2
  | .invalidQuantizationIndex => 3
  | .illegalCommand => 4
  | .illegalOperand => 5
  | .sequenceError => 6

/-- STATUS while no fault is pending: FAULT in bit 0, DIR in 2:1, STATE in 5:3, zeros in 7:6, CAUSE in 15:8, zeros in
31:16 (R31). -/
def statusWord (s : State) : Word :=
  0#16 ++ s.cause ++ 0#2 ++ stateCode s.codecState ++ dirCode s.dir ++ BitVec.ofBool s.fault

/-- STATUS while Faulted: FAULT and CAUSE are the record, every other bit is the unspecified word's (R31, R49). -/
def faultedStatusWord (unspecified : Word) (s : State) : Word :=
  unspecified.extractLsb' 16 16 ++ s.cause ++ unspecified.extractLsb' 1 7 ++ BitVec.ofBool s.fault

/-- The output `fault_o`: the level of STATUS.FAULT (R160). -/
def faultOutput (s : State) : Bool := s.fault

end Sys2Proof.Machine
end

