-- ==== Sys2Proof/Machine/Operands.lean ====
section
/-! DEFINITION. Operand forms: how a value is cut into chunks and bits for the stream (spec/20_memory.md R62, R63;
spec/40_bitpacker.md R100 to R103), the wire constants (spec/00_scope.md R5, spec/42_codec_patch.md R140), the width
choice (spec/41_codec_headers.md R125) and the coefficient code of a patch (R141). All of it is pure: what is sent, not
where it goes. -/

namespace Sys2Proof.Machine

/-! ### The cut into chunks and bits -/

/-- How many bits chunk `c` of an `n`-bit value carries: 8, but for the last chunk of an `n` that is no multiple of 8,
which carries `n mod 8` (R63, R100). -/
def chunkWidth (n c : Nat) : Nat :=
  if c < (n + 7) / 8 - 1 ∨ n % 8 = 0 then 8 else n % 8

/-- The widths of the `ceil(n/8)` chunks of an `n`-bit value, in the order they are sent (R63, R100). -/
def chunkWidths (n : Nat) : List Nat := (List.range ((n + 7) / 8)).map (chunkWidth n)

/-- `d` bits shifted out of the top of `data`, first one first (the inner loop of R100). -/
def shiftOut (data : Byte) (d : Nat) : List Bool :=
  match d with
  | 0 => []
  | d + 1 => data.msb :: shiftOut (data <<< 1) d

/-- The bits one chunk sends: the low-order `d` bits of its byte, left-aligned and shifted out (R100). -/
def chunkBits (b : Byte) (d : Nat) : List Bool := shiftOut (b <<< (8 - d)) d

/-- The bits of a value cut into chunks of the given widths, least significant byte first (R63, R101). -/
def bitsInChunks (widths : List Nat) (v : Nat) : List Bool :=
  match widths with
  | [] => []
  | d :: ds => chunkBits (BitVec.ofNat 8 v) d ++ bitsInChunks ds (v / 256)

/-- `Bits(v, n)`: the bits `PackValue(v, n)` appends, in stream order (R101). -/
def wireBits (v n : Nat) : List Bool := bitsInChunks (chunkWidths n) v

/-- The bits of several fields sent one after another, each as a value and a width. -/
def fieldBits (fields : List (Nat × Nat)) : List Bool := fields.flatMap (fun f => wireBits f.1 f.2)

/-- The value of the bytes `UnpackValue` gathered: byte `c` weighs `2^(8c)` (R103). -/
def bytesValue (out : List Byte) : Nat :=
  match out with
  | [] => 0
  | b :: rest => b.toNat + 256 * bytesValue rest

/-! ### Wire constants -/

/-- `END_OF_PATCHES`, the sentinel value of `quant_wbits` (R5; notes/assumptions/6.md). -/
def endOfPatches : BitVec 8 := 97

/-- `ZERO_CODE`, `0` (R5, R140). Each code is a value and a length for `PackValue`. -/
def zeroCode : Nat × Nat := (0, 1)

/-- `ZERO_EOB`, `10` (R5, R140). -/
def zeroEobCode : Nat × Nat := (2, 2)

/-- `POSITIVE_VALUE`, `110` (R5, R140). -/
def positiveCode : Nat × Nat := (6, 3)

/-- `NEGATIVE_VALUE`, `111` (R5, R140). -/
def negativeCode : Nat × Nat := (7, 3)

/-- `MIN_WBITS` (R5). -/
def minWbits : Nat := 2

/-- `MAX_WBITS` (R5). -/
def maxWbits : Nat := 17

/-- The width of the `patch_ids` field: 32 bits for a large patch, else 10 (R29, R81). -/
def patchIdsWidth (large : Bool) : Nat := if large then 32 else 10

/-! ### The adaptive width (R125) -/

/-- The width the caller proposes: the low nibble of PH_QUANT_WBITS plus 2 (R26, R125). -/
def baseWbits (q : BitVec 8) : Nat := q.toNat % 16 + 2

/-- `minw` of R125. -/
def scanLow (q : BitVec 8) : Nat := baseWbits q / 2

/-- `maxw` of R125. -/
def scanHigh (q : BitVec 8) : Nat := baseWbits q + 5

/-- The highest set bit of `m` within the `count` positions from `low` up, scanned downward (the inner loop of R125). -/
def highestBit (m low count : Nat) : Option Nat :=
  match count with
  | 0 => none
  | k + 1 => if m.testBit (low + k) then some (low + k) else highestBit m low k

/-- One turn of R125's outer loop: `w` raised to the highest bit seen in one coefficient's magnitude. -/
def raiseWidth (q : BitVec 8) (w : Nat) (v : Int) : Nat :=
  match highestBit v.natAbs (scanLow q) (scanHigh q - scanLow q + 1) with
  | some j => if w < j then j else w
  | none => w

/-- `ChooseWbits` over the coefficients of the patch (R125). -/
def chooseWbits (q : BitVec 8) (coeffs : List Int) : Nat := coeffs.foldl (raiseWidth q) (scanLow q) + 1

/-- PH_QUANT_WBITS with its low nibble replaced by `w - 2`, the high nibble kept (R26, R126). -/
def withWidthNibble (q : BitVec 8) (w : Nat) : BitVec 8 := (q &&& 0xF0) ||| BitVec.ofNat 8 (w - 2)

/-- The magnitude width a patch header announces (R127). -/
def headerWidth (q : BitVec 8) : Nat := q.toNat % 16 + 2

/-! ### The coefficient code (R140, R141) -/

/-- The code of one nonzero coefficient: its sign code, then its clamped magnitude in `w` bits (R141). -/
def valueBits (w : Nat) (v : Int) : List Bool :=
  fieldBits [if v < 0 then negativeCode else positiveCode, (min v.natAbs (2 ^ w), w)]

/-- The bits CODE_PATCH sends for the coefficients from some index on, of which the first `left` lie below the cutoff
(the second loop of R141). -/
def coeffBits (w left : Nat) (coeffs : List Int) : List Bool :=
  match coeffs with
  | [] => []
  | v :: rest =>
    if v = 0 then
      if ((v :: rest).take left).all (fun u => decide (u = 0)) then fieldBits [zeroEobCode]
      else fieldBits [zeroCode] ++ coeffBits w (left - 1) rest
    else valueBits w v ++ coeffBits w (left - 1) rest

end Sys2Proof.Machine
end

