-- ==== Sys2Proof/Machine/Ops.lean ====
section
/-! DEFINITION. The named operations every command is built from: the two memories (spec/10_state.md R43, R44), the
BitPacker primitives (spec/40_bitpacker.md R100 to R105), raising a fault (spec/60_exceptions.md R158) and the way out of
it, hardware reset (spec/70_reset_and_hazards.md R170). -/

namespace Sys2Proof.Machine

/-! ### Memories -/

/-- What is listed at an address; `none` where nothing has been written. -/
def Memory.lookup {w : Nat} (m : Memory w) (a : Nat) : Option (BitVec w) :=
  match m with
  | [] => none
  | (b, v) :: rest => if a = b then some v else Memory.lookup rest a

/-- Store one entry, keeping the addresses in rising order. -/
def Memory.write {w : Nat} (m : Memory w) (a : Nat) (v : BitVec w) : Memory w :=
  match m with
  | [] => [(a, v)]
  | (b, u) :: rest =>
    if a < b then (a, v) :: (b, u) :: rest
    else if a = b then (a, v) :: rest
    else (b, u) :: Memory.write rest a v

/-- Store `v` in the `count` entries from `start` up. -/
def Memory.fill {w : Nat} (m : Memory w) (start count : Nat) (v : BitVec w) : Memory w :=
  match count with
  | 0 => m
  | k + 1 => Memory.fill (m.write start v) (start + 1) k v

/-- `MAX_CAP` of this instance (R5). -/
def State.maxCap (s : State) : Nat := s.bufAw.maxCap

/-- `BUF[a]` (R8, R43): what was written there, else the free value of R48. -/
def State.bufByte (s : State) (a : Nat) : Byte := (s.buf.lookup a).getD (Config.bufUnspecified s.epoch a)

/-- The word of `PATCH[i]` (R8, R44): what was written there, else the free value of R48. -/
def State.patchWord (s : State) (i : Nat) : Word := (s.patch.lookup i).getD (Config.patchUnspecified s.epoch i)

/-- `PATCH[i]` as a signed integer (R6, R44). -/
def State.coeff (s : State) (i : Nat) : Int := (s.patchWord i).toInt

/-- `PATCH[i] <- v` (R8, R44). -/
def State.setCoeff (s : State) (i : Nat) (v : Int) : State := { s with patch := s.patch.write i (BitVec.ofInt 32 v) }

/-- `N = cur_patch_size^2`, the number of coefficients of a patch (R38). -/
def State.patchArea (s : State) : Nat := s.curPatchSize.toNat * s.curPatchSize.toNat

/-- `PATCH[0 .. N-1]`, the patch in raster order (R44). -/
def State.grid (s : State) : List Int := (List.range s.patchArea).map s.coeff

/-- The stream position: bits packed so far (`Enc`) or bits unpacked so far (`Dec`) (R30). -/
def State.streamPos (s : State) : Nat :=
  match s.dir with
  | .dec => 8 * s.byteCount.toNat - s.accBits.toNat
  | .enc | .none => 8 * s.byteCount.toNat + s.accBits.toNat

/-! ### How a command stops -/

/-- Why a command does not reach its end: it raises one of the block's faults, or the model has no such BUF address. -/
inductive Stop where
  | raise (c : Cause)
  | absent (f : Fault)
deriving DecidableEq, Repr

/-! ### BitPacker primitives -/

/-- One byte written out of the accumulator into `BUF[byte_count]`, after which the accumulator is empty (R100, R104). -/
def State.withByteStored (s : State) (v : Byte) : State :=
  { s with
    buf := s.buf.write s.byteCount.toNat v
    byteCount := s.byteCount + 1
    acc := 0
    accBits := 0 }

/-- One bit shifted into the accumulator at its low end, and counted (R100). -/
def State.withBitStaged (s : State) (b : Bool) : State :=
  { s with
    acc := (s.acc <<< 1) ||| (BitVec.ofBool b).setWidth 8
    accBits := s.accBits + 1
    totalBits := s.totalBits + 1 }

/-- The next unread byte loaded into the accumulator (R102). -/
def State.withByteLoaded (s : State) : State :=
  { s with
    acc := s.bufByte s.byteCount.toNat
    byteCount := s.byteCount + 1
    accBits := 8 }

/-- The top bit of the accumulator taken, and counted (R102). -/
def State.withBitTaken (s : State) : State :=
  { s with
    acc := s.acc <<< 1
    accBits := s.accBits - 1
    totalBits := s.totalBits + 1 }

/-- Write one byte out of the accumulator: the store of R100 and of R104, with their capacity check, after which the
accumulator is empty. -/
def storeByte (v : Byte) (s : State) : Except Stop State :=
  if s.capacity ≤ s.byteCount then .error (.raise .bufferExhausted)
  else if s.maxCap ≤ s.byteCount.toNat then .error (.absent .bufAddressAbsent)
  else .ok (s.withByteStored v)

/-- Append one bit: shift it into the accumulator and, on the eighth bit, write the byte out (the inner loop of
R100). -/
def packBit (b : Bool) (s : State) : Except Stop State :=
  if (s.withBitStaged b).accBits = 8 then storeByte (s.withBitStaged b).acc (s.withBitStaged b)
  else .ok (s.withBitStaged b)

/-- Append bits in order. `packBits (wireBits v n)` is `PackValue(v, n)` (R100, R101). -/
def packBits (bits : List Bool) (s : State) : Except Stop State :=
  match bits with
  | [] => .ok s
  | b :: rest =>
    match packBit b s with
    | .ok s1 => packBits rest s1
    | .error e => .error e

/-- Load the next unread byte when no bit is left in the accumulator (R102). -/
def loadByte (s : State) : Except Stop State :=
  if s.accBits = 0 then
    if s.capacity ≤ s.byteCount then .error (.raise .bufferExhausted)
    else if s.maxCap ≤ s.byteCount.toNat then .error (.absent .bufAddressAbsent)
    else .ok s.withByteLoaded
  else .ok s

/-- Take the next bit of the stream: the top bit of the accumulator (the inner loop of R102). -/
def unpackBit (s : State) : Except Stop (Bool × State) :=
  match loadByte s with
  | .error e => .error e
  | .ok s1 => .ok (s1.acc.msb, s1.withBitTaken)

/-- Take `d` bits into a byte that already holds `out`, each shifted in at the low end (R102). -/
def unpackChunk (d : Nat) (out : Byte) (s : State) : Except Stop (Byte × State) :=
  match d with
  | 0 => .ok (out, s)
  | d + 1 =>
    match unpackBit s with
    | .error e => .error e
    | .ok (b, s1) => unpackChunk d ((out <<< 1) ||| (BitVec.ofBool b).setWidth 8) s1

/-- Take one byte for each chunk width, in order (R102). -/
def unpackChunks (widths : List Nat) (s : State) : Except Stop (List Byte × State) :=
  match widths with
  | [] => .ok ([], s)
  | d :: ds =>
    match unpackChunk d 0 s with
    | .error e => .error e
    | .ok (b, s1) =>
      match unpackChunks ds s1 with
      | .error e => .error e
      | .ok (bs, s2) => .ok (b :: bs, s2)

/-- `UnpackValue(n)` (R102, R103). -/
def unpackValue (n : Nat) (s : State) : Except Stop (Nat × State) :=
  match unpackChunks (chunkWidths n) s with
  | .error e => .error e
  | .ok (out, s1) => .ok (bytesValue out, s1)

/-- `FlushPrim()`: staged bits to the top of the byte, zeros below them (R104). -/
def flushPrim (s : State) : Except Stop State :=
  if 0 < s.accBits then storeByte (s.acc <<< (8 - s.accBits.toNat)) s else .ok s

/-- `ResetPrim()` (R105). -/
def resetPrim (s : State) : State := { s with byteCount := 0, acc := 0, accBits := 0, totalBits := 0 }

/-! ### Fault entry and the way out -/

/-- `raise F(cmd)` (R158): the record is written and every other piece of state of the block becomes unspecified. BUF and
PATCH list nothing from here on, under a new epoch. The instance's parameter, the transactions not yet accepted and the
port's last response are no state of the block that a fault could reach. -/
def raiseFault (c : Cause) (cmd : Word) (s : State) : State :=
  let e := s.epoch + 1
  { s with
    fault := true
    cause := causeCode c
    faultCmd := cmd
    buf := []
    capacity := Config.faultedCapacity e
    byteCount := Config.faultedByteCount e
    acc := Config.faultedAcc e
    accBits := Config.faultedAccBits e
    totalBits := Config.faultedTotalBits e
    dir := Config.faultedDir e
    codecState := Config.faultedCodecState e
    curPatchSize := Config.faultedCurPatchSize e
    curWordBits := Config.faultedCurWordBits e
    data := Config.faultedData e
    ghStride := Config.faultedGhStride e
    ghPatchSize := Config.faultedGhPatchSize e
    ghLayerType := Config.faultedGhLayerType e
    phQuantWbits := Config.faultedPhQuantWbits e
    phDcOffset := Config.faultedPhDcOffset e
    phRange := Config.faultedPhRange e
    phPatchIds := Config.faultedPhPatchIds e
    patch := []
    bufAddr := Config.faultedBufAddr e
    patchAddr := Config.faultedPatchAddr e
    epoch := e }

/-- `rst` asserted and released (R170): the state of R48, whatever the state before, Faulted or not. It is the only way
out of the Faulted condition (R159). -/
def hardwareReset (s : State) : State :=
  { State.reset with
    bufAw := s.bufAw
    pending := s.pending
    response := none
    epoch := s.epoch + 1
    draws := s.draws }

/-- How a command ends: with the state it computed, or with the fault it raised, charged to its command word (R8,
R158). -/
def conclude (i : Instr) (s : State) (r : Except Stop State) : Host.Outcome State Fault Refusal :=
  match r with
  | .ok t => .next t
  | .error (.raise c) => .next (raiseFault c (encode i) s)
  | .error (.absent f) => .fault f

end Sys2Proof.Machine
end

