-- ==== Sys2Proof/Machine/BitPacker.lean ====
section
/-! DEFINITION. The BitPacker commands PACK, UNPACK, FLUSH, BP_RESET (spec/40_bitpacker.md R106 to R109). Checks stand in
the order of spec/60_exceptions.md R157. -/

namespace Sys2Proof.Machine

/-- PACK n (R106). -/
def execPack (n : BitVec 6) (s : State) : Host.Outcome State Fault Refusal :=
  conclude (.pack n) s (
    if 32 < n.toNat then .error (.raise .illegalOperand)
    else if s.dir ≠ .enc then .error (.raise .sequenceError)
    else packBits (wireBits s.data.toNat n.toNat) s)

/-- UNPACK n (R107): all 32 bits of DATA are written. -/
def execUnpack (n : BitVec 6) (s : State) : Host.Outcome State Fault Refusal :=
  conclude (.unpack n) s (
    if 32 < n.toNat then .error (.raise .illegalOperand)
    else if s.dir ≠ .dec then .error (.raise .sequenceError)
    else do
      let (v, s1) ← unpackValue n.toNat s
      return { s1 with data := BitVec.ofNat 32 v })

/-- FLUSH (R108). -/
def execFlush (s : State) : Host.Outcome State Fault Refusal :=
  conclude .flush s (
    if s.dir ≠ .enc then .error (.raise .sequenceError)
    else flushPrim s)

/-- BP_RESET (R109): legal in every state, raises nothing. -/
def execBpReset (s : State) : Host.Outcome State Fault Refusal :=
  conclude .bpReset s (.ok (resetPrim s))

end Sys2Proof.Machine
end

