-- ==== Sys2Proof/Machine/Headers.lean ====
section
/-! DEFINITION. The session, group-header and patch-header commands INIT_ENC, INIT_DEC, CODE_GH, DECODE_GH, CODE_PH,
DECODE_PH, END_DATA (spec/41_codec_headers.md R120 to R128). Checks stand in the order of spec/60_exceptions.md R157. -/

namespace Sys2Proof.Machine

/-- Open a session in direction `d` (the pseudocode R121 and R122 share). -/
def openSession (d : Dir) (cap : BitVec 24) (s : State) : Except Stop State :=
  if s.maxCap < cap.toNat then .error (.raise .illegalOperand)
  else .ok { resetPrim s with
    capacity := cap
    dir := d
    codecState := .ready
    curPatchSize := 0
    curWordBits := 0 }

/-- May a patch header or the sentinel come next: is `state` `GroupOpen` or `PatchOpen` (R120)? -/
def headerMayFollow (s : State) : Bool := s.codecState = .groupOpen || s.codecState = .patchOpen

/-- INIT_ENC cap (R121). -/
def execInitEnc (cap : BitVec 24) (s : State) : Host.Outcome State Fault Refusal :=
  conclude (.initEnc cap) s (openSession .enc cap s)

/-- INIT_DEC cap (R122). -/
def execInitDec (cap : BitVec 24) (s : State) : Host.Outcome State Fault Refusal :=
  conclude (.initDec cap) s (openSession .dec cap s)

/-- The three fields of the group header in wire order (R123, R131). -/
def groupHeaderFields (s : State) : List (Nat × Nat) :=
  [(s.ghStride.toNat, 16), (s.ghPatchSize.toNat, 8), (s.ghLayerType.toNat, 8)]

/-- CODE_GH (R123). -/
def execCodeGh (s : State) : Host.Outcome State Fault Refusal :=
  conclude .codeGh s (
    if s.dir ≠ .enc then .error (.raise .sequenceError)
    else do
      let s1 ← packBits (fieldBits (groupHeaderFields s)) s
      return { s1 with curPatchSize := s.ghPatchSize, codecState := .groupOpen })

/-- DECODE_GH (R124). -/
def execDecodeGh (s : State) : Host.Outcome State Fault Refusal :=
  conclude .decodeGh s (
    if s.dir ≠ .dec then .error (.raise .sequenceError)
    else do
      let (stride, s1) ← unpackValue 16 s
      let (size, s2) ← unpackValue 8 s1
      let (layer, s3) ← unpackValue 8 s2
      return { s3 with
        ghStride := BitVec.ofNat 16 stride
        ghPatchSize := BitVec.ofNat 8 size
        ghLayerType := BitVec.ofNat 8 layer
        curPatchSize := BitVec.ofNat 8 size
        codecState := .groupOpen })

/-- The four fields of the patch header in wire order (R126, R131). -/
def patchHeaderFields (large : Bool) (s : State) : List (Nat × Nat) :=
  [(s.phQuantWbits.toNat, 8), (s.phDcOffset.toNat, 32), (s.phRange.toNat, 16), (s.phPatchIds.toNat, patchIdsWidth large)]

/-- CODE_PH large (R126). The width is chosen, and PH_QUANT_WBITS updated, before anything is packed. -/
def execCodePh (large : Bool) (s : State) : Host.Outcome State Fault Refusal :=
  conclude (.codePh large) s (
    let w := chooseWbits s.phQuantWbits s.grid
    if s.dir ≠ .enc ∨ headerMayFollow s = false then .error (.raise .sequenceError)
    else if w < minWbits ∨ maxWbits < w then .error (.raise .invalidBitWidth)
    else do
      let s1 := { s with phQuantWbits := withWidthNibble s.phQuantWbits w }
      let s2 ← packBits (fieldBits (patchHeaderFields large s1)) s1
      return { s2 with curWordBits := BitVec.ofNat 5 w, codecState := .patchOpen })

/-- DECODE_PH large (R127). -/
def execDecodePh (large : Bool) (s : State) : Host.Outcome State Fault Refusal :=
  conclude (.decodePh large) s (
    if s.dir ≠ .dec ∨ headerMayFollow s = false then .error (.raise .sequenceError)
    else do
      let (v, s1) ← unpackValue 8 s
      let q := BitVec.ofNat 8 v
      if q = endOfPatches then
        return { s1 with
          phQuantWbits := q
          phDcOffset := 0
          phRange := 0
          phPatchIds := 0
          codecState := .closed }
      else do
        let (dcOffset, s2) ← unpackValue 32 s1
        let (range, s3) ← unpackValue 16 s2
        let (ids, s4) ← unpackValue (patchIdsWidth large) s3
        return { s4 with
          phQuantWbits := q
          phDcOffset := BitVec.ofNat 32 dcOffset
          phRange := BitVec.ofNat 16 range
          phPatchIds := BitVec.ofNat 32 ids
          curWordBits := BitVec.ofNat 5 (headerWidth q)
          codecState := .patchOpen })

/-- END_DATA (R128). -/
def execEndData (s : State) : Host.Outcome State Fault Refusal :=
  conclude .endData s (
    if s.dir ≠ .enc ∨ headerMayFollow s = false then .error (.raise .sequenceError)
    else do
      let s1 ← packBits (wireBits endOfPatches.toNat 8) s
      return { s1 with codecState := .closed })

end Sys2Proof.Machine
end

