-- ==== Sys2Proof/Machine/Patch.lean ====
section
/-! DEFINITION. The coefficient commands CODE_PATCH and DECODE_PATCH (spec/42_codec_patch.md R140 to R143). Checks stand
in the order of spec/60_exceptions.md R157. -/

namespace Sys2Proof.Machine

/-- The quantisation truncation: the last `postquant` of the `N` coefficients are set to zero in PATCH itself (the first
loop of R141). -/
def truncateTail (postquant : Nat) (s : State) : State :=
  { s with patch := s.patch.fill (s.patchArea - postquant) postquant 0 }

/-- CODE_PATCH postquant (R141). -/
def execCodePatch (postquant : BitVec 16) (s : State) : Host.Outcome State Fault Refusal :=
  conclude (.codePatch postquant) s (
    if s.dir ≠ .enc ∨ s.codecState ≠ .patchOpen then .error (.raise .sequenceError)
    else if s.patchArea < postquant.toNat then .error (.raise .invalidQuantizationIndex)
    else
      let s1 := truncateTail postquant.toNat s
      packBits (coeffBits s.curWordBits.toNat (s.patchArea - postquant.toNat) s1.grid) s1)

/-- Decode the `left` coefficients from index `i` up, magnitudes in `w` bits (the loop of R142). -/
def decodeCoeffs (w i left : Nat) (s : State) : Except Stop State :=
  match left with
  | 0 => .ok s
  | k + 1 => do
    let (notZero, s1) ← unpackValue 1 s
    if notZero = 0 then decodeCoeffs w (i + 1) k (s1.setCoeff i 0)
    else do
      let (isValue, s2) ← unpackValue 1 s1
      if isValue = 0 then return { s2 with patch := s2.patch.fill i (k + 1) 0 }
      else do
        let (negative, s3) ← unpackValue 1 s2
        let (m, s4) ← unpackValue w s3
        decodeCoeffs w (i + 1) k (s4.setCoeff i (if negative = 1 then -(m : Int) else (m : Int)))

/-- DECODE_PATCH (R142). -/
def execDecodePatch (s : State) : Host.Outcome State Fault Refusal :=
  conclude .decodePatch s (
    if s.dir ≠ .dec ∨ s.codecState ≠ .patchOpen then .error (.raise .sequenceError)
    else decodeCoeffs s.curWordBits.toNat 0 s.patchArea s)

end Sys2Proof.Machine
end

