-- ==== Sys2Proof/Machine/Dispatch.lean ====
section
/-! DEFINITION. One arm per command of spec/opcode_table.json (spec/30_encoding.md R84), each one call of its meaning. -/

namespace Sys2Proof.Machine

def exec (i : Instr) (s : State) : Host.Outcome State Fault Refusal :=
  match i with
  | .pack n => Sys2Proof.Machine.execPack n s
  | .unpack n => Sys2Proof.Machine.execUnpack n s
  | .flush => Sys2Proof.Machine.execFlush s
  | .bpReset => Sys2Proof.Machine.execBpReset s
  | .initEnc cap => Sys2Proof.Machine.execInitEnc cap s
  | .initDec cap => Sys2Proof.Machine.execInitDec cap s
  | .codeGh => Sys2Proof.Machine.execCodeGh s
  | .decodeGh => Sys2Proof.Machine.execDecodeGh s
  | .codePh large => Sys2Proof.Machine.execCodePh large s
  | .decodePh large => Sys2Proof.Machine.execDecodePh large s
  | .codePatch postquant => Sys2Proof.Machine.execCodePatch postquant s
  | .decodePatch => Sys2Proof.Machine.execDecodePatch s
  | .endData => Sys2Proof.Machine.execEndData s

end Sys2Proof.Machine
end

