-- ==== Sys2Proof/Machine/Port.lean ====
section
/-! DEFINITION. The register port (spec/10_state.md R21, R40 to R42, R49): what a read returns, what a write does, and how
one transaction of the host is carried out. -/

namespace Sys2Proof.Machine

/-- The register of a register number; 22..31 are unassigned (R21). -/
def regOfNumber (r : BitVec 5) : Option Reg :=
  match r.toNat with
  | 0 => some .cmd
  | 1 => some .status
  | 2 => some .faultCmd
  | 3 => some .capacity
  | 4 => some .byteCount
  | 5 => some .acc
  | 6 => some .accBits
  | 7 => some .totalBits
  | 8 => some .data
  | 9 => some .ghStride
  | 10 => some .ghPatchSize
  | 11 => some .ghLayerType
  | 12 => some .phQuantWbits
  | 13 => some .phDcOffset
  | 14 => some .phRange
  | 15 => some .phPatchIds
  | 16 => some .curPatchSize
  | 17 => some .curWordBits
  | 18 => some .bufAddr
  | 19 => some .bufData
  | 20 => some .patchAddr
  | 21 => some .patchData
  | _ => none

/-- The address BUF_ADDR holds: its `BUF_AW` bits, so always an address of BUF (R40). -/
def bufIndex (s : State) : Nat := s.bufAddr.toNat % s.maxCap

/-- What a read of a register returns while no fault is pending (R21, R31 to R41): its bits zero-extended; CMD reads
0. -/
def readReg (r : Reg) (s : State) : Word :=
  match r with
  | .cmd => 0
  | .status => statusWord s
  | .faultCmd => s.faultCmd
  | .capacity => s.capacity.setWidth 32
  | .byteCount => s.byteCount.setWidth 32
  | .acc => s.acc.setWidth 32
  | .accBits => s.accBits.setWidth 32
  | .totalBits => s.totalBits
  | .data => s.data
  | .ghStride => s.ghStride.setWidth 32
  | .ghPatchSize => s.ghPatchSize.setWidth 32
  | .ghLayerType => s.ghLayerType.setWidth 32
  | .phQuantWbits => s.phQuantWbits.setWidth 32
  | .phDcOffset => s.phDcOffset
  | .phRange => s.phRange.setWidth 32
  | .phPatchIds => s.phPatchIds
  | .curPatchSize => s.curPatchSize.setWidth 32
  | .curWordBits => s.curWordBits.setWidth 32
  | .bufAddr => s.bufAddr.setWidth 32
  | .bufData => (s.bufByte (bufIndex s)).setWidth 32
  | .patchAddr => s.patchAddr.setWidth 32
  | .patchData => s.patchWord s.patchAddr.toNat

/-- What a read returns while Faulted: FAULT_CMD and the FAULT and CAUSE fields of STATUS are the record, everything else
is the unspecified word (R49, R159). -/
def readFaulted (r : Option Reg) (unspecified : Word) (s : State) : Word :=
  match r with
  | some .status => faultedStatusWord unspecified s
  | some .faultCmd => s.faultCmd
  | _ => unspecified

/-- `RegRead(r)` (R21, R49): the state changes only in the port's response, and in the count of unspecified values
while Faulted. A read of an unassigned register returns 0. -/
def regRead (r : BitVec 5) (s : State) : State :=
  if s.fault then
    { s with response := some (readFaulted (regOfNumber r) (Config.faultedRead s.draws) s), draws := s.draws + 1 }
  else
    match regOfNumber r with
    | some reg => { s with response := some (readReg reg s) }
    | none => { s with response := some 0 }

/-- What a write to a register other than CMD stores while no fault is pending (R21 to R29, R40, R41, R49): the bits the
register has; a read-only register ignores the write. -/
def writeReg (r : Reg) (w : Word) (s : State) : State :=
  match r with
  | .data => { s with data := w }
  | .ghStride => { s with ghStride := w.setWidth 16 }
  | .ghPatchSize => { s with ghPatchSize := w.setWidth 8 }
  | .ghLayerType => { s with ghLayerType := w.setWidth 8 }
  | .phQuantWbits => { s with phQuantWbits := w.setWidth 8 }
  | .phDcOffset => { s with phDcOffset := w }
  | .phRange => { s with phRange := w.setWidth 16 }
  | .phPatchIds => { s with phPatchIds := w }
  | .bufAddr => { s with bufAddr := BitVec.ofNat 23 (w.toNat % s.maxCap) }
  | .bufData => { s with buf := s.buf.write (bufIndex s) (w.setWidth 8) }
  | .patchAddr => { s with patchAddr := w.setWidth 16 }
  | .patchData => { s with patch := s.patch.write s.patchAddr.toNat w }
  | .cmd | .status | .faultCmd | .capacity | .byteCount | .acc | .accBits | .totalBits | .curPatchSize | .curWordBits => s

/-- A word written to CMD (R42): decoded and run, or IllegalCommand (R85, R154). -/
def runCommand (w : Word) (s : State) : Host.Outcome State Fault Refusal :=
  match decode w with
  | .ok i => exec i s
  | .error _ => .next (raiseFault .illegalCommand w s)

/-- `RegWrite(r, w)` (R21, R42, R49, R159): while Faulted every write is ignored, a write to CMD runs a command, a write
to an unassigned register is ignored. -/
def regWrite (r : BitVec 5) (w : Word) (s : State) : Host.Outcome State Fault Refusal :=
  if s.fault then .next s
  else
    match regOfNumber r with
    | some .cmd => runCommand w s
    | some reg => .next (writeReg reg w s)
    | none => .next s

/-- Take the next transaction off the host's list (R69): the state with it removed and the port's response cleared. -/
def accept (s : State) : Option (Txn × State) :=
  match s.pending with
  | [] => none
  | t :: rest => some (t, { s with pending := rest, response := none })

/-- Carry out one transaction to its end (R9, R67). -/
def transact (t : Txn) (s : State) : Host.Outcome State Fault Refusal :=
  match t with
  | .read r => .next (regRead r s)
  | .write r w => regWrite r w s
  | .rst => .next (hardwareReset s)

/-- The host's transactions for one command word, put before all that are pending: a write to CMD. -/
def offerCommand (w : Word) (s : State) : State := { s with pending := .write 0 w :: s.pending }

end Sys2Proof.Machine
end

