-- ==== Sys2Proof/Machine/Step.lean ====
section
/-! DEFINITION. One step of the machine: the next transaction of the host, carried out to its end (spec/00_scope.md R9,
spec/20_memory.md R67, R69). The block has no program counter and fetches nothing (spec/10_state.md R30); its commands
come from the host, as writes to CMD. -/

namespace Sys2Proof.Machine

/-- Accept and carry out the host's next transaction; with none pending, nothing happens. -/
def step (s : State) : Host.Outcome State Fault Refusal :=
  match accept s with
  | none => .next s
  | some (t, s1) => transact t s1

/-- `s` with the command word whose low `nbits` bits are `w`'s as the host's next transaction, a write to CMD: the very
next step runs it. -/
def State.withFetchWord (s : State) (nbits w : Nat) : State := offerCommand (BitVec.ofNat 32 (w % 2 ^ nbits)) s

end Sys2Proof.Machine
end

