-- ==== Sys2Proof/Machine/Listing.lean ====
section
/-! DEFINITION. The listing lines and pseudo-instructions of spec/30_encoding.md R86, R87 as the host transactions they
abbreviate. They are the host's side: a list of them is what a program of the block is (spec/10_state.md R30). -/

namespace Sys2Proof.Machine

/-- The register number of a register (R21). -/
def numberOfReg (r : Reg) : BitVec 5 :=
  match r with
  | .cmd => 0
  | .status => 1
  | .faultCmd => 2
  | .capacity => 3
  | .byteCount => 4
  | .acc => 5
  | .accBits => 6
  | .totalBits => 7
  | .data => 8
  | .ghStride => 9
  | .ghPatchSize => 10
  | .ghLayerType => 11
  | .phQuantWbits => 12
  | .phDcOffset => 13
  | .phRange => 14
  | .phPatchIds => 15
  | .curPatchSize => 16
  | .curWordBits => 17
  | .bufAddr => 18
  | .bufData => 19
  | .patchAddr => 20
  | .patchData => 21

/-- `wr REG, value` (R86). -/
def wr (r : Reg) (w : Word) : Txn := .write (numberOfReg r) w

/-- `rd REG` (R86). -/
def rd (r : Reg) : Txn := .read (numberOfReg r)

/-- A command's line: the write of its command word to CMD (R86). -/
def cmd (i : Instr) : Txn := wr .cmd (encode i)

/-- `ldbuf a, b0 b1 ...` (R87). -/
def ldbuf (a : Nat) (bytes : List Nat) : List Txn :=
  match bytes with
  | [] => []
  | b :: rest => wr .bufAddr (BitVec.ofNat 32 a) :: wr .bufData (BitVec.ofNat 32 b) :: ldbuf (a + 1) rest

/-- `rdbuf a, k` (R87). -/
def rdbuf (a k : Nat) : List Txn :=
  match k with
  | 0 => []
  | k + 1 => wr .bufAddr (BitVec.ofNat 32 a) :: rd .bufData :: rdbuf (a + 1) k

/-- `ldpatch i, v0 v1 ...` (R87). -/
def ldpatch (i : Nat) (values : List Int) : List Txn :=
  match values with
  | [] => []
  | v :: rest => wr .patchAddr (BitVec.ofNat 32 i) :: wr .patchData (BitVec.ofInt 32 v) :: ldpatch (i + 1) rest

/-- `rdpatch i, k` (R87). -/
def rdpatch (i k : Nat) : List Txn :=
  match k with
  | 0 => []
  | k + 1 => wr .patchAddr (BitVec.ofNat 32 i) :: rd .patchData :: rdpatch (i + 1) k

/-- `packv v, n` (R87). -/
def packv (v : Word) (n : BitVec 6) : List Txn := [wr .data v, cmd (.pack n)]

/-- `setgh s, p, t` (R87). -/
def setgh (stride patchSize layerType : Word) : List Txn :=
  [wr .ghStride stride, wr .ghPatchSize patchSize, wr .ghLayerType layerType]

/-- `setph q, d, r, ids` (R87). -/
def setph (quantWbits dcOffset range patchIds : Word) : List Txn :=
  [wr .phQuantWbits quantWbits, wr .phDcOffset dcOffset, wr .phRange range, wr .phPatchIds patchIds]

/-- Carry out a list of transactions in order, stopping at the first that does not answer a next state (R69). -/
def runTxns (ts : List Txn) (s : State) : Host.Outcome State Fault Refusal :=
  match ts with
  | [] => .next s
  | t :: rest =>
    match transact t s with
    | .next s1 => runTxns rest s1
    | .fault f => .fault f
    | .refused r => .refused r

/-- The words that the reads among a list of transactions return, in order (R21, R69). -/
def readsOf (ts : List Txn) (s : State) : Option (List Word) :=
  match ts with
  | [] => some []
  | t :: rest =>
    match transact t s with
    | .next s1 =>
      match t, readsOf rest s1 with
      | .read _, some words => s1.response.map (fun v => v :: words)
      | .write _ _, some words => some words
      | .rst, some words => some words
      | _, none => none
    | .fault _ => none
    | .refused _ => none

end Sys2Proof.Machine
end

