-- ==== Sys2Proof/WellFormed.lean ====
section
/-! DEFINITION. The operand ranges of spec/30_encoding.md R81. A command outside them has an encoding and is decoded
(R85); running it raises IllegalOperand (R155). -/

namespace Sys2Proof

/-- Is every operand of the command in the range R81 calls legal: `n` in 0..32, `cap` in 0..MAX_CAP? The other operand
fields have no illegal value of their own. -/
def Instr.wellFormed (p : BufAw) (i : Instr) : Bool :=
  match i with
  | .pack n => decide (n.toNat ≤ 32)
  | .unpack n => decide (n.toNat ≤ 32)
  | .initEnc cap => decide (cap.toNat ≤ p.maxCap)
  | .initDec cap => decide (cap.toNat ≤ p.maxCap)
  | .flush | .bpReset | .codeGh | .decodeGh | .codePh _ | .decodePh _ | .codePatch _ | .decodePatch | .endData => true

end Sys2Proof
end

