-- ==== Sys2Proof/Safety.lean ====
section
/-! DEFINITION. What the claims about the machine speak of: the invariants of spec/10_state.md R45, the bit stream laid
over BUF (spec/00_scope.md R7, spec/10_state.md R30, R35), what it means for a command to append or consume bits
(spec/40_bitpacker.md R113), and the coefficient code as a relation (spec/42_codec_patch.md R140, R145). -/

namespace Sys2Proof.Machine

/-! ### Invariants -/

/-- The canonical contents of the accumulator (R35, R45(c)): staged bits right-aligned while encoding, unread bits
left-aligned while decoding, nothing without a session. -/
def accCanonical (s : State) : Bool :=
  match s.dir with
  | .none => s.acc = 0
  | .enc => s.acc.toNat < 2 ^ s.accBits.toNat
  | .dec => s.acc.toNat % 2 ^ (8 - s.accBits.toNat) = 0

/-- What holds between two transactions while no fault is pending: R45 (a) to (f), that BUF_ADDR holds `BUF_AW` bits
(R40), and that the unread bits in `acc` come from a byte that was loaded (R34), so that the stream position of a decode
session is no negative number (R30). -/
abbrev State.Resting (s : State) : Prop :=
  s.accBits.toNat ≤ 7 ∧
  s.byteCount ≤ s.capacity ∧
  s.capacity.toNat ≤ s.maxCap ∧
  accCanonical s = true ∧
  (s.accBits = 0 → s.acc = 0) ∧
  (s.dir = .none ↔ s.codecState = .idle) ∧
  (s.codecState = .patchOpen → 2 ≤ s.curWordBits.toNat ∧ s.curWordBits.toNat ≤ 17) ∧
  (s.cause = 0 ∧ s.faultCmd = 0) ∧
  s.bufAddr.toNat < s.maxCap ∧
  (s.dir = .dec → s.accBits.toNat ≤ 8 * s.byteCount.toNat)

/-- The invariant of the machine: both memories are in canonical form within their address spaces (R43, R44); R45 holds
while no fault is pending; a pending fault has one of the six causes (R150). -/
abbrev State.Inv (s : State) : Prop :=
  s.buf.wf s.maxCap ∧
  s.patch.wf patchWords ∧
  (s.fault = false → s.Resting) ∧
  (s.fault = true → 1 ≤ s.cause.toNat ∧ s.cause.toNat ≤ 6)

/-- A safe state: the invariant holds and no fault is pending. Every command may be issued in it. -/
abbrev State.Operational (s : State) : Prop := s.fault = false ∧ s.Inv

/-! ### The bit stream -/

/-- Stream bit `p`: bit `7 - p mod 8` of `BUF[p div 8]` (R7, R62). -/
def State.streamBit (s : State) (p : Nat) : Bool := (s.bufByte (p / 8)).getLsbD (7 - p % 8)

/-- The number of bits packed so far in an encode session (R30). -/
def State.packedPos (s : State) : Nat := 8 * s.byteCount.toNat + s.accBits.toNat

/-- Bit `p` of what an encode session has packed so far: in BUF if its byte is complete, else still staged in `acc`, the
oldest staged bit highest (R35, R70). -/
def State.producedBit (s : State) (p : Nat) : Bool :=
  if p < 8 * s.byteCount.toNat then s.streamBit p else s.acc.getLsbD (s.packedPos - 1 - p)

/-- The bit that a decode session will deliver after `k` more: from `acc`, highest first, then from the unread bytes of
BUF (R34, R35). -/
def State.upcomingBit (s : State) (k : Nat) : Bool :=
  if k < s.accBits.toNat then s.acc.getLsbD (7 - k) else s.streamBit (8 * s.byteCount.toNat + (k - s.accBits.toNat))

/-- The next `n` bits of a decode session. -/
def State.upcoming (s : State) (n : Nat) : List Bool := (List.range n).map s.upcomingBit

/-- `k` more bits can be packed without a byte completing beyond `capacity` (R106). -/
abbrev State.Room (s : State) (k : Nat) : Prop := s.packedPos + k < 8 * (s.capacity.toNat + 1)

/-- `k` more bits can be unpacked before the buffer ends (R107). -/
abbrev State.Available (s : State) (k : Nat) : Prop := 8 * s.byteCount.toNat + k ≤ s.accBits.toNat + 8 * s.capacity.toNat

/-- `t` is `s` but for the stream: BUF, `byte_count`, `acc`, `acc_bits`, `total_bits`. -/
def OnlyStream (s t : State) : Prop :=
  t = { s with buf := t.buf, byteCount := t.byteCount, acc := t.acc, accBits := t.accBits, totalBits := t.totalBits }

/-- From `s` to `t` exactly `bits` were appended to the stream of an encode session (R100, R113). -/
structure Appends (bits : List Bool) (s t : State) : Prop where
  position : t.packedPos = s.packedPos + bits.length
  partialByte : t.accBits.toNat ≤ 7
  canonical : t.acc.toNat < 2 ^ t.accBits.toNat
  counted : t.totalBits = s.totalBits + BitVec.ofNat 32 bits.length
  kept : ∀ p, p < s.packedPos → t.producedBit p = s.producedBit p
  appended : ∀ k, k < bits.length → t.producedBit (s.packedPos + k) = bits.getD k false
  elsewhere : ∀ a, a < s.byteCount.toNat ∨ (s.packedPos + bits.length) / 8 ≤ a → t.bufByte a = s.bufByte a

/-- From `s` to `t` exactly the next `n` bits of a decode session were taken; BUF is only read (R102, R113). -/
structure Consumes (n : Nat) (s t : State) : Prop where
  position : 8 * t.byteCount.toNat + s.accBits.toNat = 8 * s.byteCount.toNat + t.accBits.toNat + n
  partialByte : t.accBits.toNat ≤ 7
  canonical : t.acc.toNat % 2 ^ (8 - t.accBits.toNat) = 0
  counted : t.totalBits = s.totalBits + BitVec.ofNat 32 n
  buffer : t.buf = s.buf
  unread : ∀ k, t.upcomingBit k = s.upcomingBit (n + k)

/-! ### The coefficient code -/

/-- The code of one coefficient that is not part of an end-of-block tail (R140). -/
def coefficientCode (w : Nat) (v : Int) : List Bool :=
  if v = 0 then [false]
  else [true, true, decide (v < 0)] ++ wireBits (min v.natAbs (2 ^ w)) w

/-- `i0` of R145: the least index from which every coefficient below `cutoff` is zero. -/
def endOfBlockIndex (g : Nat → Int) (cutoff : Nat) : Nat :=
  match cutoff with
  | 0 => 0
  | c + 1 => if g c = 0 then endOfBlockIndex g c else c + 1

/-- What CODE_PATCH sends for the `area` coefficients `g` (already truncated) by R145: the codes of the coefficients
before `i0`, and the end-of-block code if `i0` is not the end of the patch. -/
def patchCode (w cutoff area : Nat) (g : Nat → Int) : List Bool :=
  let i0 := endOfBlockIndex g cutoff
  (List.range i0).flatMap (fun i => coefficientCode w (g i)) ++ (if i0 < area then [true, false] else [])

/-- The bit strings DECODE_PATCH reads as a given list of coefficients, magnitudes in `w` bits (R140, R142). A value of
magnitude 0 is one of them under either sign. -/
inductive Codes (w : Nat) : List Int → List Bool → Prop where
  | done : Codes w [] []
  | zero {g bs} : Codes w g bs → Codes w (0 :: g) (false :: bs)
  | endOfBlock (k : Nat) : Codes w (List.replicate (k + 1) 0) [true, false]
  | positive {g bs} (m : Nat) : m < 2 ^ w → Codes w g bs → Codes w ((m : Int) :: g) ([true, true, false] ++ wireBits m w ++ bs)
  | negative {g bs} (m : Nat) : m < 2 ^ w → Codes w g bs → Codes w (-(m : Int) :: g) ([true, true, true] ++ wireBits m w ++ bs)

/-! ### Which command may run, and how much it moves -/

/-- The cells of R120's table that do not say "fault", read with the column's `state` and the row's `dir`. -/
def legalIn (i : Instr) (d : Dir) (c : CodecState) : Bool :=
  match i with
  | .initEnc _ | .initDec _ | .bpReset => true
  | .pack _ | .flush | .codeGh => decide (d = .enc) && decide (c ≠ .idle)
  | .unpack _ | .decodeGh => decide (d = .dec) && decide (c ≠ .idle)
  | .codePh _ | .endData => decide (d = .enc) && (decide (c = .groupOpen) || decide (c = .patchOpen))
  | .decodePh _ => decide (d = .dec) && (decide (c = .groupOpen) || decide (c = .patchOpen))
  | .codePatch _ => decide (d = .enc) && decide (c = .patchOpen)
  | .decodePatch => decide (d = .dec) && decide (c = .patchOpen)

/-- The first check of R157 (2) to (4) that a decoded command fails, in that order. -/
def firstFault (i : Instr) (s : State) : Option Cause :=
  if i.wellFormed s.bufAw = false then some .illegalOperand
  else if legalIn i s.dir s.codecState = false then some .sequenceError
  else
    match i with
    | .codePatch postquant => if s.patchArea < postquant.toNat then some .invalidQuantizationIndex else none
    | .codePh _ =>
      if chooseWbits s.phQuantWbits s.grid < 2 ∨ 17 < chooseWbits s.phQuantWbits s.grid then some .invalidBitWidth
      else none
    | _ => none

/-- The truncated grid CODE_PATCH sends (R141). -/
def truncatedGrid (postquant : Nat) (s : State) (i : Nat) : Int :=
  if i < s.patchArea - postquant then s.coeff i else 0

/-- The bits CODE_PATCH sends from `s`, by R145. -/
def patchBitsOf (postquant : BitVec 16) (s : State) : List Bool :=
  patchCode s.curWordBits.toNat (s.patchArea - postquant.toNat) s.patchArea (truncatedGrid postquant.toNat s)

/-- How many bits a command packs; `none` for a command that packs none by `Pack` (R66, R131, R145). -/
def bitsSent (i : Instr) (s : State) : Option Nat :=
  match i with
  | .pack n => some n.toNat
  | .codeGh => some 32
  | .codePh large => some (if large then 88 else 66)
  | .codePatch postquant => some (patchBitsOf postquant s).length
  | .endData => some 8
  | .unpack _ | .flush | .bpReset | .initEnc _ | .initDec _ | .decodeGh | .decodePh _ | .decodePatch => none

/-- How many bits a command unpacks; `none` for one that unpacks none, and for DECODE_PATCH, whose number of bits its
coefficients decide (R66, R127, R131). -/
def bitsRead (i : Instr) (s : State) : Option Nat :=
  match i with
  | .unpack n => some n.toNat
  | .decodeGh => some 32
  | .decodePh large => some (if s.upcoming 8 = wireBits endOfPatches.toNat 8 then 8 else if large then 88 else 66)
  | .pack _ | .flush | .bpReset | .initEnc _ | .initDec _ | .codeGh | .codePh _ | .codePatch _ | .decodePatch
  | .endData => none

end Sys2Proof.Machine
end

