-- ==== Sys2Proof/Certificates/Slice0/Obligations.lean ====
section
/-! DEFINITION. The statements for the provers, one proposition each, from the numbered rules of spec/. They speak of the
machine's own `decode`, `encode`, `exec`, `transact` and `step`, in the terms of Sys2Proof/Safety.lean. -/

open Sys2Proof Sys2Proof.Machine

/-! ### Encoding (30_encoding.md) -/

/-- R80, R81, R84: the decoder reads back every command the encoder writes, with every operand at every value its field
admits. -/
def Obligations.DecodeReadsEncodedCommand : Prop :=
  ∀ i : Instr, decode (encode i) = .ok i

/-- R80, R84: a word that decodes is the one word of its command, so no bit of it is dropped. -/
def Obligations.DecodedWordIsTheEncoding : Prop :=
  ∀ (w : Word) (i : Instr), decode w = .ok i → encode i = w

/-- The match and mask columns of R84's table, by command. -/
def rowOfCommand (i : Instr) : Word × Word :=
  match i with
  | .pack _ => (0x01000000, 0xFFFFFFC0)
  | .unpack _ => (0x02000000, 0xFFFFFFC0)
  | .flush => (0x03000000, 0xFFFFFFFF)
  | .bpReset => (0x04000000, 0xFFFFFFFF)
  | .initEnc _ => (0x10000000, 0xFF000000)
  | .initDec _ => (0x11000000, 0xFF000000)
  | .codeGh => (0x20000000, 0xFFFFFFFF)
  | .decodeGh => (0x21000000, 0xFFFFFFFF)
  | .codePh _ => (0x22000000, 0xFFFFFFFE)
  | .decodePh _ => (0x23000000, 0xFFFFFFFE)
  | .codePatch _ => (0x24000000, 0xFFFF0000)
  | .decodePatch => (0x25000000, 0xFFFFFFFF)
  | .endData => (0x26000000, 0xFFFFFFFF)

/-- R84, R85: a word matches a row by that row's mask exactly if it decodes to that row's command; so it decodes to at
most one row, and it is illegal exactly if it matches none. A write of an illegal word to CMD raises IllegalCommand; one
of a word whose operand is out of range raises IllegalOperand. -/
def Obligations.DecodingIsTotalByMatchAndMask : Prop :=
  (∀ (w : Word) (j : Instr), w &&& (rowOfCommand j).2 = (rowOfCommand j).1 ↔
    ∃ i, decode w = .ok i ∧ rowOfCommand i = rowOfCommand j) ∧
  (∀ (w : Word) (s : State), s.fault = false →
    (∀ j : Instr, w &&& (rowOfCommand j).2 ≠ (rowOfCommand j).1) →
      transact (.write 0 w) s = .next (raiseFault .illegalCommand w s)) ∧
  (∀ (w : Word) (s : State) (i : Instr), s.fault = false → decode w = .ok i → i.wellFormed s.bufAw = false →
      transact (.write 0 w) s = .next (raiseFault .illegalOperand w s))

/-- R84, R86: words written out from the spec's table decode to their commands. -/
def Obligations.SpecWordsDecode : Prop :=
  decode 0x0100000A = .ok (.pack 10) ∧ decode 0x02000020 = .ok (.unpack 32) ∧ decode 0x03000000 = .ok .flush ∧
  decode 0x10000010 = .ok (.initEnc 16) ∧ decode 0x1100000E = .ok (.initDec 14) ∧ decode 0x20000000 = .ok .codeGh ∧
  decode 0x23000001 = .ok (.decodePh true) ∧ decode 0x24000005 = .ok (.codePatch 5) ∧
  decode 0x03000001 = .error .nonzeroReserved ∧ decode 0x00000000 = .error .unknownOp

/-! ### The step (00_scope.md R9, 10_state.md R42) -/

/-- R42, R67, R69: when the host's next transaction writes a word to CMD that decodes to a command, and no fault is
pending, the step takes the transaction off the list, clears the port's response, and is `exec` of that command. (The list
and the response are the model's own: notes/assumptions/2.md.) -/
def Obligations.StepRunsDecodedCommand : Prop :=
  ∀ (s : State) (w : Word) (rest : List Txn) (i : Instr),
    s.fault = false → s.pending = .write 0 w :: rest → decode w = .ok i →
      step s = exec i { s with pending := rest, response := none }

/-- R30, R69: every step carries out exactly the host's next transaction; with none, nothing happens. (The list and
the idle step are the model's: notes/assumptions/2.md.) -/
def Obligations.StepCarriesOutNextTransaction : Prop :=
  (∀ (s : State) (t : Txn) (rest : List Txn), s.pending = t :: rest →
    step s = transact t { s with pending := rest, response := none }) ∧
  (∀ s : State, s.pending = [] → step s = .next s)

/-! ### Reset (70_reset_and_hazards.md, 10_state.md R48) -/

/-- R48 for a state right after hardware reset. -/
def ResetValues (s : State) : Prop :=
  (s.fault = false ∧ s.cause = 0 ∧ s.faultCmd = 0) ∧ s.dir = .none ∧ s.codecState = .idle ∧ s.capacity = 0 ∧
  (s.byteCount = 0 ∧ s.acc = 0 ∧ s.accBits = 0 ∧ s.totalBits = 0) ∧ (s.curPatchSize = 0 ∧ s.curWordBits = 0) ∧
  (s.data = 0 ∧ s.ghStride = 0 ∧ s.ghPatchSize = 0 ∧ s.ghLayerType = 0) ∧
  (s.phQuantWbits = 0 ∧ s.phDcOffset = 0 ∧ s.phRange = 0 ∧ s.phPatchIds = 0) ∧ (s.bufAddr = 0 ∧ s.patchAddr = 0) ∧
  (∀ a, s.bufByte a = Config.bufUnspecified s.epoch a) ∧ (∀ i, s.patchWord i = Config.patchUnspecified s.epoch i) ∧
  readReg .status s = 0

/-- R48: the state after reset, and after a pulse of `rst` from any state (Faulted or not), has every register at R48's
value and both memories unspecified: each address holds a free value of the epoch the reset opens. (How a free value is
indexed is the model's: notes/assumptions/5.md; that the instance's parameter stays, notes/assumptions/1.md.) -/
def Obligations.HardwareResetGivesResetValues : Prop :=
  ResetValues State.reset ∧
  ∀ s : State, ∃ t, transact .rst s = .next t ∧ ResetValues t ∧ t.epoch = s.epoch + 1 ∧ t.bufAw = s.bufAw

/-- What R121 and R122 write, and nothing else. -/
def opened (d : Dir) (cap : BitVec 24) (s : State) : State :=
  { s with
    byteCount := 0
    acc := 0
    accBits := 0
    totalBits := 0
    capacity := cap
    dir := d
    codecState := .ready
    curPatchSize := 0
    curWordBits := 0 }

/-- R171: the three resets compared, row by row. (The memories after `rst` hold the model's free values:
notes/assumptions/5.md.) -/
def Obligations.ThreeResetsCompared : Prop :=
  ∀ s : State,
    (∃ t, transact .rst s = .next t ∧ t.byteCount = 0 ∧ t.acc = 0 ∧ t.accBits = 0 ∧ t.totalBits = 0 ∧ t.capacity = 0 ∧
      t.dir = .none ∧ t.codecState = .idle ∧ t.curPatchSize = 0 ∧ t.curWordBits = 0 ∧ t.data = 0 ∧ t.ghStride = 0 ∧
      t.ghPatchSize = 0 ∧ t.ghLayerType = 0 ∧ t.phQuantWbits = 0 ∧ t.phDcOffset = 0 ∧ t.phRange = 0 ∧
      t.phPatchIds = 0 ∧ t.bufAddr = 0 ∧ t.patchAddr = 0 ∧ (∀ a, t.bufByte a = Config.bufUnspecified t.epoch a) ∧
      (∀ i, t.patchWord i = Config.patchUnspecified t.epoch i) ∧ t.fault = false ∧ t.cause = 0 ∧ t.faultCmd = 0) ∧
    (s.fault = false →
      (∀ cap : BitVec 24, cap.toNat ≤ s.maxCap →
        transact (.write 0 (encode (.initEnc cap))) s = .next (opened .enc cap s) ∧
        transact (.write 0 (encode (.initDec cap))) s = .next (opened .dec cap s)) ∧
      transact (.write 0 (encode .bpReset)) s =
        .next { s with byteCount := 0, acc := 0, accBits := 0, totalBits := 0 }) ∧
    (s.fault = true → ∀ cap : BitVec 24, ∀ i ∈ [Instr.initEnc cap, .initDec cap, .bpReset],
      transact (.write 0 (encode i)) s = .next s)

/-! ### Session commands and BP_RESET -/

/-- R121, R122: INIT_ENC and INIT_DEC, from any state, open a session with the given capacity and touch nothing but the
named registers; they raise IllegalOperand exactly if the capacity is above MAX_CAP, and nothing else. -/
def Obligations.InitOpensSession : Prop :=
  ∀ (cap : BitVec 24) (s : State),
    encode (.initEnc cap) = 0x10000000 + cap.setWidth 32 ∧ encode (.initDec cap) = 0x11000000 + cap.setWidth 32 ∧
    (cap.toNat ≤ s.maxCap →
      exec (.initEnc cap) s = .next (opened .enc cap s) ∧
      exec (.initDec cap) s = .next (opened .dec cap s)) ∧
    (s.maxCap < cap.toNat →
      exec (.initEnc cap) s = .next (raiseFault .illegalOperand (encode (.initEnc cap)) s) ∧
      exec (.initDec cap) s = .next (raiseFault .illegalOperand (encode (.initDec cap)) s))

/-- R105, R109: BP_RESET (opcode 0x04, format Z) runs in every state, raises nothing, and zeroes the four cursors and
counters and nothing else; while Faulted the write that would issue it is ignored. -/
def Obligations.BpResetZeroesCursorsOnly : Prop :=
  encode .bpReset = 0x04000000 ∧
  (∀ s : State, resetPrim s = { s with byteCount := 0, acc := 0, accBits := 0, totalBits := 0 } ∧
    exec .bpReset s = .next (resetPrim s)) ∧
  (∀ s : State, s.fault = true → transact (.write 0 (encode .bpReset)) s = .next s)

/-! ### BitPacker commands -/

/-- R100, R101, R106: PACK n, with room for its bits, completes: it appends the `n` low bits of DATA, cut and ordered as
R101 says, to the stream, and changes nothing else. -/
def Obligations.PackAppendsBitsOfData : Prop :=
  ∀ (n : BitVec 6) (s : State), s.Operational → s.dir = .enc → n.toNat ≤ 32 → s.Room n.toNat →
    ∃ t, exec (.pack n) s = .next t ∧ OnlyStream s t ∧ Appends (wireBits s.data.toNat n.toNat) s t

/-- R106: in an encode session PACK n with `n <= 32` raises BufferExhausted exactly if
`acc_bits + n >= 8 * (capacity - byte_count + 1)` at entry. -/
def Obligations.PackExhaustsBufferExactly : Prop :=
  ∀ (n : BitVec 6) (s : State), s.Operational → s.dir = .enc → n.toNat ≤ 32 →
    (exec (.pack n) s = .next (raiseFault .bufferExhausted (encode (.pack n)) s) ↔
      8 * (s.capacity.toNat - s.byteCount.toNat + 1) ≤ s.accBits.toNat + n.toNat)

/-- R102, R103, R107: UNPACK n, with `n` bits left, completes: DATA becomes the value below `2^n` that is sent as the
next `n` bits of the stream, these bits are taken, BUF is only read, and nothing else changes. -/
def Obligations.UnpackDeliversNextBits : Prop :=
  ∀ (n : BitVec 6) (s : State), s.Operational → s.dir = .dec → n.toNat ≤ 32 → s.Available n.toNat →
    ∃ t, exec (.unpack n) s = .next t ∧ Consumes n.toNat s t ∧
      t.data.toNat < 2 ^ n.toNat ∧ wireBits t.data.toNat n.toNat = s.upcoming n.toNat ∧
      t = { s with byteCount := t.byteCount, acc := t.acc, accBits := t.accBits, totalBits := t.totalBits,
                   data := t.data }

/-- R107: in a decode session UNPACK n with `n <= 32` raises BufferExhausted exactly if
`n > acc_bits + 8 * (capacity - byte_count)` at entry. -/
def Obligations.UnpackExhaustsBufferExactly : Prop :=
  ∀ (n : BitVec 6) (s : State), s.Operational → s.dir = .dec → n.toNat ≤ 32 →
    (exec (.unpack n) s = .next (raiseFault .bufferExhausted (encode (.unpack n)) s) ↔
      s.accBits.toNat + 8 * (s.capacity.toNat - s.byteCount.toNat) < n.toNat)

/-- R70, R104, R108: FLUSH with no bit staged does nothing; with bits staged and a byte of capacity left it writes one
byte, so that every bit packed so far stands in BUF, followed by zeros up to the byte boundary; no other byte and no
other register changes, `total_bits` included. Without capacity it raises BufferExhausted, in no encode session
SequenceError. -/
def Obligations.FlushCompletesStagedByte : Prop :=
  ∀ s : State, s.Operational →
    (s.dir = .enc → s.accBits = 0 → exec .flush s = .next s) ∧
    (s.dir = .enc → s.accBits ≠ 0 → s.byteCount < s.capacity →
      ∃ t, exec .flush s = .next t ∧
        t = { s with buf := t.buf, byteCount := t.byteCount, acc := 0, accBits := 0 } ∧
        t.byteCount.toNat = s.byteCount.toNat + 1 ∧
        (∀ p, p < s.packedPos → t.streamBit p = s.producedBit p) ∧
        (∀ p, s.packedPos ≤ p → p < 8 * (s.byteCount.toNat + 1) → t.streamBit p = false) ∧
        (∀ a, a ≠ s.byteCount.toNat → t.bufByte a = s.bufByte a)) ∧
    (s.dir = .enc → s.accBits ≠ 0 → s.byteCount = s.capacity →
      exec .flush s = .next (raiseFault .bufferExhausted (encode .flush) s)) ∧
    (s.dir ≠ .enc → exec .flush s = .next (raiseFault .sequenceError (encode .flush) s))

/-! ### Group header -/

/-- R123: CODE_GH, with room for 32 bits, completes: it appends stride, patch size and layer type in that order, copies
the patch size into `cur_patch_size`, opens the group, and changes nothing else. -/
def Obligations.CodeGroupHeaderAppendsFields : Prop :=
  ∀ s : State, s.Operational → s.dir = .enc → s.Room 32 →
    ∃ t, OnlyStream s t ∧
      Appends (wireBits s.ghStride.toNat 16 ++ wireBits s.ghPatchSize.toNat 8 ++ wireBits s.ghLayerType.toNat 8) s t ∧
      exec .codeGh s = .next { t with curPatchSize := s.ghPatchSize, codecState := .groupOpen }

/-- R124: DECODE_GH, with 32 bits left, completes: it takes them into the three GH registers, in the order of the wire,
copies the patch size into `cur_patch_size`, opens the group, and changes nothing else. -/
def Obligations.DecodeGroupHeaderReadsFields : Prop :=
  ∀ s : State, s.Operational → s.dir = .dec → s.Available 32 →
    ∃ t, exec .decodeGh s = .next t ∧ Consumes 32 s t ∧
      wireBits t.ghStride.toNat 16 ++ wireBits t.ghPatchSize.toNat 8 ++ wireBits t.ghLayerType.toNat 8 = s.upcoming 32 ∧
      t = { s with byteCount := t.byteCount, acc := t.acc, accBits := t.accBits, totalBits := t.totalBits,
                   ghStride := t.ghStride, ghPatchSize := t.ghPatchSize, ghLayerType := t.ghLayerType,
                   curPatchSize := t.ghPatchSize, codecState := .groupOpen }

/-! ### Patch header -/

/-- R125: `ChooseWbits` answers one more than the highest position, from `minw` to `maxw`, at which any coefficient's
magnitude has a bit set, and `minw + 1` if there is none. -/
def Obligations.ChosenWidthIsHighestBitPlusOne : Prop :=
  ∀ (q : BitVec 8) (coeffs : List Int),
    let minw := (q.toNat % 16 + 2) / 2
    let maxw := q.toNat % 16 + 2 + 5
    let w := chooseWbits q coeffs
    minw + 1 ≤ w ∧ w ≤ maxw + 1 ∧
    (∀ v ∈ coeffs, ∀ j, minw ≤ j → j ≤ maxw → v.natAbs.testBit j = true → j < w) ∧
    (w = minw + 1 ∨ ∃ v ∈ coeffs, v.natAbs.testBit (w - 1) = true)

/-- R126, R130: CODE_PH, with a chosen width in 2..17 and room for 66 or 88 bits, completes: the low nibble of
PH_QUANT_WBITS becomes the width minus 2 and its high nibble stays; the updated byte, `dc_offset`, `range` and the 10 or
32 bits of `patch_ids` are appended in that order; `cur_word_bits` is the width; nothing else changes. -/
def Obligations.CodePatchHeaderAppendsFields : Prop :=
  ∀ (large : Bool) (s : State), s.Operational → s.dir = .enc →
    (s.codecState = .groupOpen ∨ s.codecState = .patchOpen) →
    chooseWbits s.phQuantWbits s.grid ≤ 17 → s.Room (if large then 88 else 66) →
    ∃ (q : BitVec 8) (t : State),
      q.toNat = 16 * (s.phQuantWbits.toNat / 16) + (chooseWbits s.phQuantWbits s.grid - 2) ∧
      OnlyStream { s with phQuantWbits := q } t ∧
      Appends (wireBits q.toNat 8 ++ wireBits s.phDcOffset.toNat 32 ++ wireBits s.phRange.toNat 16 ++
        wireBits s.phPatchIds.toNat (if large then 32 else 10)) s t ∧
      exec (.codePh large) s = .next
        { t with curWordBits := BitVec.ofNat 5 (chooseWbits s.phQuantWbits s.grid), codecState := .patchOpen }

/-- R152: a legal CODE_PH raises InvalidBitWidth exactly if the chosen width is outside 2..17, that is if some coefficient
has a bit set at a position from 17 to `maxw`; it raises it from the state it started in, nothing packed and
PH_QUANT_WBITS not updated. No other command raises it. -/
def Obligations.InvalidBitWidthExactly : Prop :=
  (∀ (large : Bool) (s : State), s.Operational → s.dir = .enc →
    (s.codecState = .groupOpen ∨ s.codecState = .patchOpen) →
    (exec (.codePh large) s = .next (raiseFault .invalidBitWidth (encode (.codePh large)) s) ↔
      (chooseWbits s.phQuantWbits s.grid < 2 ∨ 17 < chooseWbits s.phQuantWbits s.grid)) ∧
    ((chooseWbits s.phQuantWbits s.grid < 2 ∨ 17 < chooseWbits s.phQuantWbits s.grid) ↔
      ∃ v ∈ s.grid, ∃ j, 17 ≤ j ∧ j ≤ s.phQuantWbits.toNat % 16 + 7 ∧ v.natAbs.testBit j = true)) ∧
  ∀ (i : Instr) (s t : State), s.Operational → exec i s = .next t → t.fault = true → t.cause = 2 →
    ∃ large, i = .codePh large

/-- R127: DECODE_PH on anything but the sentinel, with 66 or 88 bits left, completes: it takes them into the four PH
registers in the order of the wire (with the small form PH_PATCH_IDS[31:10] become 0), `cur_word_bits` becomes the low
nibble plus 2, a patch may follow; nothing else changes. -/
def Obligations.DecodePatchHeaderReadsFields : Prop :=
  ∀ (large : Bool) (s : State), s.Operational → s.dir = .dec →
    (s.codecState = .groupOpen ∨ s.codecState = .patchOpen) →
    s.upcoming 8 ≠ wireBits 97 8 → s.Available (if large then 88 else 66) →
    ∃ t, exec (.decodePh large) s = .next t ∧ Consumes (if large then 88 else 66) s t ∧
      wireBits t.phQuantWbits.toNat 8 ++ wireBits t.phDcOffset.toNat 32 ++ wireBits t.phRange.toNat 16 ++
        wireBits t.phPatchIds.toNat (if large then 32 else 10) = s.upcoming (if large then 88 else 66) ∧
      t.phPatchIds.toNat < 2 ^ (if large then 32 else 10) ∧
      t.curWordBits.toNat = t.phQuantWbits.toNat % 16 + 2 ∧
      t = { s with byteCount := t.byteCount, acc := t.acc, accBits := t.accBits, totalBits := t.totalBits,
                   phQuantWbits := t.phQuantWbits, phDcOffset := t.phDcOffset, phRange := t.phRange,
                   phPatchIds := t.phPatchIds, curWordBits := t.curWordBits, codecState := .patchOpen }

/-- R127, R178: DECODE_PH with the byte 97 next takes exactly 8 bits, zeroes the three other PH registers, keeps
`cur_word_bits` and closes the group. -/
def Obligations.DecodePatchHeaderStopsAtSentinel : Prop :=
  ∀ (large : Bool) (s : State), s.Operational → s.dir = .dec →
    (s.codecState = .groupOpen ∨ s.codecState = .patchOpen) →
    s.upcoming 8 = wireBits 97 8 → s.Available 8 →
    ∃ t, exec (.decodePh large) s = .next t ∧ Consumes 8 s t ∧
      t = { s with byteCount := t.byteCount, acc := t.acc, accBits := t.accBits, totalBits := t.totalBits,
                   phQuantWbits := 97, phDcOffset := 0, phRange := 0, phPatchIds := 0, codecState := .closed }

/-- R128: END_DATA, with room for 8 bits, completes: it appends the sentinel 97 and closes the group; nothing else
changes. -/
def Obligations.EndDataAppendsSentinel : Prop :=
  ∀ s : State, s.Operational → s.dir = .enc → (s.codecState = .groupOpen ∨ s.codecState = .patchOpen) → s.Room 8 →
    ∃ t, OnlyStream s t ∧ Appends (wireBits 97 8) s t ∧ exec .endData s = .next { t with codecState := .closed }

/-! ### Coefficients -/

/-- R141, R145: CODE_PATCH, with `postquant <= N` and room for its bits, completes: the last `postquant` coefficients of
the patch become zero in PATCH and every other word of PATCH stays; the code of the truncated grid is appended; nothing
else changes. -/
def Obligations.CodePatchAppendsCoefficientCode : Prop :=
  ∀ (postquant : BitVec 16) (s : State), s.Operational → s.dir = .enc → s.codecState = .patchOpen →
    postquant.toNat ≤ s.patchArea → s.Room (patchBitsOf postquant s).length →
    ∃ t, exec (.codePatch postquant) s = .next t ∧ Appends (patchBitsOf postquant s) s t ∧
      (∀ i, t.patchWord i =
        if s.patchArea - postquant.toNat ≤ i ∧ i < s.patchArea then 0 else s.patchWord i) ∧
      t = { s with buf := t.buf, byteCount := t.byteCount, acc := t.acc, accBits := t.accBits,
                   totalBits := t.totalBits, patch := t.patch }

/-- R145: with `i0` the least index from which all coefficients below the cutoff are zero, CODE_PATCH advances the stream
by `z + (3 + w) * p + (2 if i0 < N else 0)` bits, `z` and `p` the zeros and nonzeros before `i0`; and `i0 = N > 0` only
if `postquant = 0` and the last coefficient is not zero. -/
def Obligations.EndOfBlockShortcutCost : Prop :=
  ∀ (postquant : BitVec 16) (s t : State) (i0 : Nat), s.Operational →
    exec (.codePatch postquant) s = .next t → t.fault = false →
    i0 ≤ s.patchArea - postquant.toNat →
    (∀ j, i0 ≤ j → j < s.patchArea - postquant.toNat → s.coeff j = 0) →
    (∀ i, i < i0 → ∃ j, i ≤ j ∧ j < s.patchArea - postquant.toNat ∧ s.coeff j ≠ 0) →
    t.packedPos = s.packedPos +
      (((List.range i0).filter (fun i => decide (s.coeff i = 0))).length +
        (3 + s.curWordBits.toNat) * ((List.range i0).filter (fun i => decide (s.coeff i ≠ 0))).length +
        (if i0 < s.patchArea then 2 else 0)) ∧
    (i0 = s.patchArea → 0 < s.patchArea → postquant = 0 ∧ s.coeff (s.patchArea - 1) ≠ 0)

/-- R140, R142: DECODE_PATCH, when the bits to come are a code of `N` coefficients that fits in the buffer, completes: it
takes exactly those bits, `PATCH[0 .. N-1]` are the coefficients and every other word of PATCH stays; nothing else
changes. -/
def Obligations.DecodePatchReadsCoefficientCode : Prop :=
  ∀ (s : State) (grid : List Int) (bits : List Bool), s.Operational → s.dir = .dec → s.codecState = .patchOpen →
    grid.length = s.patchArea → Codes s.curWordBits.toNat grid bits → s.upcoming bits.length = bits →
    s.Available bits.length →
    ∃ t, exec .decodePatch s = .next t ∧ Consumes bits.length s t ∧
      (∀ i, i < s.patchArea → t.coeff i = grid.getD i 0) ∧
      (∀ i, s.patchArea ≤ i → t.patchWord i = s.patchWord i) ∧
      t = { s with byteCount := t.byteCount, acc := t.acc, accBits := t.accBits, totalBits := t.totalBits,
                   patch := t.patch }

/-- R142: any bit string decodes to some grid or runs off the buffer. DECODE_PATCH either completes, having taken a code
of `N` coefficients, or raises BufferExhausted, and then no code of `N` coefficients lies within what is left. -/
def Obligations.DecodePatchDecodesOrExhausts : Prop :=
  ∀ s : State, s.Operational → s.dir = .dec → s.codecState = .patchOpen →
    (∃ (t : State) (grid : List Int) (bits : List Bool), exec .decodePatch s = .next t ∧ t.fault = false ∧
      grid.length = s.patchArea ∧ Codes s.curWordBits.toNat grid bits ∧ s.upcoming bits.length = bits ∧
      s.Available bits.length) ∨
    (exec .decodePatch s = .next (raiseFault .bufferExhausted (encode .decodePatch) s) ∧
      ∀ (grid : List Int) (bits : List Bool), grid.length = s.patchArea → Codes s.curWordBits.toNat grid bits →
        s.upcoming bits.length = bits → ¬ s.Available bits.length)

/-- R146: after a CODE_PH that did not fault the width is 2..17; a coefficient with no bit above position `maxw` is below
`2^width` in magnitude; one with such a bit is clamped to `2^width`, which is sent as zero bits. -/
def Obligations.WidthBoundAfterCodePatchHeader : Prop :=
  ∀ (large : Bool) (s t : State), s.Operational → exec (.codePh large) s = .next t → t.fault = false →
    2 ≤ t.curWordBits.toNat ∧ t.curWordBits.toNat ≤ 17 ∧
    ∀ i, i < s.patchArea →
      ((s.coeff i).natAbs < 2 ^ (s.phQuantWbits.toNat % 16 + 8) → (s.coeff i).natAbs < 2 ^ t.curWordBits.toNat) ∧
      (2 ^ (s.phQuantWbits.toNat % 16 + 8) ≤ (s.coeff i).natAbs →
        min (s.coeff i).natAbs (2 ^ t.curWordBits.toNat) = 2 ^ t.curWordBits.toNat ∧
        wireBits (min (s.coeff i).natAbs (2 ^ t.curWordBits.toNat)) t.curWordBits.toNat =
          List.replicate t.curWordBits.toNat false)

/-! ### Faults (60_exceptions.md, 41_codec_headers.md R120) -/

/-- R157: the checks are made in one fixed order and the first that fails is the fault raised, charged to the command
word; a command that passes them all completes or raises BufferExhausted. An illegal word raises IllegalCommand before
any of them. -/
def Obligations.FaultChecksInFixedOrder : Prop :=
  (∀ (i : Instr) (s : State), s.Operational →
    (∀ c, firstFault i s = some c → exec i s = .next (raiseFault c (encode i) s)) ∧
    (firstFault i s = none →
      (∃ t, exec i s = .next t ∧ t.fault = false) ∨
      exec i s = .next (raiseFault .bufferExhausted (encode i) s))) ∧
  (∀ (w : Word) (r : IllegalWord) (s : State), s.fault = false → decode w = .error r →
    transact (.write 0 w) s = .next (raiseFault .illegalCommand w s))

/-- R151: a command that passes its checks raises BufferExhausted exactly if the bits it packs have no room, or the bits
it unpacks are not left. (FLUSH and DECODE_PATCH: their own statements.) -/
def Obligations.BufferExhaustedExactlyWithoutRoom : Prop :=
  ∀ (i : Instr) (s : State) (k : Nat), s.Operational → firstFault i s = none →
    (bitsSent i s = some k →
      (exec i s = .next (raiseFault .bufferExhausted (encode i) s) ↔ ¬ s.Room k)) ∧
    (bitsRead i s = some k →
      (exec i s = .next (raiseFault .bufferExhausted (encode i) s) ↔ ¬ s.Available k))

/-- R120: a command whose operands are in range raises SequenceError exactly in the cells that say "fault"; elsewhere, if
it does not fault otherwise, `dir` and `state` are what the cell says. (What R120 adds, "and changes nothing else", gives
way to R158: notes/assumptions/4.md.) -/
def Obligations.CommandLegalityTable : Prop :=
  ∀ (i : Instr) (s : State), s.Operational → i.wellFormed s.bufAw = true →
    (exec i s = .next (raiseFault .sequenceError (encode i) s) ↔ legalIn i s.dir s.codecState = false) ∧
    ∀ t, exec i s = .next t → t.fault = false →
      (t.dir, t.codecState) =
        match i with
        | .initEnc _ => (.enc, .ready)
        | .initDec _ => (.dec, .ready)
        | .codeGh | .decodeGh => (s.dir, .groupOpen)
        | .codePh _ => (s.dir, .patchOpen)
        | .decodePh _ => (s.dir, if t.phQuantWbits = 97 then .closed else .patchOpen)
        | .endData => (s.dir, .closed)
        | .pack _ | .unpack _ | .flush | .bpReset | .codePatch _ | .decodePatch => (s.dir, s.codecState)

/-- R155: IllegalOperand is raised by PACK and UNPACK with `n > 32` and by INIT_ENC and INIT_DEC with `cap > MAX_CAP`, in
every state, and by nothing else. -/
def Obligations.IllegalOperandRaised : Prop :=
  (∀ (n : BitVec 6) (cap : BitVec 24) (s : State),
    (32 < n.toNat → ∀ i ∈ [Instr.pack n, .unpack n],
      ∃ t, exec i s = .next t ∧ t.fault = true ∧ t.cause = 5 ∧ t.faultCmd = encode i) ∧
    (s.maxCap < cap.toNat → ∀ i ∈ [Instr.initEnc cap, .initDec cap],
      ∃ t, exec i s = .next t ∧ t.fault = true ∧ t.cause = 5 ∧ t.faultCmd = encode i)) ∧
  ∀ (i : Instr) (s t : State), s.Operational → exec i s = .next t → t.fault = true → t.cause = 5 →
    (∃ n, (i = .pack n ∨ i = .unpack n) ∧ 32 < n.toNat) ∨
    ∃ cap, (i = .initEnc cap ∨ i = .initDec cap) ∧ s.maxCap < cap.toNat

/-- R153: a legal CODE_PATCH raises InvalidQuantizationIndex exactly if `postquant > cur_patch_size^2`, from the state it
started in: PATCH not modified, nothing packed. `postquant` equal to the patch area is legal. -/
def Obligations.InvalidQuantizationIndexRaised : Prop :=
  ∀ (postquant : BitVec 16) (s : State), s.Operational → s.dir = .enc → s.codecState = .patchOpen →
    (exec (.codePatch postquant) s = .next (raiseFault .invalidQuantizationIndex (encode (.codePatch postquant)) s) ↔
      s.curPatchSize.toNat ^ 2 < postquant.toNat) ∧
    (raiseFault .invalidQuantizationIndex (encode (.codePatch postquant)) s).cause = 3 ∧
    (postquant.toNat = s.curPatchSize.toNat ^ 2 →
      ∀ t, exec (.codePatch postquant) s = .next t → t.fault = true → t.cause = 1)

/-- R158: raising a fault (a next state of this model: notes/assumptions/3.md) records the flag, the cause and the command word, and what it leaves depends on nothing else of
the block's state: only on the instance, on what the host has yet to send and was last told, and on the counters that
index the free values (notes/assumptions/5.md). -/
def Obligations.RaisedFaultForgetsState : Prop :=
  ∀ (c : Cause) (w : Word) (s t : State),
    (raiseFault c w s).fault = true ∧
    (raiseFault c w s).cause.toNat =
      (match c with
        | .bufferExhausted => 1
        | .invalidBitWidth => 2
        | .invalidQuantizationIndex => 3
        | .illegalCommand => 4
        | .illegalOperand => 5
        | .sequenceError => 6) ∧
    (raiseFault c w s).faultCmd = w ∧
    (s.bufAw = t.bufAw → s.pending = t.pending → s.response = t.response → s.epoch = t.epoch → s.draws = t.draws →
      raiseFault c w s = raiseFault c w t)

/-- R159: the Faulted condition is absorbing. Every write is ignored; STATUS and FAULT_CMD read the record and every other
read returns an unspecified word, of which nothing is said, with no effect on the block (`draws` is the model's own
counter: notes/assumptions/7.md); only `rst` leaves it, to the state of R48. -/
def Obligations.FaultedConditionIsAbsorbing : Prop :=
  ∀ s : State, s.fault = true →
    (∀ r w, transact (.write r w) s = .next s) ∧
    (∀ r, ∃ v n, transact (.read r) s = .next { s with response := some v, draws := n } ∧
      (r = 1 → v.getLsbD 0 = true ∧ v.extractLsb' 8 8 = s.cause) ∧ (r = 2 → v = s.faultCmd)) ∧
    ∃ t, transact .rst s = .next t ∧ ResetValues t

/-! ### The machine as a whole -/

/-- R45, R43, R44, R150: every step keeps the invariant, from every state that has it. (The canonical form of the memories
is the model's: notes/assumptions/5.md.) -/
def Obligations.InvariantKeptByEveryStep : Prop :=
  ∀ s t : State, s.Inv → step s = .next t → t.Inv

/-- R45, R48: the invariant holds after reset. -/
def Obligations.InvariantHoldsAfterReset : Prop :=
  State.reset.Inv

/-- R9, R111: under the invariant every step answers a next state: the model's one fault (notes/assumptions/8.md) is
never met. -/
def Obligations.StepAlwaysAnswersUnderInvariant : Prop :=
  ∀ s : State, s.Inv → ∃ t, step s = .next t

/-- R111: no command stores to or loads from BUF at or beyond `capacity`. With any other contents there, a command does
the same, and leaves those contents as they are; and `byte_count` never exceeds `capacity`. -/
def Obligations.BufferBeyondCapacityUntouched : Prop :=
  ∀ (i : Instr) (s t : State) (m : Memory 8), s.Operational → m.wf s.maxCap →
    (∀ a, a < s.capacity.toNat → m.lookup a = s.buf.lookup a) →
    exec i s = .next t →
    (t.fault = true → exec i { s with buf := m } = .next t) ∧
    (t.fault = false →
      t.byteCount ≤ t.capacity ∧
      (∀ a, s.capacity.toNat ≤ a → t.buf.lookup a = s.buf.lookup a) ∧
      ∃ m', exec i { s with buf := m } = .next { t with buf := m' } ∧
        (∀ a, a < s.capacity.toNat → m'.lookup a = t.buf.lookup a) ∧
        (∀ a, s.capacity.toNat ≤ a → m'.lookup a = m.lookup a))

/-- R113, R30: a command that packs `k` bits moves `(byte_count, acc_bits)` from `(b, a)` to
`((8b + a + k) div 8, (8b + a + k) mod 8)`; one that unpacks `k` bits moves the stream position to `pos + k` with
`byte_count = ceil((pos + k)/8)`; `total_bits` counts them. DECODE_PATCH unpacks some number of bits, and so moves. -/
def Obligations.StreamPositionLaw : Prop :=
  ∀ (i : Instr) (s t : State), s.Operational → exec i s = .next t → t.fault = false →
    (∀ k, bitsSent i s = some k →
      t.byteCount.toNat = (8 * s.byteCount.toNat + s.accBits.toNat + k) / 8 ∧
      t.accBits.toNat = (8 * s.byteCount.toNat + s.accBits.toNat + k) % 8 ∧
      t.streamPos = s.streamPos + k ∧
      t.totalBits = s.totalBits + BitVec.ofNat 32 k) ∧
    (∀ k, bitsRead i s = some k ∨ i = .decodePatch ∧ t.streamPos = s.streamPos + k →
      t.byteCount.toNat = (s.streamPos + k + 7) / 8 ∧
      t.accBits.toNat = 8 * t.byteCount.toNat - (s.streamPos + k) ∧
      t.streamPos = s.streamPos + k ∧
      t.totalBits = s.totalBits + BitVec.ofNat 32 k) ∧
    (i = .decodePatch → s.streamPos ≤ t.streamPos) ∧
    (i = .flush → t.streamPos = (s.streamPos + 7) / 8 * 8 ∧ t.totalBits = s.totalBits)

/-- The frame over the registers: a command that does not fault changes no register but those its rule names (R106 to
R109, R121 to R128, R141, R142). -/
def Obligations.CommandsKeepUnnamedRegisters : Prop :=
  ∀ (i : Instr) (s t : State), s.Operational → exec i s = .next t → t.fault = false →
    (t.bufAddr = s.bufAddr ∧ t.patchAddr = s.patchAddr ∧ t.cause = s.cause ∧ t.faultCmd = s.faultCmd ∧
      t.bufAw = s.bufAw ∧ t.pending = s.pending ∧ t.response = s.response ∧ t.epoch = s.epoch ∧ t.draws = s.draws) ∧
    ((∀ n, i ≠ .unpack n) → t.data = s.data) ∧
    (i ≠ .decodeGh →
      t.ghStride = s.ghStride ∧ t.ghPatchSize = s.ghPatchSize ∧ t.ghLayerType = s.ghLayerType) ∧
    ((∀ l, i ≠ .decodePh l) →
      t.phDcOffset = s.phDcOffset ∧ t.phRange = s.phRange ∧ t.phPatchIds = s.phPatchIds) ∧
    ((∀ l, i ≠ .codePh l ∧ i ≠ .decodePh l) → t.phQuantWbits = s.phQuantWbits) ∧
    ((∀ cap, i ≠ .initEnc cap ∧ i ≠ .initDec cap) →
      t.capacity = s.capacity ∧ t.dir = s.dir ∧
      (i ≠ .codeGh → i ≠ .decodeGh → t.curPatchSize = s.curPatchSize) ∧
      ((∀ l, i ≠ .codePh l ∧ i ≠ .decodePh l) → t.curWordBits = s.curWordBits)) ∧
    (i = .flush → t.totalBits = s.totalBits)

/-- The frame over the memories: a command that does not fault stores to BUF only from `byte_count` up to the byte its
last completed bit stands in, FLUSH only at `byte_count`, every other command nowhere; to PATCH, CODE_PATCH only in the
truncated tail, DECODE_PATCH only below `N`, every other command nowhere (R43, R44). -/
def Obligations.CommandsKeepUnnamedMemory : Prop :=
  ∀ (i : Instr) (s t : State), s.Operational → exec i s = .next t → t.fault = false →
    (∀ k, bitsSent i s = some k →
      ∀ a, a < s.byteCount.toNat ∨ (8 * s.byteCount.toNat + s.accBits.toNat + k) / 8 ≤ a →
        t.bufByte a = s.bufByte a) ∧
    (i = .flush → ∀ a, a ≠ s.byteCount.toNat ∨ s.accBits = 0 → t.bufByte a = s.bufByte a) ∧
    (bitsSent i s = none → i ≠ .flush → t.buf = s.buf) ∧
    (∀ q, i = .codePatch q → ∀ j, j < s.patchArea - q.toNat ∨ s.patchArea ≤ j → t.patchWord j = s.patchWord j) ∧
    (i = .decodePatch → ∀ j, s.patchArea ≤ j → t.patchWord j = s.patchWord j) ∧
    ((∀ q, i ≠ .codePatch q) → i ≠ .decodePatch → t.patch = s.patch)

/-! ### The register port (10_state.md) -/

/-- R49: a write to a read-only or unassigned register is ignored, a read of CMD or of an unassigned register returns 0,
none of these faults; while Faulted writes are ignored, STATUS and FAULT_CMD read the record, and every other read
returns an unspecified value, of which nothing is said. -/
def Obligations.RegisterAccessCornerCases : Prop :=
  (∀ (s : State) (r : BitVec 5) (w : Word), s.fault = false →
    (1 ≤ r.toNat ∧ r.toNat ≤ 7 ∨ r.toNat = 16 ∨ r.toNat = 17 ∨ 22 ≤ r.toNat → transact (.write r w) s = .next s) ∧
    (r.toNat = 0 ∨ 22 ≤ r.toNat → transact (.read r) s = .next { s with response := some 0 })) ∧
  (∀ (s : State) (r : BitVec 5) (w : Word), s.fault = true →
    transact (.write r w) s = .next s ∧
    ∃ t v, transact (.read r) s = .next t ∧ t.response = some v ∧
      (r.toNat = 1 → v.getLsbD 0 = s.fault ∧ v.extractLsb' 8 8 = s.cause) ∧
      (r.toNat = 2 → v = s.faultCmd))

/-- R31, R160: the fields of STATUS while no fault is pending; bit 0 is the level of `fault_o`. -/
def Obligations.StatusFields : Prop :=
  ∀ s : State, s.fault = false →
    ∃ v, transact (.read 1) s = .next { s with response := some v } ∧
      v.getLsbD 0 = false ∧ faultOutput s = v.getLsbD 0 ∧
      (v.extractLsb' 1 2).toNat =
        (match s.dir with
          | .none => 0
          | .enc => 1
          | .dec => 2) ∧
      (v.extractLsb' 3 3).toNat =
        (match s.codecState with
          | .idle => 0
          | .ready => 1
          | .groupOpen => 2
          | .patchOpen => 3
          | .closed => 4) ∧
      v.extractLsb' 6 2 = 0 ∧ v.extractLsb' 8 8 = s.cause ∧ v.extractLsb' 16 16 = 0

/-- R21: each operand and index register keeps the low bits of what is written, as many as it has, returns them
zero-extended, and no other register's value changes (BUF_DATA and PATCH_DATA follow their index registers). -/
def Obligations.WrittenRegisterReadsBack : Prop :=
  ∀ (s : State) (r : BitVec 5) (k : Nat) (w : Word), s.fault = false →
    (r.toNat, k) ∈ [(8, 32), (9, 16), (10, 8), (11, 8), (12, 8), (13, 32), (14, 16), (15, 32), (18, s.bufAw.val + 1),
      (20, 16)] →
    ∃ t, transact (.write r w) s = .next t ∧
      transact (.read r) t = .next { t with response := some (BitVec.ofNat 32 (w.toNat % 2 ^ k)) } ∧
      ∀ reg : Reg, regOfNumber r ≠ some reg → ¬ (r.toNat = 18 ∧ reg = .bufData) → ¬ (r.toNat = 20 ∧ reg = .patchData) →
        readReg reg t = readReg reg s

/-- R40: BUF_ADDR holds `BUF_AW` bits; a read of BUF_DATA returns the byte of BUF it selects, zero-extended; a write
stores the low byte there, and no other byte changes; BUF_ADDR does not move. -/
def Obligations.BufDataWindow : Prop :=
  ∀ (s : State) (a w : Word), s.fault = false →
    ∃ t u, transact (.write 18 a) s = .next t ∧ transact (.write 19 w) t = .next u ∧
      t = { s with bufAddr := t.bufAddr } ∧ t.bufAddr.toNat = a.toNat % 2 ^ (s.bufAw.val + 1) ∧
      transact (.read 19) t = .next { t with response := some ((s.bufByte t.bufAddr.toNat).setWidth 32) } ∧
      u = { t with buf := u.buf } ∧
      ∀ b, u.bufByte b = if b = t.bufAddr.toNat then w.setWidth 8 else s.bufByte b

/-- R41: the same for PATCH_ADDR and PATCH_DATA: reads return the two's-complement word, writes store
`sint32` of theirs, and there is no auto-increment. -/
def Obligations.PatchDataWindow : Prop :=
  ∀ (s : State) (i w : Word), s.fault = false →
    ∃ t u, transact (.write 20 i) s = .next t ∧ transact (.write 21 w) t = .next u ∧
      t = { s with patchAddr := t.patchAddr } ∧ t.patchAddr.toNat = i.toNat % 65536 ∧
      transact (.read 21) t = .next { t with response := some (s.patchWord t.patchAddr.toNat) } ∧
      u = { t with patch := u.patch } ∧
      ∀ j, u.coeff j = if j = t.patchAddr.toNat then w.toInt else s.coeff j

/-- R68: no register read has a side effect on the block, so a read repeated returns the same; a write to an operand or
index register repeated leaves the same state. -/
def Obligations.ReadsHaveNoSideEffect : Prop :=
  ∀ (s : State) (r : BitVec 5) (w : Word), s.fault = false →
    (∃ t v, transact (.read r) s = .next t ∧ t = { s with response := some v } ∧ transact (.read r) t = .next t) ∧
    (8 ≤ r.toNat ∧ r.toNat ≤ 15 ∨ r.toNat = 18 ∨ r.toNat = 20 →
      ∃ t, transact (.write r w) s = .next t ∧ transact (.write r w) t = .next t)

/-- R73: a store through BUF_DATA in a decode session does not change the bits still to come from `acc` and changes those
to come from its byte; in an encode session below `byte_count` it replaces finished output. -/
def Obligations.HostStoreTakesEffectAtOnce : Prop :=
  ∀ (s : State) (w : Word), s.Operational →
    ∃ t, transact (.write 19 w) s = .next t ∧
      (∀ k, k < s.accBits.toNat → t.upcomingBit k = s.upcomingBit k) ∧
      (∀ k, s.accBits.toNat ≤ k → t.upcomingBit k =
        let p := 8 * s.byteCount.toNat + (k - s.accBits.toNat)
        if p / 8 = s.bufAddr.toNat then w.getLsbD (7 - p % 8) else s.upcomingBit k) ∧
      (∀ p, p < 8 * s.byteCount.toNat → t.producedBit p =
        if p / 8 = s.bufAddr.toNat then w.getLsbD (7 - p % 8) else s.producedBit p)

/-! ### The wire (20_memory.md, 40_bitpacker.md) -/

/-- R63, R101: `Bits(v, n)` has `n` bits; bit `k` of them is in chunk `c = k div 8`, which carries the `d` low-order bits
of `byte_c(v)`, `d = min(8, n - 8c)`, highest first; only `v mod 2^n` matters. -/
def Obligations.WireBitsInClosedForm : Prop :=
  ∀ v n : Nat,
    (wireBits v n).length = n ∧
    (∀ k, k < n → (wireBits v n).getD k false = v.testBit (8 * (k / 8) + (min 8 (n - 8 * (k / 8)) - 1 - k % 8))) ∧
    wireBits v n = wireBits (v % 2 ^ n) n

/-- R131: header sizes on the wire, by how far the stream position moves: a group header 32 bits, a patch header 66 or 88,
the sentinel 8, on both sides. -/
def Obligations.HeaderSizesOnTheWire : Prop :=
  ∀ s t : State, s.Operational → t.fault = false →
    (exec .codeGh s = .next t ∨ exec .decodeGh s = .next t → t.streamPos = s.streamPos + 32) ∧
    (exec (.codePh false) s = .next t → t.streamPos = s.streamPos + 66) ∧
    (exec (.codePh true) s = .next t → t.streamPos = s.streamPos + 88) ∧
    (exec (.decodePh false) s = .next t → t.codecState = .patchOpen → t.streamPos = s.streamPos + 66) ∧
    (exec (.decodePh true) s = .next t → t.codecState = .patchOpen → t.streamPos = s.streamPos + 88) ∧
    (exec .endData s = .next t → t.streamPos = s.streamPos + 8) ∧
    (∀ large, exec (.decodePh large) s = .next t → t.codecState = .closed → t.streamPos = s.streamPos + 8)

/-! ### Round trips -/

/-- R110: for any sequence of values packed with any widths 0..32 and then flushed, unpacking the same widths from the
same buffer gives back every value modulo `2^width`. -/
def Obligations.PackUnpackRoundTrip : Prop :=
  ∀ (s : State) (fields : List (Word × BitVec 6)) (cap cap' : BitVec 24), s.Operational →
    (∀ f ∈ fields, f.2.toNat ≤ 32) → cap.toNat ≤ s.maxCap → cap'.toNat ≤ s.maxCap →
    (fields.map (fun f => f.2.toNat)).sum ≤ 8 * cap.toNat → (fields.map (fun f => f.2.toNat)).sum ≤ 8 * cap'.toNat →
    ∃ t, runTxns ([cmd (.initEnc cap)] ++ fields.flatMap (fun f => packv f.1 f.2) ++ [cmd .flush]) s = .next t ∧
      readsOf ([cmd (.initDec cap')] ++ fields.flatMap (fun f => [cmd (.unpack f.2), rd .data])) t =
        some (fields.map (fun f => BitVec.ofNat 32 (f.1.toNat % 2 ^ f.2.toNat)))

/-- R144, with the sentinel collision of R178 excluded as U12 asks, and PH_PATCH_IDS compared in the bits the form sends
(notes/assumptions/11.md):
a header and a patch that were coded without a fault, none of whose coefficients has a bit above position `maxw`, are
decoded from the bits they were sent as to the truncated grid and the same header registers. -/
def Obligations.PatchRoundTrip : Prop :=
  ∀ (large : Bool) (postquant : BitVec 16) (s s1 s2 d : State),
    s.Operational → exec (.codePh large) s = .next s1 → s1.fault = false →
    exec (.codePatch postquant) s1 = .next s2 → s2.fault = false →
    (∀ v ∈ s.grid, v.natAbs < 2 ^ (s.phQuantWbits.toNat % 16 + 8)) → s1.phQuantWbits ≠ 97 →
    d.Operational → d.dir = .dec → (d.codecState = .groupOpen ∨ d.codecState = .patchOpen) →
    d.curPatchSize = s.curPatchSize →
    (∀ k, k < s2.packedPos - s.packedPos → d.upcomingBit k = s2.producedBit (s.packedPos + k)) →
    d.Available (s2.packedPos - s.packedPos) →
    ∃ d1 d2, exec (.decodePh large) d = .next d1 ∧ exec .decodePatch d1 = .next d2 ∧ d2.fault = false ∧
      (∀ i, i < s.patchArea → d2.coeff i = if i < s.patchArea - postquant.toNat then s.coeff i else 0) ∧
      d2.phQuantWbits = s1.phQuantWbits ∧ d2.phDcOffset = s1.phDcOffset ∧ d2.phRange = s1.phRange ∧
      d2.phPatchIds.toNat = s1.phPatchIds.toNat % 2 ^ (if large then 32 else 10) ∧
      d2.curWordBits = s1.curWordBits
end

