-- ==== Sys2Proof/Laws/Memory.lean ====
section
/-! SUPPORT. The laws of the two memories: read after write, every other address left alone, the canonical form kept by
every operation, and equal contents meaning equal lists. -/

namespace Sys2Proof.Machine

variable {w : Nat}

@[simp] theorem Memory.lookup_nil (a : Nat) : Memory.lookup ([] : Memory w) a = none := rfl

@[simp] theorem Memory.lookup_write_same (m : Memory w) (a : Nat) (v : BitVec w) :
    Memory.lookup (m.write a v) a = some v := by
  induction m with
  | nil => simp [Memory.write, Memory.lookup]
  | cons p rest ih =>
    obtain ⟨b, u⟩ := p
    unfold Memory.write
    split_ifs with h1 h2 <;> simp [Memory.lookup, *]

theorem Memory.lookup_write_other (m : Memory w) {a b : Nat} (v : BitVec w) (h : b ≠ a) :
    Memory.lookup (m.write a v) b = Memory.lookup m b := by
  induction m with
  | nil => simp [Memory.write, Memory.lookup, h]
  | cons p rest ih =>
    obtain ⟨c, u⟩ := p
    unfold Memory.write
    split_ifs with h1 h2
    · simp [Memory.lookup, h]
    · subst h2
      simp [Memory.lookup, h]
    · simp [Memory.lookup, ih]

theorem Memory.lookup_write (m : Memory w) (a b : Nat) (v : BitVec w) :
    Memory.lookup (m.write a v) b = if b = a then some v else Memory.lookup m b := by
  split_ifs with h
  · rw [h, Memory.lookup_write_same]
  · exact Memory.lookup_write_other m v h

/-- Filling sets the entries of its range and no other. -/
theorem Memory.lookup_fill (m : Memory w) (start count b : Nat) (v : BitVec w) :
    Memory.lookup (m.fill start count v) b =
      if start ≤ b ∧ b < start + count then some v else Memory.lookup m b := by
  induction count generalizing m start with
  | zero =>
    rw [if_neg (by omega)]
    rfl
  | succ k ih =>
    rw [Memory.fill, ih, Memory.lookup_write]
    split_ifs <;> first | rfl | (exfalso; omega)

/-- The entries of a memory after a write are the one written and entries it had. -/
theorem Memory.mem_write (m : Memory w) {a : Nat} {v : BitVec w} {p : Nat × BitVec w} (h : p ∈ m.write a v) :
    p = (a, v) ∨ p ∈ m := by
  induction m with
  | nil => simpa [Memory.write] using h
  | cons q rest ih =>
    obtain ⟨c, u⟩ := q
    unfold Memory.write at h
    split_ifs at h with h1 h2
    · simpa using h
    · rcases List.mem_cons.mp h with h | h
      · exact .inl h
      · exact .inr (List.mem_cons_of_mem _ h)
    · rcases List.mem_cons.mp h with h | h
      · exact .inr (h ▸ List.mem_cons_self)
      · rcases ih h with h | h
        · exact .inl h
        · exact .inr (List.mem_cons_of_mem _ h)

/-- Every write inside the address space keeps the canonical form. -/
theorem Memory.wf_write {size : Nat} {m : Memory w} {a : Nat} (v : BitVec w) (hm : m.wf size) (ha : a < size) :
    Memory.wf size (m.write a v) := by
  refine ⟨?_, ?_⟩
  · have hp := hm.1
    clear hm
    induction m with
    | nil => simp [Memory.write]
    | cons q rest ih =>
      obtain ⟨c, u⟩ := q
      rw [List.pairwise_cons] at hp
      unfold Memory.write
      split_ifs with h1 h2
      · refine List.pairwise_cons.mpr ⟨?_, List.pairwise_cons.mpr hp⟩
        intro p hp'
        rcases List.mem_cons.mp hp' with rfl | hp'
        · exact h1
        · exact lt_trans h1 (hp.1 p hp')
      · subst h2
        exact List.pairwise_cons.mpr hp
      · refine List.pairwise_cons.mpr ⟨?_, ih hp.2⟩
        intro p hp'
        rcases Memory.mem_write rest hp' with rfl | hp'
        · show c < a
          omega
        · exact hp.1 p hp'
  · intro p hp
    rcases Memory.mem_write m hp with rfl | hp
    · exact ha
    · exact hm.2 p hp

theorem Memory.wf_fill {size : Nat} {m : Memory w} {start count : Nat} (v : BitVec w) (hm : m.wf size)
    (h : start + count ≤ size) : Memory.wf size (m.fill start count v) := by
  induction count generalizing m start with
  | zero => exact hm
  | succ k ih => exact ih (Memory.wf_write v hm (by omega)) (by omega)

@[simp] theorem Memory.wf_nil (size : Nat) : Memory.wf size ([] : Memory w) := by
  simp [Memory.wf]

theorem Memory.lookup_eq_none (m : Memory w) {a : Nat} (h : ∀ p ∈ m, a < p.1) : Memory.lookup m a = none := by
  induction m with
  | nil => rfl
  | cons q rest ih =>
    obtain ⟨c, u⟩ := q
    have hc : a < c := h (c, u) List.mem_cons_self
    rw [Memory.lookup, if_neg (by omega)]
    exact ih fun p hp => h p (List.mem_cons_of_mem _ hp)

/-- Two memories in canonical form that list the same contents at every address are the same list. -/
theorem Memory.eq_of_lookup_eq {size : Nat} {m n : Memory w} (hm : m.wf size) (hn : n.wf size)
    (h : ∀ a, Memory.lookup m a = Memory.lookup n a) : m = n := by
  have hm' := hm.1
  have hn' := hn.1
  clear hm hn
  induction m generalizing n with
  | nil =>
    cases n with
    | nil => rfl
    | cons q rest => simpa [Memory.lookup] using h q.1
  | cons p ms ih =>
    obtain ⟨a, u⟩ := p
    cases n with
    | nil => simpa [Memory.lookup] using h a
    | cons q ns =>
      obtain ⟨b, v⟩ := q
      rw [List.pairwise_cons] at hm' hn'
      have hab : a = b := by
        rcases lt_trichotomy a b with hlt | heq | hgt
        · have h1 := h a
          rw [Memory.lookup, if_pos rfl, Memory.lookup, if_neg (by omega),
            Memory.lookup_eq_none ns fun p hp => lt_trans hlt (hn'.1 p hp)] at h1
          cases h1
        · exact heq
        · have h1 := h b
          rw [Memory.lookup, if_neg (by omega), Memory.lookup_eq_none ms fun p hp => lt_trans hgt (hm'.1 p hp),
            Memory.lookup, if_pos rfl] at h1
          cases h1
      subst hab
      have huv : u = v := by simpa [Memory.lookup] using h a
      subst huv
      congr 1
      refine ih ?_ hm'.2 hn'.2
      intro c
      by_cases hc : c = a
      · subst hc
        rw [Memory.lookup_eq_none ms hm'.1, Memory.lookup_eq_none ns hn'.1]
      · simpa [Memory.lookup, hc] using h c

end Sys2Proof.Machine
end

