-- ==== Sys2Proof/Laws/State.lean ====
section
/-! SUPPORT. One lemma per field per named update of the state, so that no proof unfolds a record update. -/

namespace Sys2Proof.Machine

@[simp] theorem withByteStored_bufAw (s : State) (v : Byte) : (s.withByteStored v).bufAw = s.bufAw := rfl
@[simp] theorem withByteStored_buf (s : State) (v : Byte) : (s.withByteStored v).buf = s.buf.write s.byteCount.toNat v := rfl
@[simp] theorem withByteStored_capacity (s : State) (v : Byte) : (s.withByteStored v).capacity = s.capacity := rfl
@[simp] theorem withByteStored_byteCount (s : State) (v : Byte) : (s.withByteStored v).byteCount = s.byteCount + 1 := rfl
@[simp] theorem withByteStored_acc (s : State) (v : Byte) : (s.withByteStored v).acc = 0 := rfl
@[simp] theorem withByteStored_accBits (s : State) (v : Byte) : (s.withByteStored v).accBits = 0 := rfl
@[simp] theorem withByteStored_totalBits (s : State) (v : Byte) : (s.withByteStored v).totalBits = s.totalBits := rfl
@[simp] theorem withByteStored_dir (s : State) (v : Byte) : (s.withByteStored v).dir = s.dir := rfl
@[simp] theorem withByteStored_codecState (s : State) (v : Byte) : (s.withByteStored v).codecState = s.codecState := rfl
@[simp] theorem withByteStored_curPatchSize (s : State) (v : Byte) : (s.withByteStored v).curPatchSize = s.curPatchSize := rfl
@[simp] theorem withByteStored_curWordBits (s : State) (v : Byte) : (s.withByteStored v).curWordBits = s.curWordBits := rfl
@[simp] theorem withByteStored_data (s : State) (v : Byte) : (s.withByteStored v).data = s.data := rfl
@[simp] theorem withByteStored_ghStride (s : State) (v : Byte) : (s.withByteStored v).ghStride = s.ghStride := rfl
@[simp] theorem withByteStored_ghPatchSize (s : State) (v : Byte) : (s.withByteStored v).ghPatchSize = s.ghPatchSize := rfl
@[simp] theorem withByteStored_ghLayerType (s : State) (v : Byte) : (s.withByteStored v).ghLayerType = s.ghLayerType := rfl
@[simp] theorem withByteStored_phQuantWbits (s : State) (v : Byte) : (s.withByteStored v).phQuantWbits = s.phQuantWbits := rfl
@[simp] theorem withByteStored_phDcOffset (s : State) (v : Byte) : (s.withByteStored v).phDcOffset = s.phDcOffset := rfl
@[simp] theorem withByteStored_phRange (s : State) (v : Byte) : (s.withByteStored v).phRange = s.phRange := rfl
@[simp] theorem withByteStored_phPatchIds (s : State) (v : Byte) : (s.withByteStored v).phPatchIds = s.phPatchIds := rfl
@[simp] theorem withByteStored_patch (s : State) (v : Byte) : (s.withByteStored v).patch = s.patch := rfl
@[simp] theorem withByteStored_bufAddr (s : State) (v : Byte) : (s.withByteStored v).bufAddr = s.bufAddr := rfl
@[simp] theorem withByteStored_patchAddr (s : State) (v : Byte) : (s.withByteStored v).patchAddr = s.patchAddr := rfl
@[simp] theorem withByteStored_fault (s : State) (v : Byte) : (s.withByteStored v).fault = s.fault := rfl
@[simp] theorem withByteStored_cause (s : State) (v : Byte) : (s.withByteStored v).cause = s.cause := rfl
@[simp] theorem withByteStored_faultCmd (s : State) (v : Byte) : (s.withByteStored v).faultCmd = s.faultCmd := rfl
@[simp] theorem withByteStored_pending (s : State) (v : Byte) : (s.withByteStored v).pending = s.pending := rfl
@[simp] theorem withByteStored_response (s : State) (v : Byte) : (s.withByteStored v).response = s.response := rfl
@[simp] theorem withByteStored_epoch (s : State) (v : Byte) : (s.withByteStored v).epoch = s.epoch := rfl
@[simp] theorem withByteStored_draws (s : State) (v : Byte) : (s.withByteStored v).draws = s.draws := rfl

@[simp] theorem withBitStaged_bufAw (s : State) (b : Bool) : (s.withBitStaged b).bufAw = s.bufAw := rfl
@[simp] theorem withBitStaged_buf (s : State) (b : Bool) : (s.withBitStaged b).buf = s.buf := rfl
@[simp] theorem withBitStaged_capacity (s : State) (b : Bool) : (s.withBitStaged b).capacity = s.capacity := rfl
@[simp] theorem withBitStaged_byteCount (s : State) (b : Bool) : (s.withBitStaged b).byteCount = s.byteCount := rfl
@[simp] theorem withBitStaged_acc (s : State) (b : Bool) : (s.withBitStaged b).acc = (s.acc <<< 1) ||| (BitVec.ofBool b).setWidth 8 := rfl
@[simp] theorem withBitStaged_accBits (s : State) (b : Bool) : (s.withBitStaged b).accBits = s.accBits + 1 := rfl
@[simp] theorem withBitStaged_totalBits (s : State) (b : Bool) : (s.withBitStaged b).totalBits = s.totalBits + 1 := rfl
@[simp] theorem withBitStaged_dir (s : State) (b : Bool) : (s.withBitStaged b).dir = s.dir := rfl
@[simp] theorem withBitStaged_codecState (s : State) (b : Bool) : (s.withBitStaged b).codecState = s.codecState := rfl
@[simp] theorem withBitStaged_curPatchSize (s : State) (b : Bool) : (s.withBitStaged b).curPatchSize = s.curPatchSize := rfl
@[simp] theorem withBitStaged_curWordBits (s : State) (b : Bool) : (s.withBitStaged b).curWordBits = s.curWordBits := rfl
@[simp] theorem withBitStaged_data (s : State) (b : Bool) : (s.withBitStaged b).data = s.data := rfl
@[simp] theorem withBitStaged_ghStride (s : State) (b : Bool) : (s.withBitStaged b).ghStride = s.ghStride := rfl
@[simp] theorem withBitStaged_ghPatchSize (s : State) (b : Bool) : (s.withBitStaged b).ghPatchSize = s.ghPatchSize := rfl
@[simp] theorem withBitStaged_ghLayerType (s : State) (b : Bool) : (s.withBitStaged b).ghLayerType = s.ghLayerType := rfl
@[simp] theorem withBitStaged_phQuantWbits (s : State) (b : Bool) : (s.withBitStaged b).phQuantWbits = s.phQuantWbits := rfl
@[simp] theorem withBitStaged_phDcOffset (s : State) (b : Bool) : (s.withBitStaged b).phDcOffset = s.phDcOffset := rfl
@[simp] theorem withBitStaged_phRange (s : State) (b : Bool) : (s.withBitStaged b).phRange = s.phRange := rfl
@[simp] theorem withBitStaged_phPatchIds (s : State) (b : Bool) : (s.withBitStaged b).phPatchIds = s.phPatchIds := rfl
@[simp] theorem withBitStaged_patch (s : State) (b : Bool) : (s.withBitStaged b).patch = s.patch := rfl
@[simp] theorem withBitStaged_bufAddr (s : State) (b : Bool) : (s.withBitStaged b).bufAddr = s.bufAddr := rfl
@[simp] theorem withBitStaged_patchAddr (s : State) (b : Bool) : (s.withBitStaged b).patchAddr = s.patchAddr := rfl
@[simp] theorem withBitStaged_fault (s : State) (b : Bool) : (s.withBitStaged b).fault = s.fault := rfl
@[simp] theorem withBitStaged_cause (s : State) (b : Bool) : (s.withBitStaged b).cause = s.cause := rfl
@[simp] theorem withBitStaged_faultCmd (s : State) (b : Bool) : (s.withBitStaged b).faultCmd = s.faultCmd := rfl
@[simp] theorem withBitStaged_pending (s : State) (b : Bool) : (s.withBitStaged b).pending = s.pending := rfl
@[simp] theorem withBitStaged_response (s : State) (b : Bool) : (s.withBitStaged b).response = s.response := rfl
@[simp] theorem withBitStaged_epoch (s : State) (b : Bool) : (s.withBitStaged b).epoch = s.epoch := rfl
@[simp] theorem withBitStaged_draws (s : State) (b : Bool) : (s.withBitStaged b).draws = s.draws := rfl

@[simp] theorem withByteLoaded_bufAw (s : State) : (s.withByteLoaded).bufAw = s.bufAw := rfl
@[simp] theorem withByteLoaded_buf (s : State) : (s.withByteLoaded).buf = s.buf := rfl
@[simp] theorem withByteLoaded_capacity (s : State) : (s.withByteLoaded).capacity = s.capacity := rfl
@[simp] theorem withByteLoaded_byteCount (s : State) : (s.withByteLoaded).byteCount = s.byteCount + 1 := rfl
@[simp] theorem withByteLoaded_acc (s : State) : (s.withByteLoaded).acc = s.bufByte s.byteCount.toNat := rfl
@[simp] theorem withByteLoaded_accBits (s : State) : (s.withByteLoaded).accBits = 8 := rfl
@[simp] theorem withByteLoaded_totalBits (s : State) : (s.withByteLoaded).totalBits = s.totalBits := rfl
@[simp] theorem withByteLoaded_dir (s : State) : (s.withByteLoaded).dir = s.dir := rfl
@[simp] theorem withByteLoaded_codecState (s : State) : (s.withByteLoaded).codecState = s.codecState := rfl
@[simp] theorem withByteLoaded_curPatchSize (s : State) : (s.withByteLoaded).curPatchSize = s.curPatchSize := rfl
@[simp] theorem withByteLoaded_curWordBits (s : State) : (s.withByteLoaded).curWordBits = s.curWordBits := rfl
@[simp] theorem withByteLoaded_data (s : State) : (s.withByteLoaded).data = s.data := rfl
@[simp] theorem withByteLoaded_ghStride (s : State) : (s.withByteLoaded).ghStride = s.ghStride := rfl
@[simp] theorem withByteLoaded_ghPatchSize (s : State) : (s.withByteLoaded).ghPatchSize = s.ghPatchSize := rfl
@[simp] theorem withByteLoaded_ghLayerType (s : State) : (s.withByteLoaded).ghLayerType = s.ghLayerType := rfl
@[simp] theorem withByteLoaded_phQuantWbits (s : State) : (s.withByteLoaded).phQuantWbits = s.phQuantWbits := rfl
@[simp] theorem withByteLoaded_phDcOffset (s : State) : (s.withByteLoaded).phDcOffset = s.phDcOffset := rfl
@[simp] theorem withByteLoaded_phRange (s : State) : (s.withByteLoaded).phRange = s.phRange := rfl
@[simp] theorem withByteLoaded_phPatchIds (s : State) : (s.withByteLoaded).phPatchIds = s.phPatchIds := rfl
@[simp] theorem withByteLoaded_patch (s : State) : (s.withByteLoaded).patch = s.patch := rfl
@[simp] theorem withByteLoaded_bufAddr (s : State) : (s.withByteLoaded).bufAddr = s.bufAddr := rfl
@[simp] theorem withByteLoaded_patchAddr (s : State) : (s.withByteLoaded).patchAddr = s.patchAddr := rfl
@[simp] theorem withByteLoaded_fault (s : State) : (s.withByteLoaded).fault = s.fault := rfl
@[simp] theorem withByteLoaded_cause (s : State) : (s.withByteLoaded).cause = s.cause := rfl
@[simp] theorem withByteLoaded_faultCmd (s : State) : (s.withByteLoaded).faultCmd = s.faultCmd := rfl
@[simp] theorem withByteLoaded_pending (s : State) : (s.withByteLoaded).pending = s.pending := rfl
@[simp] theorem withByteLoaded_response (s : State) : (s.withByteLoaded).response = s.response := rfl
@[simp] theorem withByteLoaded_epoch (s : State) : (s.withByteLoaded).epoch = s.epoch := rfl
@[simp] theorem withByteLoaded_draws (s : State) : (s.withByteLoaded).draws = s.draws := rfl

@[simp] theorem withBitTaken_bufAw (s : State) : (s.withBitTaken).bufAw = s.bufAw := rfl
@[simp] theorem withBitTaken_buf (s : State) : (s.withBitTaken).buf = s.buf := rfl
@[simp] theorem withBitTaken_capacity (s : State) : (s.withBitTaken).capacity = s.capacity := rfl
@[simp] theorem withBitTaken_byteCount (s : State) : (s.withBitTaken).byteCount = s.byteCount := rfl
@[simp] theorem withBitTaken_acc (s : State) : (s.withBitTaken).acc = s.acc <<< 1 := rfl
@[simp] theorem withBitTaken_accBits (s : State) : (s.withBitTaken).accBits = s.accBits - 1 := rfl
@[simp] theorem withBitTaken_totalBits (s : State) : (s.withBitTaken).totalBits = s.totalBits + 1 := rfl
@[simp] theorem withBitTaken_dir (s : State) : (s.withBitTaken).dir = s.dir := rfl
@[simp] theorem withBitTaken_codecState (s : State) : (s.withBitTaken).codecState = s.codecState := rfl
@[simp] theorem withBitTaken_curPatchSize (s : State) : (s.withBitTaken).curPatchSize = s.curPatchSize := rfl
@[simp] theorem withBitTaken_curWordBits (s : State) : (s.withBitTaken).curWordBits = s.curWordBits := rfl
@[simp] theorem withBitTaken_data (s : State) : (s.withBitTaken).data = s.data := rfl
@[simp] theorem withBitTaken_ghStride (s : State) : (s.withBitTaken).ghStride = s.ghStride := rfl
@[simp] theorem withBitTaken_ghPatchSize (s : State) : (s.withBitTaken).ghPatchSize = s.ghPatchSize := rfl
@[simp] theorem withBitTaken_ghLayerType (s : State) : (s.withBitTaken).ghLayerType = s.ghLayerType := rfl
@[simp] theorem withBitTaken_phQuantWbits (s : State) : (s.withBitTaken).phQuantWbits = s.phQuantWbits := rfl
@[simp] theorem withBitTaken_phDcOffset (s : State) : (s.withBitTaken).phDcOffset = s.phDcOffset := rfl
@[simp] theorem withBitTaken_phRange (s : State) : (s.withBitTaken).phRange = s.phRange := rfl
@[simp] theorem withBitTaken_phPatchIds (s : State) : (s.withBitTaken).phPatchIds = s.phPatchIds := rfl
@[simp] theorem withBitTaken_patch (s : State) : (s.withBitTaken).patch = s.patch := rfl
@[simp] theorem withBitTaken_bufAddr (s : State) : (s.withBitTaken).bufAddr = s.bufAddr := rfl
@[simp] theorem withBitTaken_patchAddr (s : State) : (s.withBitTaken).patchAddr = s.patchAddr := rfl
@[simp] theorem withBitTaken_fault (s : State) : (s.withBitTaken).fault = s.fault := rfl
@[simp] theorem withBitTaken_cause (s : State) : (s.withBitTaken).cause = s.cause := rfl
@[simp] theorem withBitTaken_faultCmd (s : State) : (s.withBitTaken).faultCmd = s.faultCmd := rfl
@[simp] theorem withBitTaken_pending (s : State) : (s.withBitTaken).pending = s.pending := rfl
@[simp] theorem withBitTaken_response (s : State) : (s.withBitTaken).response = s.response := rfl
@[simp] theorem withBitTaken_epoch (s : State) : (s.withBitTaken).epoch = s.epoch := rfl
@[simp] theorem withBitTaken_draws (s : State) : (s.withBitTaken).draws = s.draws := rfl

@[simp] theorem resetPrim_bufAw (s : State) : (resetPrim s).bufAw = s.bufAw := rfl
@[simp] theorem resetPrim_buf (s : State) : (resetPrim s).buf = s.buf := rfl
@[simp] theorem resetPrim_capacity (s : State) : (resetPrim s).capacity = s.capacity := rfl
@[simp] theorem resetPrim_byteCount (s : State) : (resetPrim s).byteCount = 0 := rfl
@[simp] theorem resetPrim_acc (s : State) : (resetPrim s).acc = 0 := rfl
@[simp] theorem resetPrim_accBits (s : State) : (resetPrim s).accBits = 0 := rfl
@[simp] theorem resetPrim_totalBits (s : State) : (resetPrim s).totalBits = 0 := rfl
@[simp] theorem resetPrim_dir (s : State) : (resetPrim s).dir = s.dir := rfl
@[simp] theorem resetPrim_codecState (s : State) : (resetPrim s).codecState = s.codecState := rfl
@[simp] theorem resetPrim_curPatchSize (s : State) : (resetPrim s).curPatchSize = s.curPatchSize := rfl
@[simp] theorem resetPrim_curWordBits (s : State) : (resetPrim s).curWordBits = s.curWordBits := rfl
@[simp] theorem resetPrim_data (s : State) : (resetPrim s).data = s.data := rfl
@[simp] theorem resetPrim_ghStride (s : State) : (resetPrim s).ghStride = s.ghStride := rfl
@[simp] theorem resetPrim_ghPatchSize (s : State) : (resetPrim s).ghPatchSize = s.ghPatchSize := rfl
@[simp] theorem resetPrim_ghLayerType (s : State) : (resetPrim s).ghLayerType = s.ghLayerType := rfl
@[simp] theorem resetPrim_phQuantWbits (s : State) : (resetPrim s).phQuantWbits = s.phQuantWbits := rfl
@[simp] theorem resetPrim_phDcOffset (s : State) : (resetPrim s).phDcOffset = s.phDcOffset := rfl
@[simp] theorem resetPrim_phRange (s : State) : (resetPrim s).phRange = s.phRange := rfl
@[simp] theorem resetPrim_phPatchIds (s : State) : (resetPrim s).phPatchIds = s.phPatchIds := rfl
@[simp] theorem resetPrim_patch (s : State) : (resetPrim s).patch = s.patch := rfl
@[simp] theorem resetPrim_bufAddr (s : State) : (resetPrim s).bufAddr = s.bufAddr := rfl
@[simp] theorem resetPrim_patchAddr (s : State) : (resetPrim s).patchAddr = s.patchAddr := rfl
@[simp] theorem resetPrim_fault (s : State) : (resetPrim s).fault = s.fault := rfl
@[simp] theorem resetPrim_cause (s : State) : (resetPrim s).cause = s.cause := rfl
@[simp] theorem resetPrim_faultCmd (s : State) : (resetPrim s).faultCmd = s.faultCmd := rfl
@[simp] theorem resetPrim_pending (s : State) : (resetPrim s).pending = s.pending := rfl
@[simp] theorem resetPrim_response (s : State) : (resetPrim s).response = s.response := rfl
@[simp] theorem resetPrim_epoch (s : State) : (resetPrim s).epoch = s.epoch := rfl
@[simp] theorem resetPrim_draws (s : State) : (resetPrim s).draws = s.draws := rfl

@[simp] theorem setCoeff_bufAw (s : State) (i : Nat) (v : Int) : (s.setCoeff i v).bufAw = s.bufAw := rfl
@[simp] theorem setCoeff_buf (s : State) (i : Nat) (v : Int) : (s.setCoeff i v).buf = s.buf := rfl
@[simp] theorem setCoeff_capacity (s : State) (i : Nat) (v : Int) : (s.setCoeff i v).capacity = s.capacity := rfl
@[simp] theorem setCoeff_byteCount (s : State) (i : Nat) (v : Int) : (s.setCoeff i v).byteCount = s.byteCount := rfl
@[simp] theorem setCoeff_acc (s : State) (i : Nat) (v : Int) : (s.setCoeff i v).acc = s.acc := rfl
@[simp] theorem setCoeff_accBits (s : State) (i : Nat) (v : Int) : (s.setCoeff i v).accBits = s.accBits := rfl
@[simp] theorem setCoeff_totalBits (s : State) (i : Nat) (v : Int) : (s.setCoeff i v).totalBits = s.totalBits := rfl
@[simp] theorem setCoeff_dir (s : State) (i : Nat) (v : Int) : (s.setCoeff i v).dir = s.dir := rfl
@[simp] theorem setCoeff_codecState (s : State) (i : Nat) (v : Int) : (s.setCoeff i v).codecState = s.codecState := rfl
@[simp] theorem setCoeff_curPatchSize (s : State) (i : Nat) (v : Int) : (s.setCoeff i v).curPatchSize = s.curPatchSize := rfl
@[simp] theorem setCoeff_curWordBits (s : State) (i : Nat) (v : Int) : (s.setCoeff i v).curWordBits = s.curWordBits := rfl
@[simp] theorem setCoeff_data (s : State) (i : Nat) (v : Int) : (s.setCoeff i v).data = s.data := rfl
@[simp] theorem setCoeff_ghStride (s : State) (i : Nat) (v : Int) : (s.setCoeff i v).ghStride = s.ghStride := rfl
@[simp] theorem setCoeff_ghPatchSize (s : State) (i : Nat) (v : Int) : (s.setCoeff i v).ghPatchSize = s.ghPatchSize := rfl
@[simp] theorem setCoeff_ghLayerType (s : State) (i : Nat) (v : Int) : (s.setCoeff i v).ghLayerType = s.ghLayerType := rfl
@[simp] theorem setCoeff_phQuantWbits (s : State) (i : Nat) (v : Int) : (s.setCoeff i v).phQuantWbits = s.phQuantWbits := rfl
@[simp] theorem setCoeff_phDcOffset (s : State) (i : Nat) (v : Int) : (s.setCoeff i v).phDcOffset = s.phDcOffset := rfl
@[simp] theorem setCoeff_phRange (s : State) (i : Nat) (v : Int) : (s.setCoeff i v).phRange = s.phRange := rfl
@[simp] theorem setCoeff_phPatchIds (s : State) (i : Nat) (v : Int) : (s.setCoeff i v).phPatchIds = s.phPatchIds := rfl
@[simp] theorem setCoeff_patch (s : State) (i : Nat) (v : Int) : (s.setCoeff i v).patch = s.patch.write i (BitVec.ofInt 32 v) := rfl
@[simp] theorem setCoeff_bufAddr (s : State) (i : Nat) (v : Int) : (s.setCoeff i v).bufAddr = s.bufAddr := rfl
@[simp] theorem setCoeff_patchAddr (s : State) (i : Nat) (v : Int) : (s.setCoeff i v).patchAddr = s.patchAddr := rfl
@[simp] theorem setCoeff_fault (s : State) (i : Nat) (v : Int) : (s.setCoeff i v).fault = s.fault := rfl
@[simp] theorem setCoeff_cause (s : State) (i : Nat) (v : Int) : (s.setCoeff i v).cause = s.cause := rfl
@[simp] theorem setCoeff_faultCmd (s : State) (i : Nat) (v : Int) : (s.setCoeff i v).faultCmd = s.faultCmd := rfl
@[simp] theorem setCoeff_pending (s : State) (i : Nat) (v : Int) : (s.setCoeff i v).pending = s.pending := rfl
@[simp] theorem setCoeff_response (s : State) (i : Nat) (v : Int) : (s.setCoeff i v).response = s.response := rfl
@[simp] theorem setCoeff_epoch (s : State) (i : Nat) (v : Int) : (s.setCoeff i v).epoch = s.epoch := rfl
@[simp] theorem setCoeff_draws (s : State) (i : Nat) (v : Int) : (s.setCoeff i v).draws = s.draws := rfl

@[simp] theorem truncateTail_bufAw (s : State) (q : Nat) : (truncateTail q s).bufAw = s.bufAw := rfl
@[simp] theorem truncateTail_buf (s : State) (q : Nat) : (truncateTail q s).buf = s.buf := rfl
@[simp] theorem truncateTail_capacity (s : State) (q : Nat) : (truncateTail q s).capacity = s.capacity := rfl
@[simp] theorem truncateTail_byteCount (s : State) (q : Nat) : (truncateTail q s).byteCount = s.byteCount := rfl
@[simp] theorem truncateTail_acc (s : State) (q : Nat) : (truncateTail q s).acc = s.acc := rfl
@[simp] theorem truncateTail_accBits (s : State) (q : Nat) : (truncateTail q s).accBits = s.accBits := rfl
@[simp] theorem truncateTail_totalBits (s : State) (q : Nat) : (truncateTail q s).totalBits = s.totalBits := rfl
@[simp] theorem truncateTail_dir (s : State) (q : Nat) : (truncateTail q s).dir = s.dir := rfl
@[simp] theorem truncateTail_codecState (s : State) (q : Nat) : (truncateTail q s).codecState = s.codecState := rfl
@[simp] theorem truncateTail_curPatchSize (s : State) (q : Nat) : (truncateTail q s).curPatchSize = s.curPatchSize := rfl
@[simp] theorem truncateTail_curWordBits (s : State) (q : Nat) : (truncateTail q s).curWordBits = s.curWordBits := rfl
@[simp] theorem truncateTail_data (s : State) (q : Nat) : (truncateTail q s).data = s.data := rfl
@[simp] theorem truncateTail_ghStride (s : State) (q : Nat) : (truncateTail q s).ghStride = s.ghStride := rfl
@[simp] theorem truncateTail_ghPatchSize (s : State) (q : Nat) : (truncateTail q s).ghPatchSize = s.ghPatchSize := rfl
@[simp] theorem truncateTail_ghLayerType (s : State) (q : Nat) : (truncateTail q s).ghLayerType = s.ghLayerType := rfl
@[simp] theorem truncateTail_phQuantWbits (s : State) (q : Nat) : (truncateTail q s).phQuantWbits = s.phQuantWbits := rfl
@[simp] theorem truncateTail_phDcOffset (s : State) (q : Nat) : (truncateTail q s).phDcOffset = s.phDcOffset := rfl
@[simp] theorem truncateTail_phRange (s : State) (q : Nat) : (truncateTail q s).phRange = s.phRange := rfl
@[simp] theorem truncateTail_phPatchIds (s : State) (q : Nat) : (truncateTail q s).phPatchIds = s.phPatchIds := rfl
@[simp] theorem truncateTail_patch (s : State) (q : Nat) : (truncateTail q s).patch = s.patch.fill (s.patchArea - q) q 0 := rfl
@[simp] theorem truncateTail_bufAddr (s : State) (q : Nat) : (truncateTail q s).bufAddr = s.bufAddr := rfl
@[simp] theorem truncateTail_patchAddr (s : State) (q : Nat) : (truncateTail q s).patchAddr = s.patchAddr := rfl
@[simp] theorem truncateTail_fault (s : State) (q : Nat) : (truncateTail q s).fault = s.fault := rfl
@[simp] theorem truncateTail_cause (s : State) (q : Nat) : (truncateTail q s).cause = s.cause := rfl
@[simp] theorem truncateTail_faultCmd (s : State) (q : Nat) : (truncateTail q s).faultCmd = s.faultCmd := rfl
@[simp] theorem truncateTail_pending (s : State) (q : Nat) : (truncateTail q s).pending = s.pending := rfl
@[simp] theorem truncateTail_response (s : State) (q : Nat) : (truncateTail q s).response = s.response := rfl
@[simp] theorem truncateTail_epoch (s : State) (q : Nat) : (truncateTail q s).epoch = s.epoch := rfl
@[simp] theorem truncateTail_draws (s : State) (q : Nat) : (truncateTail q s).draws = s.draws := rfl

@[simp] theorem offerCommand_bufAw (s : State) (w : Word) : (offerCommand w s).bufAw = s.bufAw := rfl
@[simp] theorem offerCommand_buf (s : State) (w : Word) : (offerCommand w s).buf = s.buf := rfl
@[simp] theorem offerCommand_capacity (s : State) (w : Word) : (offerCommand w s).capacity = s.capacity := rfl
@[simp] theorem offerCommand_byteCount (s : State) (w : Word) : (offerCommand w s).byteCount = s.byteCount := rfl
@[simp] theorem offerCommand_acc (s : State) (w : Word) : (offerCommand w s).acc = s.acc := rfl
@[simp] theorem offerCommand_accBits (s : State) (w : Word) : (offerCommand w s).accBits = s.accBits := rfl
@[simp] theorem offerCommand_totalBits (s : State) (w : Word) : (offerCommand w s).totalBits = s.totalBits := rfl
@[simp] theorem offerCommand_dir (s : State) (w : Word) : (offerCommand w s).dir = s.dir := rfl
@[simp] theorem offerCommand_codecState (s : State) (w : Word) : (offerCommand w s).codecState = s.codecState := rfl
@[simp] theorem offerCommand_curPatchSize (s : State) (w : Word) : (offerCommand w s).curPatchSize = s.curPatchSize := rfl
@[simp] theorem offerCommand_curWordBits (s : State) (w : Word) : (offerCommand w s).curWordBits = s.curWordBits := rfl
@[simp] theorem offerCommand_data (s : State) (w : Word) : (offerCommand w s).data = s.data := rfl
@[simp] theorem offerCommand_ghStride (s : State) (w : Word) : (offerCommand w s).ghStride = s.ghStride := rfl
@[simp] theorem offerCommand_ghPatchSize (s : State) (w : Word) : (offerCommand w s).ghPatchSize = s.ghPatchSize := rfl
@[simp] theorem offerCommand_ghLayerType (s : State) (w : Word) : (offerCommand w s).ghLayerType = s.ghLayerType := rfl
@[simp] theorem offerCommand_phQuantWbits (s : State) (w : Word) : (offerCommand w s).phQuantWbits = s.phQuantWbits := rfl
@[simp] theorem offerCommand_phDcOffset (s : State) (w : Word) : (offerCommand w s).phDcOffset = s.phDcOffset := rfl
@[simp] theorem offerCommand_phRange (s : State) (w : Word) : (offerCommand w s).phRange = s.phRange := rfl
@[simp] theorem offerCommand_phPatchIds (s : State) (w : Word) : (offerCommand w s).phPatchIds = s.phPatchIds := rfl
@[simp] theorem offerCommand_patch (s : State) (w : Word) : (offerCommand w s).patch = s.patch := rfl
@[simp] theorem offerCommand_bufAddr (s : State) (w : Word) : (offerCommand w s).bufAddr = s.bufAddr := rfl
@[simp] theorem offerCommand_patchAddr (s : State) (w : Word) : (offerCommand w s).patchAddr = s.patchAddr := rfl
@[simp] theorem offerCommand_fault (s : State) (w : Word) : (offerCommand w s).fault = s.fault := rfl
@[simp] theorem offerCommand_cause (s : State) (w : Word) : (offerCommand w s).cause = s.cause := rfl
@[simp] theorem offerCommand_faultCmd (s : State) (w : Word) : (offerCommand w s).faultCmd = s.faultCmd := rfl
@[simp] theorem offerCommand_pending (s : State) (w : Word) : (offerCommand w s).pending = .write 0 w :: s.pending := rfl
@[simp] theorem offerCommand_response (s : State) (w : Word) : (offerCommand w s).response = s.response := rfl
@[simp] theorem offerCommand_epoch (s : State) (w : Word) : (offerCommand w s).epoch = s.epoch := rfl
@[simp] theorem offerCommand_draws (s : State) (w : Word) : (offerCommand w s).draws = s.draws := rfl

@[simp] theorem raiseFault_bufAw (c : Cause) (w : Word) (s : State) : (raiseFault c w s).bufAw = s.bufAw := rfl
@[simp] theorem raiseFault_buf (c : Cause) (w : Word) (s : State) : (raiseFault c w s).buf = [] := rfl
@[simp] theorem raiseFault_capacity (c : Cause) (w : Word) (s : State) : (raiseFault c w s).capacity = Config.faultedCapacity (s.epoch + 1) := rfl
@[simp] theorem raiseFault_byteCount (c : Cause) (w : Word) (s : State) : (raiseFault c w s).byteCount = Config.faultedByteCount (s.epoch + 1) := rfl
@[simp] theorem raiseFault_acc (c : Cause) (w : Word) (s : State) : (raiseFault c w s).acc = Config.faultedAcc (s.epoch + 1) := rfl
@[simp] theorem raiseFault_accBits (c : Cause) (w : Word) (s : State) : (raiseFault c w s).accBits = Config.faultedAccBits (s.epoch + 1) := rfl
@[simp] theorem raiseFault_totalBits (c : Cause) (w : Word) (s : State) : (raiseFault c w s).totalBits = Config.faultedTotalBits (s.epoch + 1) := rfl
@[simp] theorem raiseFault_dir (c : Cause) (w : Word) (s : State) : (raiseFault c w s).dir = Config.faultedDir (s.epoch + 1) := rfl
@[simp] theorem raiseFault_codecState (c : Cause) (w : Word) (s : State) : (raiseFault c w s).codecState = Config.faultedCodecState (s.epoch + 1) := rfl
@[simp] theorem raiseFault_curPatchSize (c : Cause) (w : Word) (s : State) : (raiseFault c w s).curPatchSize = Config.faultedCurPatchSize (s.epoch + 1) := rfl
@[simp] theorem raiseFault_curWordBits (c : Cause) (w : Word) (s : State) : (raiseFault c w s).curWordBits = Config.faultedCurWordBits (s.epoch + 1) := rfl
@[simp] theorem raiseFault_data (c : Cause) (w : Word) (s : State) : (raiseFault c w s).data = Config.faultedData (s.epoch + 1) := rfl
@[simp] theorem raiseFault_ghStride (c : Cause) (w : Word) (s : State) : (raiseFault c w s).ghStride = Config.faultedGhStride (s.epoch + 1) := rfl
@[simp] theorem raiseFault_ghPatchSize (c : Cause) (w : Word) (s : State) : (raiseFault c w s).ghPatchSize = Config.faultedGhPatchSize (s.epoch + 1) := rfl
@[simp] theorem raiseFault_ghLayerType (c : Cause) (w : Word) (s : State) : (raiseFault c w s).ghLayerType = Config.faultedGhLayerType (s.epoch + 1) := rfl
@[simp] theorem raiseFault_phQuantWbits (c : Cause) (w : Word) (s : State) : (raiseFault c w s).phQuantWbits = Config.faultedPhQuantWbits (s.epoch + 1) := rfl
@[simp] theorem raiseFault_phDcOffset (c : Cause) (w : Word) (s : State) : (raiseFault c w s).phDcOffset = Config.faultedPhDcOffset (s.epoch + 1) := rfl
@[simp] theorem raiseFault_phRange (c : Cause) (w : Word) (s : State) : (raiseFault c w s).phRange = Config.faultedPhRange (s.epoch + 1) := rfl
@[simp] theorem raiseFault_phPatchIds (c : Cause) (w : Word) (s : State) : (raiseFault c w s).phPatchIds = Config.faultedPhPatchIds (s.epoch + 1) := rfl
@[simp] theorem raiseFault_patch (c : Cause) (w : Word) (s : State) : (raiseFault c w s).patch = [] := rfl
@[simp] theorem raiseFault_bufAddr (c : Cause) (w : Word) (s : State) : (raiseFault c w s).bufAddr = Config.faultedBufAddr (s.epoch + 1) := rfl
@[simp] theorem raiseFault_patchAddr (c : Cause) (w : Word) (s : State) : (raiseFault c w s).patchAddr = Config.faultedPatchAddr (s.epoch + 1) := rfl
@[simp] theorem raiseFault_fault (c : Cause) (w : Word) (s : State) : (raiseFault c w s).fault = true := rfl
@[simp] theorem raiseFault_cause (c : Cause) (w : Word) (s : State) : (raiseFault c w s).cause = causeCode c := rfl
@[simp] theorem raiseFault_faultCmd (c : Cause) (w : Word) (s : State) : (raiseFault c w s).faultCmd = w := rfl
@[simp] theorem raiseFault_pending (c : Cause) (w : Word) (s : State) : (raiseFault c w s).pending = s.pending := rfl
@[simp] theorem raiseFault_response (c : Cause) (w : Word) (s : State) : (raiseFault c w s).response = s.response := rfl
@[simp] theorem raiseFault_epoch (c : Cause) (w : Word) (s : State) : (raiseFault c w s).epoch = s.epoch + 1 := rfl
@[simp] theorem raiseFault_draws (c : Cause) (w : Word) (s : State) : (raiseFault c w s).draws = s.draws := rfl

@[simp] theorem hardwareReset_bufAw (s : State) : (hardwareReset s).bufAw = s.bufAw := rfl
@[simp] theorem hardwareReset_buf (s : State) : (hardwareReset s).buf = [] := rfl
@[simp] theorem hardwareReset_capacity (s : State) : (hardwareReset s).capacity = 0 := rfl
@[simp] theorem hardwareReset_byteCount (s : State) : (hardwareReset s).byteCount = 0 := rfl
@[simp] theorem hardwareReset_acc (s : State) : (hardwareReset s).acc = 0 := rfl
@[simp] theorem hardwareReset_accBits (s : State) : (hardwareReset s).accBits = 0 := rfl
@[simp] theorem hardwareReset_totalBits (s : State) : (hardwareReset s).totalBits = 0 := rfl
@[simp] theorem hardwareReset_dir (s : State) : (hardwareReset s).dir = .none := rfl
@[simp] theorem hardwareReset_codecState (s : State) : (hardwareReset s).codecState = .idle := rfl
@[simp] theorem hardwareReset_curPatchSize (s : State) : (hardwareReset s).curPatchSize = 0 := rfl
@[simp] theorem hardwareReset_curWordBits (s : State) : (hardwareReset s).curWordBits = 0 := rfl
@[simp] theorem hardwareReset_data (s : State) : (hardwareReset s).data = 0 := rfl
@[simp] theorem hardwareReset_ghStride (s : State) : (hardwareReset s).ghStride = 0 := rfl
@[simp] theorem hardwareReset_ghPatchSize (s : State) : (hardwareReset s).ghPatchSize = 0 := rfl
@[simp] theorem hardwareReset_ghLayerType (s : State) : (hardwareReset s).ghLayerType = 0 := rfl
@[simp] theorem hardwareReset_phQuantWbits (s : State) : (hardwareReset s).phQuantWbits = 0 := rfl
@[simp] theorem hardwareReset_phDcOffset (s : State) : (hardwareReset s).phDcOffset = 0 := rfl
@[simp] theorem hardwareReset_phRange (s : State) : (hardwareReset s).phRange = 0 := rfl
@[simp] theorem hardwareReset_phPatchIds (s : State) : (hardwareReset s).phPatchIds = 0 := rfl
@[simp] theorem hardwareReset_patch (s : State) : (hardwareReset s).patch = [] := rfl
@[simp] theorem hardwareReset_bufAddr (s : State) : (hardwareReset s).bufAddr = 0 := rfl
@[simp] theorem hardwareReset_patchAddr (s : State) : (hardwareReset s).patchAddr = 0 := rfl
@[simp] theorem hardwareReset_fault (s : State) : (hardwareReset s).fault = false := rfl
@[simp] theorem hardwareReset_cause (s : State) : (hardwareReset s).cause = 0 := rfl
@[simp] theorem hardwareReset_faultCmd (s : State) : (hardwareReset s).faultCmd = 0 := rfl
@[simp] theorem hardwareReset_pending (s : State) : (hardwareReset s).pending = s.pending := rfl
@[simp] theorem hardwareReset_response (s : State) : (hardwareReset s).response = none := rfl
@[simp] theorem hardwareReset_epoch (s : State) : (hardwareReset s).epoch = s.epoch + 1 := rfl
@[simp] theorem hardwareReset_draws (s : State) : (hardwareReset s).draws = s.draws := rfl

end Sys2Proof.Machine
end

