-- ==== Sys2Proof/Laws/Pack.lean ====
section
/-! SUPPORT. What packing can do: `storeByte`, `packBit`, `packBits` and `flushPrim` each have one lemma that says all of
it, in terms of the bits produced so far (spec/40_bitpacker.md R100, R104, R113). -/

namespace Sys2Proof.Machine

/-- The state of the packer that every encode session rests in: R45 (a), (b), (c). -/
abbrev State.PackReady (s : State) : Prop :=
  s.accBits.toNat ≤ 7 ∧ s.byteCount ≤ s.capacity ∧ s.capacity.toNat ≤ s.maxCap ∧ s.acc.toNat < 2 ^ s.accBits.toNat

theorem State.Resting.packReady {s : State} (h : s.Resting) (hd : s.dir = .enc) : s.PackReady := by
  obtain ⟨h1, h2, h3, h4, -⟩ := h
  exact ⟨h1, h2, h3, by simpa [accCanonical, hd] using h4⟩

/-! ### The accumulator -/

/-- The accumulator after one bit was shifted in. -/
theorem shiftIn_getLsbD (acc : Byte) (b : Bool) {i : Nat} (hi : i < 8) :
    ((acc <<< 1) ||| (BitVec.ofBool b).setWidth 8).getLsbD i = if i = 0 then b else acc.getLsbD (i - 1) := by
  rcases Nat.eq_zero_or_pos i with rfl | h
  · simp
  · rw [BitVec.getLsbD_or, BitVec.getLsbD_shiftLeft, BitVec.getLsbD_setWidth, BitVec.getLsbD_ofBool]
    simp [hi, show ¬ i < 1 by omega, show i ≠ 0 by omega]

theorem shiftIn_toNat (acc : Byte) (b : Bool) (h : acc.toNat < 128) :
    ((acc <<< 1) ||| (BitVec.ofBool b).setWidth 8).toNat = 2 * acc.toNat + b.toNat := by
  have key : ∀ (acc : Byte) (b : Bool), acc.toNat < 128 →
      ((acc <<< 1) ||| (BitVec.ofBool b).setWidth 8).toNat = 2 * acc.toNat + b.toNat := by decide +kernel
  exact key acc b h

/-! ### Changes of the stream -/

theorem OnlyStream.refl (s : State) : OnlyStream s s := rfl

theorem OnlyStream.trans {s t u : State} (h1 : OnlyStream s t) (h2 : OnlyStream t u) : OnlyStream s u := by
  unfold OnlyStream at *
  rw [h2, h1]

theorem OnlyStream.maxCap {s t : State} (h : OnlyStream s t) : t.maxCap = s.maxCap := by rw [h]; rfl
theorem OnlyStream.capacity {s t : State} (h : OnlyStream s t) : t.capacity = s.capacity := by rw [h]
theorem OnlyStream.dir {s t : State} (h : OnlyStream s t) : t.dir = s.dir := by rw [h]
theorem OnlyStream.epoch {s t : State} (h : OnlyStream s t) : t.epoch = s.epoch := by rw [h]
theorem OnlyStream.codecState {s t : State} (h : OnlyStream s t) : t.codecState = s.codecState := by rw [h]
theorem OnlyStream.fault {s t : State} (h : OnlyStream s t) : t.fault = s.fault := by rw [h]
theorem OnlyStream.patch {s t : State} (h : OnlyStream s t) : t.patch = s.patch := by rw [h]
theorem OnlyStream.bufAddr {s t : State} (h : OnlyStream s t) : t.bufAddr = s.bufAddr := by rw [h]

/-- What the bytes of BUF read as depends on nothing but the list and the epoch. -/
theorem State.bufByte_congr {s t : State} (hb : t.buf = s.buf) (he : t.epoch = s.epoch) (a : Nat) :
    t.bufByte a = s.bufByte a := by
  unfold State.bufByte
  rw [hb, he]

@[simp] theorem State.bufByte_withByteStored (s : State) (v : Byte) (a : Nat) :
    (s.withByteStored v).bufByte a = if a = s.byteCount.toNat then v else s.bufByte a := by
  simp only [State.bufByte, withByteStored_buf, withByteStored_epoch, Memory.lookup_write]
  split_ifs <;> rfl

@[simp] theorem State.bufByte_withBitStaged (s : State) (b : Bool) (a : Nat) :
    (s.withBitStaged b).bufByte a = s.bufByte a := rfl

theorem Appends.refl {s : State} (h : s.PackReady) : Appends [] s s where
  position := by simp
  partialByte := h.1
  canonical := h.2.2.2
  counted := by simp
  kept := fun _ _ => rfl
  appended := fun k hk => absurd hk (Nat.not_lt_zero k)
  elsewhere := fun _ _ => rfl

theorem Appends.trans {xs ys : List Bool} {s t u : State} (h1 : Appends xs s t) (h2 : Appends ys t u) :
    Appends (xs ++ ys) s u where
  position := by rw [h2.position, h1.position, List.length_append]; omega
  partialByte := h2.partialByte
  canonical := h2.canonical
  counted := by rw [h2.counted, h1.counted, List.length_append, BitVec.ofNat_add, BitVec.add_assoc]
  kept := fun p hp => by
    have := h1.position
    rw [h2.kept p (by omega), h1.kept p hp]
  appended := fun k hk => by
    have hpos := h1.position
    rw [List.length_append] at hk
    by_cases hx : k < xs.length
    · rw [h2.kept _ (by omega), h1.appended k hx, List.getD_append _ _ _ _ hx]
    · have h3 := h2.appended (k - xs.length) (by omega)
      rw [hpos, show s.packedPos + xs.length + (k - xs.length) = s.packedPos + k by omega] at h3
      rw [h3, List.getD_append_right _ _ _ _ (by omega)]
  elsewhere := fun a ha => by
    have hpos := h1.position
    have hp : t.packedPos = 8 * t.byteCount.toNat + t.accBits.toNat := rfl
    have hs : s.packedPos = 8 * s.byteCount.toNat + s.accBits.toNat := rfl
    have h7 := h1.partialByte
    rw [List.length_append] at ha
    have htb : s.byteCount.toNat ≤ t.byteCount.toNat ∨ s.accBits.toNat > 7 := by omega
    rw [h2.elsewhere a (by rw [hpos]; omega), h1.elsewhere a (by omega)]

/-! ### The operations -/

/-- What storing a byte can do (R100, R104): below `capacity`, and inside BUF, the byte is written. -/
theorem storeByte_ok {v : Byte} {s t : State} (h : storeByte v s = .ok t) :
    s.byteCount < s.capacity ∧ s.byteCount.toNat < s.maxCap ∧ t = s.withByteStored v := by
  unfold storeByte at h
  split_ifs at h with h1 h2
  refine ⟨BitVec.not_le.mp h1, Nat.not_le.mp h2, ?_⟩
  cases h
  rfl

/-- Storing succeeds exactly below `capacity`, and otherwise raises BufferExhausted (R100, R104, R151). -/
theorem storeByte_eq (v : Byte) {s : State} (hcap : s.capacity.toNat ≤ s.maxCap) :
    storeByte v s =
      if s.byteCount < s.capacity then .ok (s.withByteStored v) else .error (.raise .bufferExhausted) := by
  unfold storeByte
  by_cases h : s.capacity ≤ s.byteCount
  · rw [if_pos h, if_neg (BitVec.not_lt.mpr h)]
  · have hlt : s.byteCount < s.capacity := BitVec.not_le.mp h
    have : s.byteCount.toNat < s.capacity.toNat := BitVec.lt_def.mp hlt
    rw [if_neg h, if_neg (by omega), if_pos hlt]

theorem byteCount_succ_toNat {b c : BitVec 24} (h : b < c) : (b + 1).toNat = b.toNat + 1 := by
  have h1 : b.toNat < c.toNat := BitVec.lt_def.mp h
  have h2 := c.isLt
  rw [BitVec.toNat_add, Nat.mod_eq_of_lt] <;> simp
  omega

theorem accBits_succ_toNat {a : BitVec 4} (h : a.toNat ≤ 7) : (a + 1).toNat = a.toNat + 1 := by
  rw [BitVec.toNat_add, Nat.mod_eq_of_lt] <;> simp
  omega

theorem packedPos_eq (s : State) : s.packedPos = 8 * s.byteCount.toNat + s.accBits.toNat := rfl

/-- A bit staged below the eighth place is appended to the stream. -/
theorem withBitStaged_appends (b : Bool) {s : State} (hs : s.PackReady) (h6 : s.accBits.toNat ≤ 6) :
    Appends [b] s (s.withBitStaged b) ∧ (s.withBitStaged b).PackReady := by
  obtain ⟨h7, hbc, hcap, hacc⟩ := hs
  have hsucc : (s.withBitStaged b).accBits.toNat = s.accBits.toNat + 1 := accBits_succ_toNat h7
  have hacc128 : s.acc.toNat < 128 := lt_of_lt_of_le hacc (Nat.pow_le_pow_right (by norm_num) h7)
  have hshift : (s.withBitStaged b).acc.toNat = 2 * s.acc.toNat + b.toNat := shiftIn_toNat s.acc b hacc128
  have hb1 : b.toNat ≤ 1 := Bool.toNat_le b
  have hcanon : (s.withBitStaged b).acc.toNat < 2 ^ (s.withBitStaged b).accBits.toNat := by
    rw [hshift, hsucc, pow_succ]
    omega
  have hpos : (s.withBitStaged b).packedPos = s.packedPos + 1 := by
    rw [packedPos_eq, packedPos_eq, hsucc, withBitStaged_byteCount]
    omega
  refine ⟨⟨hpos, by omega, hcanon, rfl, ?_, ?_, fun a _ => rfl⟩, by omega, hbc, hcap, hcanon⟩
  · intro p hp
    rw [packedPos_eq] at hp
    unfold State.producedBit
    rw [withBitStaged_byteCount]
    by_cases hlt : p < 8 * s.byteCount.toNat
    · rw [if_pos hlt, if_pos hlt]
      rfl
    · rw [if_neg hlt, if_neg hlt, hpos, packedPos_eq, withBitStaged_acc, shiftIn_getLsbD _ _ (by omega),
        if_neg (by omega)]
      congr 1
      omega
  · intro k hk
    have hk0 : k = 0 := by simpa using hk
    subst hk0
    unfold State.producedBit
    rw [withBitStaged_byteCount, if_neg (by rw [packedPos_eq]; omega), hpos, withBitStaged_acc,
      shiftIn_getLsbD _ _ (by omega), if_pos (by omega)]
    rfl

/-- The eighth bit, with its byte written out, is appended to the stream. -/
theorem withByteStored_appends (b : Bool) {s : State} (hs : s.PackReady) (h7 : s.accBits.toNat = 7)
    (hroom : s.byteCount < s.capacity) :
    Appends [b] s ((s.withBitStaged b).withByteStored (s.withBitStaged b).acc) ∧
      ((s.withBitStaged b).withByteStored (s.withBitStaged b).acc).PackReady := by
  have hbs : ((s.withBitStaged b).withByteStored (s.withBitStaged b).acc).byteCount.toNat = s.byteCount.toNat + 1 :=
    byteCount_succ_toNat hroom
  have hpos : ((s.withBitStaged b).withByteStored (s.withBitStaged b).acc).packedPos = s.packedPos + 1 := by
    rw [packedPos_eq, packedPos_eq, hbs, withByteStored_accBits, h7]
    simp
    omega
  refine ⟨⟨hpos, by simp, by simp, rfl, ?_, ?_, ?_⟩, by simp, ?_, hs.2.2.1, by simp⟩
  · intro p hp
    rw [packedPos_eq] at hp
    unfold State.producedBit State.streamBit
    rw [hbs, if_pos (by omega), State.bufByte_withByteStored, State.bufByte_withBitStaged, withBitStaged_byteCount]
    by_cases hlt : p < 8 * s.byteCount.toNat
    · rw [if_neg (by omega), if_pos hlt]
    · rw [if_pos (by omega), if_neg hlt, withBitStaged_acc, shiftIn_getLsbD _ _ (by omega), if_neg (by omega),
        packedPos_eq]
      congr 1
      omega
  · intro k hk
    have hk0 : k = 0 := by simpa using hk
    subst hk0
    unfold State.producedBit State.streamBit
    rw [packedPos_eq, hbs, if_pos (by omega), State.bufByte_withByteStored, withBitStaged_byteCount, if_pos (by omega),
      withBitStaged_acc, shiftIn_getLsbD _ _ (by omega), if_pos (by omega)]
    rfl
  · intro a ha
    rw [packedPos_eq, List.length_singleton] at ha
    rw [State.bufByte_withByteStored, State.bufByte_withBitStaged, withBitStaged_byteCount, if_neg (by omega)]
  · rw [BitVec.le_def, hbs]
    exact BitVec.lt_def.mp hroom

/-- Everything packing one bit can do (R100): with room it appends exactly that bit, else it raises BufferExhausted. -/
theorem packBit_spec (b : Bool) {s : State} (hs : s.PackReady) :
    if s.Room 1 then ∃ t, packBit b s = .ok t ∧ OnlyStream s t ∧ Appends [b] s t ∧ t.PackReady
    else packBit b s = .error (.raise .bufferExhausted) := by
  have hbc : s.byteCount.toNat ≤ s.capacity.toNat := BitVec.le_def.mp hs.2.1
  have hpos := packedPos_eq s
  have h7 := hs.1
  have hsucc : (s.withBitStaged b).accBits.toNat = s.accBits.toNat + 1 := accBits_succ_toNat h7
  have h8 : (s.withBitStaged b).accBits = 8 ↔ s.accBits.toNat = 7 := by
    rw [← BitVec.toNat_inj, hsucc]
    show s.accBits.toNat + 1 = 8 ↔ _
    omega
  unfold packBit
  by_cases hfull : s.accBits.toNat = 7
  · rw [if_pos (h8.mpr hfull), storeByte_eq (s := s.withBitStaged b) _ hs.2.2.1, withBitStaged_byteCount, withBitStaged_capacity]
    by_cases hroom : s.byteCount < s.capacity
    · have hlt : s.byteCount.toNat < s.capacity.toNat := BitVec.lt_def.mp hroom
      rw [if_pos (by omega), if_pos hroom]
      exact ⟨_, rfl, rfl, withByteStored_appends b hs hfull hroom⟩
    · have hge : ¬ s.byteCount.toNat < s.capacity.toNat := fun h => hroom (BitVec.lt_def.mpr h)
      rw [if_neg (by omega), if_neg hroom]
  · rw [if_neg (fun h => hfull (h8.mp h)), if_pos (by omega)]
    exact ⟨_, rfl, rfl, withBitStaged_appends b hs (by omega)⟩

/-- Everything packing a list of bits can do (R100, R113): with room for all of them it appends exactly them, else it
raises BufferExhausted. -/
theorem packBits_spec (bits : List Bool) {s : State} (hs : s.PackReady) :
    if s.Room bits.length then ∃ t, packBits bits s = .ok t ∧ OnlyStream s t ∧ Appends bits s t ∧ t.PackReady
    else packBits bits s = .error (.raise .bufferExhausted) := by
  induction bits generalizing s with
  | nil =>
    have hbc : s.byteCount.toNat ≤ s.capacity.toNat := BitVec.le_def.mp hs.2.1
    have hpos := packedPos_eq s
    have h7 := hs.1
    rw [if_pos (by rw [List.length_nil]; omega)]
    exact ⟨s, rfl, OnlyStream.refl s, Appends.refl hs, hs⟩
  | cons b rest ih =>
    have hb := packBit_spec b hs
    rw [List.length_cons, packBits]
    by_cases hroom : s.Room 1
    · rw [if_pos hroom] at hb
      obtain ⟨t, ht, hot, hat, hrt⟩ := hb
      have hpos : t.packedPos = s.packedPos + 1 := hat.position
      have hrest := ih hrt
      have hiff : t.Room rest.length ↔ s.Room (rest.length + 1) := by
        rw [State.Room, State.Room, hpos, hot.capacity]
        omega
      rw [ht]
      by_cases hr : s.Room (rest.length + 1)
      · rw [if_pos (hiff.mpr hr)] at hrest
        obtain ⟨u, hu, hou, hau, hru⟩ := hrest
        rw [if_pos hr]
        exact ⟨u, hu, hot.trans hou, hat.trans hau, hru⟩
      · rw [if_neg (fun h => hr (hiff.mp h))] at hrest
        rw [if_neg hr]
        exact hrest
    · rw [if_neg hroom] at hb
      rw [if_neg (by omega), hb]

/-- If packing answers a state, the bits were appended and nothing but the stream changed. -/
theorem packBits_ok {bits : List Bool} {s t : State} (hs : s.PackReady) (h : packBits bits s = .ok t) :
    s.Room bits.length ∧ OnlyStream s t ∧ Appends bits s t ∧ t.PackReady := by
  have key := packBits_spec bits hs
  by_cases hr : s.Room bits.length
  · rw [if_pos hr] at key
    obtain ⟨u, hu, rest⟩ := key
    rw [h] at hu
    cases hu
    exact ⟨hr, rest⟩
  · rw [if_neg hr, h] at key
    cases key

/-- Packing stops for no reason but BufferExhausted. -/
theorem packBits_error {bits : List Bool} {s : State} {e : Stop} (hs : s.PackReady) (h : packBits bits s = .error e) :
    ¬ s.Room bits.length ∧ e = .raise .bufferExhausted := by
  have key := packBits_spec bits hs
  split_ifs at key with hr
  · obtain ⟨t, ht, -⟩ := key
    rw [h] at ht
    cases ht
  · rw [h] at key
    cases key
    exact ⟨hr, rfl⟩

theorem packBits_append (xs ys : List Bool) (s : State) :
    packBits (xs ++ ys) s = match packBits xs s with
      | .ok t => packBits ys t
      | .error e => .error e := by
  induction xs generalizing s with
  | nil => rfl
  | cons b rest ih =>
    simp only [List.cons_append, packBits]
    cases packBit b s with
    | ok t => exact ih t
    | error e => rfl

/-- Everything FLUSH can do to the stream (R104): with no bit staged nothing; else the byte is completed with zeros at
its low end, or BufferExhausted is raised. -/
theorem flushPrim_eq {s : State} (hcap : s.capacity.toNat ≤ s.maxCap) :
    flushPrim s =
      if s.accBits = 0 then .ok s
      else if s.byteCount < s.capacity then .ok (s.withByteStored (s.acc <<< (8 - s.accBits.toNat)))
      else .error (.raise .bufferExhausted) := by
  unfold flushPrim
  by_cases h : s.accBits = 0
  · rw [if_pos h, h]
    rfl
  · have hpos : 0 < s.accBits := by
      rw [BitVec.lt_def]
      exact Nat.pos_of_ne_zero fun h0 => h (BitVec.eq_of_toNat_eq h0)
    rw [if_neg h, if_pos hpos, storeByte_eq _ hcap]

/-! What no packing touches, in any state: everything but the stream. -/

theorem storeByte_onlyStream {v : Byte} {s t : State} (h : storeByte v s = .ok t) : OnlyStream s t := by
  obtain ⟨-, -, rfl⟩ := storeByte_ok h
  rfl

theorem packBit_onlyStream {b : Bool} {s t : State} (h : packBit b s = .ok t) : OnlyStream s t := by
  unfold packBit at h
  split_ifs at h with h8
  · exact OnlyStream.trans (t := s.withBitStaged b) rfl (storeByte_onlyStream h)
  · cases h
    rfl

theorem packBits_onlyStream {bits : List Bool} {s t : State} (h : packBits bits s = .ok t) : OnlyStream s t := by
  induction bits generalizing s with
  | nil =>
    cases h
    rfl
  | cons b rest ih =>
    unfold packBits at h
    cases hb : packBit b s with
    | ok u =>
      rw [hb] at h
      exact (packBit_onlyStream hb).trans (ih h)
    | error e =>
      rw [hb] at h
      cases h

theorem flushPrim_onlyStream {s t : State} (h : flushPrim s = .ok t) : OnlyStream s t := by
  unfold flushPrim at h
  split_ifs at h
  · exact storeByte_onlyStream h
  · cases h
    rfl

/-! BUF stays in canonical form (R43). -/

theorem storeByte_wf {v : Byte} {s t : State} (h : storeByte v s = .ok t) (hs : s.buf.wf s.maxCap) :
    t.buf.wf t.maxCap := by
  obtain ⟨-, hlt, rfl⟩ := storeByte_ok h
  exact Memory.wf_write v hs hlt

theorem packBit_wf {b : Bool} {s t : State} (h : packBit b s = .ok t) (hs : s.buf.wf s.maxCap) :
    t.buf.wf t.maxCap := by
  unfold packBit at h
  split_ifs at h with h8
  · exact storeByte_wf h hs
  · cases h
    exact hs

theorem packBits_wf {bits : List Bool} {s t : State} (h : packBits bits s = .ok t) (hs : s.buf.wf s.maxCap) :
    t.buf.wf t.maxCap := by
  induction bits generalizing s with
  | nil =>
    cases h
    exact hs
  | cons b rest ih =>
    unfold packBits at h
    cases hb : packBit b s with
    | ok u =>
      rw [hb] at h
      exact ih h (packBit_wf hb hs)
    | error e =>
      rw [hb] at h
      cases h

theorem flushPrim_wf {s t : State} (h : flushPrim s = .ok t) (hs : s.buf.wf s.maxCap) : t.buf.wf t.maxCap := by
  unfold flushPrim at h
  split_ifs at h
  · exact storeByte_wf h hs
  · cases h
    exact hs

end Sys2Proof.Machine
end

