-- ==== Sys2Proof/Laws/Wire.lean ====
section
/-! SUPPORT. The cut of a value into chunks and bits (spec/20_memory.md R63, spec/40_bitpacker.md R100 to R103): the bits
of a chunk one by one, the shape of the chunk widths, and how many bits a value takes. -/

namespace Sys2Proof.Machine

/-! ### One chunk -/

theorem shiftOut_eq (data : Byte) {d : Nat} (hd : d ≤ 8) :
    shiftOut data d = (List.range d).map fun k => data.getLsbD (7 - k) := by
  induction d generalizing data with
  | zero => rfl
  | succ d ih =>
    rw [shiftOut, ih _ (by omega), List.range_succ_eq_map, List.map_cons, List.map_map]
    congr 1
    refine List.map_congr_left fun k hk => ?_
    have hk' : k < d := List.mem_range.mp hk
    rw [BitVec.getLsbD_shiftLeft, Function.comp_apply, decide_eq_true (show 7 - k < 8 by omega),
      decide_eq_false (show ¬ 7 - k < 1 by omega)]
    simp only [Bool.not_false, Bool.and_self, Bool.true_and]
    congr 1

/-- A chunk of `d` bits sends the low `d` bits of its byte, the highest of them first (R63). -/
theorem chunkBits_eq (b : Byte) {d : Nat} (hd : d ≤ 8) :
    chunkBits b d = (List.range d).map fun k => b.getLsbD (d - 1 - k) := by
  rw [chunkBits, shiftOut_eq _ hd]
  refine List.map_congr_left fun k hk => ?_
  have hk' : k < d := List.mem_range.mp hk
  rw [BitVec.getLsbD_shiftLeft, decide_eq_true (show 7 - k < 8 by omega),
    decide_eq_false (show ¬ 7 - k < 8 - d by omega)]
  simp only [Bool.not_false, Bool.and_self, Bool.true_and]
  congr 1
  omega

@[simp] theorem length_shiftOut (data : Byte) (d : Nat) : (shiftOut data d).length = d := by
  induction d generalizing data with
  | zero => rfl
  | succ d ih => rw [shiftOut, List.length_cons, ih]

@[simp] theorem length_chunkBits (b : Byte) (d : Nat) : (chunkBits b d).length = d := length_shiftOut _ d

/-! ### All chunks of a value -/

/-- The chunks of an `n`-bit value: full ones, and then the partial one if there is one (R63, R100). -/
theorem chunkWidths_eq (n : Nat) :
    chunkWidths n = List.replicate (n / 8) 8 ++ if n % 8 = 0 then [] else [n % 8] := by
  have hlen : (chunkWidths n).length = (n + 7) / 8 := by simp [chunkWidths]
  by_cases h : n % 8 = 0
  · rw [if_pos h, List.append_nil]
    refine List.ext_getElem (by rw [hlen, List.length_replicate]; omega) fun i h1 h2 => ?_
    simp [chunkWidths, chunkWidth, h]
  · rw [if_neg h]
    refine List.ext_getElem (by rw [hlen]; simp; omega) fun i h1 h2 => ?_
    rw [hlen] at h1
    simp only [chunkWidths, List.getElem_map, List.getElem_range, chunkWidth]
    by_cases hi : i < n / 8
    · rw [if_pos (by omega), List.getElem_append_left (by simpa using hi), List.getElem_replicate]
    · rw [if_neg (by omega), List.getElem_append_right (by simpa using hi)]
      simp

/-- The chunk widths of one more byte. -/
theorem chunkWidths_add_eight (n : Nat) : chunkWidths (n + 8) = 8 :: chunkWidths n := by
  rw [chunkWidths_eq, chunkWidths_eq, show (n + 8) / 8 = n / 8 + 1 by omega, show (n + 8) % 8 = n % 8 by omega,
    List.replicate_succ, List.cons_append]

/-- The chunk widths of less than a byte. -/
theorem chunkWidths_of_lt_eight {n : Nat} (h : n < 8) : chunkWidths n = if n = 0 then [] else [n] := by
  rw [chunkWidths_eq, show n / 8 = 0 by omega, Nat.mod_eq_of_lt h]
  rfl

theorem wireBits_add_eight (v n : Nat) :
    wireBits v (n + 8) = chunkBits (BitVec.ofNat 8 v) 8 ++ wireBits (v / 256) n := by
  rw [wireBits, chunkWidths_add_eight]
  rfl

theorem wireBits_of_lt_eight (v : Nat) {n : Nat} (h : n < 8) : wireBits v n = chunkBits (BitVec.ofNat 8 v) n := by
  rw [wireBits, chunkWidths_of_lt_eight h]
  split_ifs with h0
  · subst h0
    rfl
  · simp [bitsInChunks]

@[simp] theorem length_bitsInChunks (ds : List Nat) (v : Nat) : (bitsInChunks ds v).length = ds.sum := by
  induction ds generalizing v with
  | nil => rfl
  | cons d ds ih => rw [bitsInChunks, List.length_append, length_chunkBits, ih, List.sum_cons]

@[simp] theorem sum_chunkWidths (n : Nat) : (chunkWidths n).sum = n := by
  rw [chunkWidths_eq, List.sum_append, List.sum_replicate]
  split_ifs with h <;> simp <;> omega

/-- `PackValue(v, n)` appends `n` bits (R101). -/
@[simp] theorem length_wireBits (v n : Nat) : (wireBits v n).length = n := by
  rw [wireBits, length_bitsInChunks, sum_chunkWidths]

@[simp] theorem length_fieldBits (fields : List (Nat × Nat)) :
    (fieldBits fields).length = (fields.map Prod.snd).sum := by
  induction fields with
  | nil => rfl
  | cons f rest ih =>
    rw [fieldBits, List.flatMap_cons, List.length_append, length_wireBits, List.map_cons, List.sum_cons, ← ih]
    rfl

theorem fieldBits_cons (f : Nat × Nat) (rest : List (Nat × Nat)) :
    fieldBits (f :: rest) = wireBits f.1 f.2 ++ fieldBits rest := rfl

@[simp] theorem fieldBits_nil : fieldBits [] = [] := rfl

/-- Two bytes whose low `d` bits agree in value are sent as the same bits, and conversely. -/
theorem chunkBits_inj {b c : Byte} {d : Nat} (hd : d ≤ 8) (hb : b.toNat < 2 ^ d) (hc : c.toNat < 2 ^ d)
    (h : chunkBits b d = chunkBits c d) : b = c := by
  rw [chunkBits_eq b hd, chunkBits_eq c hd] at h
  refine BitVec.eq_of_getLsbD_eq fun i hi => ?_
  by_cases hid : i < d
  · have := (List.map_inj_left.mp h) (d - 1 - i) (List.mem_range.mpr (by omega))
    rwa [show d - 1 - (d - 1 - i) = i by omega] at this
  · have hp : 2 ^ d ≤ 2 ^ i := Nat.pow_le_pow_right (by norm_num) (by omega)
    rw [BitVec.getLsbD, BitVec.getLsbD, Nat.testBit_lt_two_pow (lt_of_lt_of_le hb hp),
      Nat.testBit_lt_two_pow (lt_of_lt_of_le hc hp)]

/-- An `n`-bit value is fixed by the bits it is sent as (R103). -/
theorem wireBits_inj {v u n : Nat} (hv : v < 2 ^ n) (hu : u < 2 ^ n) (h : wireBits v n = wireBits u n) : v = u := by
  induction n using Nat.strong_induction_on generalizing v u with
  | _ n ih =>
    by_cases hn : n < 8
    · rw [wireBits_of_lt_eight v hn, wireBits_of_lt_eight u hn] at h
      have hp : 2 ^ n ≤ 2 ^ 8 := Nat.pow_le_pow_right (by norm_num) (by omega)
      have hv8 : v % 2 ^ 8 = v := Nat.mod_eq_of_lt (lt_of_lt_of_le hv hp)
      have hu8 : u % 2 ^ 8 = u := Nat.mod_eq_of_lt (lt_of_lt_of_le hu hp)
      have := chunkBits_inj (by omega) (by rw [BitVec.toNat_ofNat, hv8]; exact hv)
        (by rw [BitVec.toNat_ofNat, hu8]; exact hu) h
      have := congrArg BitVec.toNat this
      rwa [BitVec.toNat_ofNat, BitVec.toNat_ofNat, hv8, hu8] at this
    · obtain ⟨k, rfl⟩ : ∃ k, n = k + 8 := ⟨n - 8, by omega⟩
      rw [wireBits_add_eight, wireBits_add_eight] at h
      obtain ⟨h1, h2⟩ := List.append_inj h (by simp)
      have hpow : 2 ^ (k + 8) = 2 ^ k * 256 := pow_add 2 k 8
      have hdiv := ih k (by omega) (Nat.div_lt_of_lt_mul (by omega)) (Nat.div_lt_of_lt_mul (by omega)) h2
      have hlow := congrArg BitVec.toNat (chunkBits_inj (le_refl 8) (BitVec.isLt _) (BitVec.isLt _) h1)
      rw [BitVec.toNat_ofNat, BitVec.toNat_ofNat] at hlow
      omega

end Sys2Proof.Machine
end

