-- ==== Sys2Proof/Laws/Unpack.lean ====
section
/-! SUPPORT. What unpacking can do: `loadByte`, `unpackBit`, `unpackChunk`, `unpackChunks` and `unpackValue` each have one
lemma that says all of it, in terms of the bits still to come (spec/40_bitpacker.md R102, R103, R113). -/

namespace Sys2Proof.Machine

/-- The state of the unpacker that every decode session rests in: R45 (a), (b), (c). -/
abbrev State.UnpackReady (s : State) : Prop :=
  s.accBits.toNat ≤ 7 ∧ s.byteCount ≤ s.capacity ∧ s.capacity.toNat ≤ s.maxCap ∧
    s.acc.toNat % 2 ^ (8 - s.accBits.toNat) = 0

theorem State.Resting.unpackReady {s : State} (h : s.Resting) (hd : s.dir = .dec) : s.UnpackReady := by
  obtain ⟨h1, h2, h3, h4, -⟩ := h
  exact ⟨h1, h2, h3, by simpa [accCanonical, hd] using h4⟩

/-! ### Changes of the stream -/

theorem Consumes.refl {s : State} (h : s.UnpackReady) : Consumes 0 s s where
  position := by omega
  partialByte := h.1
  canonical := h.2.2.2
  counted := by simp
  buffer := rfl
  unread := fun k => by rw [Nat.zero_add]

theorem Consumes.trans {n m : Nat} {s t u : State} (h1 : Consumes n s t) (h2 : Consumes m t u) :
    Consumes (n + m) s u where
  position := by have := h1.position; have := h2.position; omega
  partialByte := h2.partialByte
  canonical := h2.canonical
  counted := by rw [h2.counted, h1.counted, BitVec.ofNat_add, BitVec.add_assoc]
  buffer := h2.buffer.trans h1.buffer
  unread := fun k => by rw [h2.unread, h1.unread, Nat.add_assoc]

theorem Consumes.upcoming {n : Nat} {s t : State} (h : Consumes n s t) (m : Nat) :
    s.upcoming (n + m) = s.upcoming n ++ t.upcoming m := by
  unfold State.upcoming
  rw [List.range_add, List.map_append, List.map_map]
  congr 1
  exact List.map_congr_left fun k _ => (h.unread k).symm

@[simp] theorem length_upcoming (s : State) (n : Nat) : (s.upcoming n).length = n := by simp [State.upcoming]

@[simp] theorem upcoming_zero (s : State) : s.upcoming 0 = [] := rfl

theorem Consumes.available {n : Nat} {s t : State} (h : Consumes n s t) (ho : OnlyStream s t) (m : Nat) :
    t.Available m ↔ s.Available (n + m) := by
  have := h.position
  unfold State.Available
  rw [ho.capacity]
  omega

/-! ### One bit -/

@[simp] theorem streamBit_withByteLoaded (s : State) (p : Nat) : s.withByteLoaded.streamBit p = s.streamBit p := rfl
@[simp] theorem streamBit_withBitTaken (s : State) (p : Nat) : s.withBitTaken.streamBit p = s.streamBit p := rfl

theorem upcomingBit_of_lt {s : State} {k : Nat} (h : k < s.accBits.toNat) :
    s.upcomingBit k = s.acc.getLsbD (7 - k) := if_pos h

theorem upcomingBit_of_le {s : State} {k : Nat} (h : s.accBits.toNat ≤ k) :
    s.upcomingBit k = s.streamBit (8 * s.byteCount.toNat + (k - s.accBits.toNat)) := if_neg (by omega)

/-- Loading a byte moves the boundary between accumulator and buffer, and no bit. -/
theorem upcomingBit_withByteLoaded {s : State} (h0 : s.accBits = 0) (hlt : s.byteCount < s.capacity) (k : Nat) :
    s.withByteLoaded.upcomingBit k = s.upcomingBit k := by
  have hbs : s.withByteLoaded.byteCount.toNat = s.byteCount.toNat + 1 := byteCount_succ_toNat hlt
  have ha : s.withByteLoaded.accBits.toNat = 8 := rfl
  have hz : s.accBits.toNat = 0 := by rw [h0]; rfl
  rw [upcomingBit_of_le (by omega : s.accBits.toNat ≤ k), hz]
  by_cases hk : k < 8
  · rw [upcomingBit_of_lt (by omega), withByteLoaded_acc, State.streamBit,
      show (8 * s.byteCount.toNat + (k - 0)) / 8 = s.byteCount.toNat by omega]
    congr 1
    omega
  · rw [upcomingBit_of_le (by omega), ha, hbs, streamBit_withByteLoaded]
    congr 1
    omega

/-- Everything loading can do (R102): nothing while bits are left; else the next byte, or BufferExhausted. -/
theorem loadByte_eq {s : State} (hcap : s.capacity.toNat ≤ s.maxCap) :
    loadByte s =
      if s.accBits = 0 then
        if s.byteCount < s.capacity then .ok s.withByteLoaded else .error (.raise .bufferExhausted)
      else .ok s := by
  unfold loadByte
  by_cases h0 : s.accBits = 0
  · rw [if_pos h0, if_pos h0]
    by_cases h : s.capacity ≤ s.byteCount
    · rw [if_pos h, if_neg (BitVec.not_lt.mpr h)]
    · have hlt : s.byteCount < s.capacity := BitVec.not_le.mp h
      have : s.byteCount.toNat < s.capacity.toNat := BitVec.lt_def.mp hlt
      rw [if_neg h, if_neg (by omega), if_pos hlt]
  · rw [if_neg h0, if_neg h0]

theorem accBits_pred_toNat {a : BitVec 4} (h : 1 ≤ a.toNat) : (a - 1).toNat = a.toNat - 1 := by
  have := a.isLt
  rw [BitVec.toNat_sub]
  show (2 ^ 4 - 1 + a.toNat) % 2 ^ 4 = _
  omega

/-- A bit taken off the top of the accumulator is the next bit of the stream. -/
theorem withBitTaken_consumes {s : State} (h1 : 1 ≤ s.accBits.toNat) (h8 : s.accBits.toNat ≤ 8)
    (hc : s.acc.toNat % 2 ^ (8 - s.accBits.toNat) = 0) : s.acc.msb = s.upcomingBit 0 ∧ Consumes 1 s s.withBitTaken := by
  have hpred : s.withBitTaken.accBits.toNat = s.accBits.toNat - 1 := accBits_pred_toNat h1
  refine ⟨?_, ⟨by rw [hpred, withBitTaken_byteCount]; omega, by omega, ?_, rfl, rfl, fun k => ?_⟩⟩
  · rw [upcomingBit_of_lt (by omega), BitVec.msb_eq_getLsbD_last]
  · rw [hpred, withBitTaken_acc, BitVec.toNat_shiftLeft, Nat.shiftLeft_eq]
    obtain ⟨q, hq⟩ := Nat.dvd_of_mod_eq_zero hc
    rw [hq, Nat.mod_mod_of_dvd _ (pow_dvd_pow 2 (by omega : 8 - (s.accBits.toNat - 1) ≤ 8)),
      show 8 - (s.accBits.toNat - 1) = 8 - s.accBits.toNat + 1 by omega, pow_succ]
    exact Nat.mod_eq_zero_of_dvd ⟨q, by ring⟩
  · by_cases hk : k < s.accBits.toNat - 1
    · rw [upcomingBit_of_lt (by omega), upcomingBit_of_lt (by omega), withBitTaken_acc, BitVec.getLsbD_shiftLeft,
        decide_eq_true (show 7 - k < 8 by omega), decide_eq_false (show ¬ 7 - k < 1 by omega)]
      simp only [Bool.not_false, Bool.and_self, Bool.true_and]
      congr 1
      omega
    · rw [upcomingBit_of_le (by omega), upcomingBit_of_le (by omega), hpred, withBitTaken_byteCount,
        streamBit_withBitTaken]
      congr 1
      omega

/-- Everything taking one bit can do (R102): the next bit of the stream, or BufferExhausted. -/
theorem unpackBit_spec {s : State} (hs : s.UnpackReady) :
    if s.Available 1 then
      ∃ t, unpackBit s = .ok (s.upcomingBit 0, t) ∧ OnlyStream s t ∧ Consumes 1 s t ∧ t.UnpackReady
    else unpackBit s = .error (.raise .bufferExhausted) := by
  obtain ⟨h7, hbc, hcap, hacc⟩ := hs
  have hbc' : s.byteCount.toNat ≤ s.capacity.toNat := BitVec.le_def.mp hbc
  unfold unpackBit
  rw [loadByte_eq hcap]
  by_cases h0 : s.accBits = 0
  · have hz : s.accBits.toNat = 0 := by rw [h0]; rfl
    rw [if_pos h0]
    by_cases hlt : s.byteCount < s.capacity
    · have hlt' : s.byteCount.toNat < s.capacity.toNat := BitVec.lt_def.mp hlt
      have hbs : s.withByteLoaded.byteCount.toNat = s.byteCount.toNat + 1 := byteCount_succ_toNat hlt
      have ha8 : s.withByteLoaded.accBits.toNat = 8 := rfl
      rw [if_pos hlt, if_pos (by omega)]
      obtain ⟨hmsb, hcons⟩ := withBitTaken_consumes (s := s.withByteLoaded) (by omega) (by omega)
        (by rw [ha8]; exact Nat.mod_one _)
      refine ⟨s.withByteLoaded.withBitTaken, ?_, rfl, ?_, hcons.partialByte, ?_, hcap, hcons.canonical⟩
      · rw [← upcomingBit_withByteLoaded h0 hlt, ← hmsb]
      · exact ⟨by have := hcons.position; omega, hcons.partialByte, hcons.canonical, hcons.counted, hcons.buffer,
          fun k => by rw [hcons.unread, upcomingBit_withByteLoaded h0 hlt]⟩
      · rw [BitVec.le_def]
        show s.withByteLoaded.byteCount.toNat ≤ s.capacity.toNat
        omega
    · have hge : ¬ s.byteCount.toNat < s.capacity.toNat := fun h => hlt (BitVec.lt_def.mpr h)
      rw [if_neg hlt, if_neg (by omega)]
  · have hz : s.accBits.toNat ≠ 0 := fun h => h0 (BitVec.eq_of_toNat_eq h)
    rw [if_neg h0, if_pos (by omega)]
    obtain ⟨hmsb, hcons⟩ := withBitTaken_consumes (s := s) (by omega) (by omega) hacc
    exact ⟨s.withBitTaken, by rw [← hmsb], rfl, hcons, hcons.partialByte, hbc, hcap, hcons.canonical⟩

/-! ### Chunks -/

/-- The byte a chunk is gathered into: its low `d` bits are the chunk's, above them what it held before. -/
theorem unpackChunk_spec (d : Nat) (out : Byte) {s : State} (hs : s.UnpackReady) :
    if s.Available d then
      ∃ r t, unpackChunk d out s = .ok (r, t) ∧ OnlyStream s t ∧ Consumes d s t ∧ t.UnpackReady ∧
        ∀ i, i < 8 → r.getLsbD i = if i < d then s.upcomingBit (d - 1 - i) else out.getLsbD (i - d)
    else unpackChunk d out s = .error (.raise .bufferExhausted) := by
  induction d generalizing out s with
  | zero =>
    have hbc : s.byteCount.toNat ≤ s.capacity.toNat := BitVec.le_def.mp hs.2.1
    rw [if_pos (by omega)]
    exact ⟨out, s, rfl, OnlyStream.refl s, Consumes.refl hs, hs, fun i _ => rfl⟩
  | succ d ih =>
    have hb := unpackBit_spec hs
    rw [unpackChunk]
    by_cases h1 : s.Available 1
    · rw [if_pos h1] at hb
      obtain ⟨t, ht, hot, hct, hrt⟩ := hb
      have hd := ih ((out <<< 1) ||| (BitVec.ofBool (s.upcomingBit 0)).setWidth 8) hrt
      have hiff : t.Available d ↔ s.Available (d + 1) := by rw [hct.available hot, Nat.add_comm]
      rw [ht]
      by_cases hd1 : s.Available (d + 1)
      · rw [if_pos (hiff.mpr hd1)] at hd
        obtain ⟨r, u, hu, hou, hcu, hru, hbits⟩ := hd
        rw [if_pos hd1]
        refine ⟨r, u, hu, hot.trans hou, by rw [Nat.add_comm]; exact hct.trans hcu, hru, fun i hi => ?_⟩
        rw [hbits i hi]
        by_cases hid : i < d
        · rw [if_pos hid, if_pos (by omega), hct.unread]
          congr 1
          omega
        · rw [if_neg hid, shiftIn_getLsbD _ _ (by omega)]
          by_cases hie : i = d
          · rw [if_pos (by omega), if_pos (by omega)]
            congr 1
            omega
          · rw [if_neg (by omega), if_neg (by omega)]
            congr 1
      · rw [if_neg (fun h => hd1 (hiff.mp h))] at hd
        rw [if_neg hd1]
        exact hd
    · rw [if_neg h1] at hb
      rw [if_neg (by omega), hb]

/-- A whole chunk: a byte below `2^d` whose `d` bits are the next ones of the stream (R102). -/
theorem unpackChunk_zero {d : Nat} (hd : d ≤ 8) {s : State} (hs : s.UnpackReady) :
    if s.Available d then
      ∃ r t, unpackChunk d 0 s = .ok (r, t) ∧ OnlyStream s t ∧ Consumes d s t ∧ t.UnpackReady ∧
        r.toNat < 2 ^ d ∧ chunkBits r d = s.upcoming d
    else unpackChunk d 0 s = .error (.raise .bufferExhausted) := by
  have h := unpackChunk_spec d 0 hs
  split_ifs at h ⊢ with ha
  · obtain ⟨r, t, hr, ho, hc, hrt, hbits⟩ := h
    refine ⟨r, t, hr, ho, hc, hrt, ?_, ?_⟩
    · refine Nat.lt_pow_two_of_testBit _ fun i hi => ?_
      by_cases h8 : i < 8
      · have := hbits i h8
        rw [if_neg (by omega)] at this
        exact this.trans BitVec.getLsbD_zero
      · exact Nat.testBit_lt_two_pow (lt_of_lt_of_le r.isLt (Nat.pow_le_pow_right (by norm_num) (by omega)))
    · rw [chunkBits_eq r hd, State.upcoming]
      refine List.map_congr_left fun k hk => ?_
      have hk' : k < d := List.mem_range.mp hk
      rw [hbits _ (by omega), if_pos (by omega)]
      congr 1
      omega
  · exact h

/-- All chunks of a value: what is gathered is sent as the bits that were taken (R102, R103). -/
theorem unpackChunks_spec (ds : List Nat) (hds : ∀ d ∈ ds, d ≤ 8) {s : State} (hs : s.UnpackReady) :
    if s.Available ds.sum then
      ∃ out t, unpackChunks ds s = .ok (out, t) ∧ OnlyStream s t ∧ Consumes ds.sum s t ∧ t.UnpackReady ∧
        out.length = ds.length ∧ (∀ p ∈ out.zip ds, p.1.toNat < 2 ^ p.2) ∧
        bitsInChunks ds (bytesValue out) = s.upcoming ds.sum
    else unpackChunks ds s = .error (.raise .bufferExhausted) := by
  induction ds generalizing s with
  | nil =>
    have hbc : s.byteCount.toNat ≤ s.capacity.toNat := BitVec.le_def.mp hs.2.1
    rw [if_pos (by rw [List.sum_nil]; omega)]
    exact ⟨[], s, rfl, OnlyStream.refl s, Consumes.refl hs, hs, rfl, by simp, rfl⟩
  | cons d ds ih =>
    have hd := unpackChunk_zero (hds d List.mem_cons_self) hs
    rw [unpackChunks, List.sum_cons]
    by_cases h1 : s.Available d
    · rw [if_pos h1] at hd
      obtain ⟨r, t, hr, hot, hct, hrt, hlt, hbits⟩ := hd
      have hrest := ih (fun x hx => hds x (List.mem_cons_of_mem _ hx)) hrt
      rw [hr]
      dsimp only
      by_cases h2 : s.Available (d + ds.sum)
      · rw [if_pos ((hct.available hot _).mpr h2)] at hrest
        obtain ⟨out, u, hu, hou, hcu, hru, hlen, hbound, hval⟩ := hrest
        rw [if_pos h2]
        refine ⟨r :: out, u, by rw [hu], hot.trans hou, hct.trans hcu, hru, by simp [hlen], ?_, ?_⟩
        · intro p hp
          rw [List.zip_cons_cons] at hp
          rcases List.mem_cons.mp hp with rfl | hp
          · exact hlt
          · exact hbound p hp
        · have hr8 := r.isLt
          have hlow : BitVec.ofNat 8 (r.toNat + 256 * bytesValue out) = r := by
            apply BitVec.eq_of_toNat_eq
            rw [BitVec.toNat_ofNat]
            omega
          rw [bytesValue, bitsInChunks, hlow, hbits, show (r.toNat + 256 * bytesValue out) / 256 = bytesValue out by omega,
            hval, hct.upcoming]
      · rw [if_neg (fun h => h2 ((hct.available hot _).mp h))] at hrest
        rw [if_neg h2, hrest]
    · rw [if_neg h1] at hd
      have hpos : ¬ s.Available (d + ds.sum) := by
        intro h
        exact h1 (by unfold State.Available at *; omega)
      rw [if_neg hpos, hd]

theorem chunkWidths_le (n : Nat) : ∀ d ∈ chunkWidths n, d ≤ 8 := by
  intro d hd
  rw [chunkWidths_eq] at hd
  rcases List.mem_append.mp hd with h | h
  · exact le_of_eq (List.mem_replicate.mp h).2
  · split_ifs at h
    · cases h
    · rw [List.mem_singleton] at h
      omega

/-- What the chunks of an `n`-bit value amount to is below `2^n`. -/
theorem bytesValue_lt (n : Nat) (out : List Byte) (hlen : out.length = (chunkWidths n).length)
    (h : ∀ p ∈ out.zip (chunkWidths n), p.1.toNat < 2 ^ p.2) : bytesValue out < 2 ^ n := by
  induction n using Nat.strong_induction_on generalizing out with
  | _ n ih =>
    by_cases hn : n < 8
    · rw [chunkWidths_of_lt_eight hn] at hlen h
      by_cases h0 : n = 0
      · rw [if_pos h0, List.length_nil, List.length_eq_zero_iff] at hlen
        rw [hlen, h0]
        decide
      · rw [if_neg h0] at hlen h
        obtain ⟨b, rfl⟩ := List.length_eq_one_iff.mp hlen
        have := h (b, n) (by simp)
        simpa [bytesValue] using this
    · obtain ⟨k, rfl⟩ : ∃ k, n = k + 8 := ⟨n - 8, by omega⟩
      rw [chunkWidths_add_eight] at hlen h
      cases out with
      | nil => cases hlen
      | cons b rest =>
        have := ih k (by omega) rest (by simpa using hlen)
          (fun p hp => h p (by rw [List.zip_cons_cons]; exact List.mem_cons_of_mem _ hp))
        have hb := b.isLt
        have hpow : 2 ^ (k + 8) = 2 ^ k * 256 := pow_add 2 k 8
        rw [bytesValue]
        omega

/-- Everything `UnpackValue(n)` can do (R102, R103, R113): the `n`-bit value that is sent as the next `n` bits of the
stream, or BufferExhausted. -/
theorem unpackValue_spec (n : Nat) {s : State} (hs : s.UnpackReady) :
    if s.Available n then
      ∃ v t, unpackValue n s = .ok (v, t) ∧ OnlyStream s t ∧ Consumes n s t ∧ t.UnpackReady ∧
        v < 2 ^ n ∧ wireBits v n = s.upcoming n
    else unpackValue n s = .error (.raise .bufferExhausted) := by
  have h := unpackChunks_spec (chunkWidths n) (chunkWidths_le n) hs
  rw [sum_chunkWidths] at h
  unfold unpackValue
  split_ifs at h ⊢ with ha
  · obtain ⟨out, t, hout, ho, hc, hrt, hlen, hbound, hval⟩ := h
    exact ⟨bytesValue out, t, by rw [hout], ho, hc, hrt, bytesValue_lt n out hlen hbound, hval⟩
  · rw [h]

/-- If unpacking answers a value, it is the one sent as the bits taken, and nothing but the stream changed. -/
theorem unpackValue_ok {n v : Nat} {s t : State} (hs : s.UnpackReady) (h : unpackValue n s = .ok (v, t)) :
    s.Available n ∧ OnlyStream s t ∧ Consumes n s t ∧ t.UnpackReady ∧ v < 2 ^ n ∧ wireBits v n = s.upcoming n := by
  have key := unpackValue_spec n hs
  by_cases ha : s.Available n
  · rw [if_pos ha] at key
    obtain ⟨v', t', h', rest⟩ := key
    rw [h] at h'
    cases h'
    exact ⟨ha, rest⟩
  · rw [if_neg ha, h] at key
    cases key

/-- Unpacking stops for no reason but BufferExhausted. -/
theorem unpackValue_error {n : Nat} {s : State} {e : Stop} (hs : s.UnpackReady) (h : unpackValue n s = .error e) :
    ¬ s.Available n ∧ e = .raise .bufferExhausted := by
  have key := unpackValue_spec n hs
  by_cases ha : s.Available n
  · rw [if_pos ha] at key
    obtain ⟨v', t', h', -⟩ := key
    rw [h] at h'
    cases h'
  · rw [if_neg ha, h] at key
    cases key
    exact ⟨ha, rfl⟩

/-! What no unpacking touches, in any state: everything but the stream, and not BUF. -/

theorem loadByte_onlyStream {s t : State} (h : loadByte s = .ok t) : OnlyStream s t ∧ t.buf = s.buf := by
  unfold loadByte at h
  split_ifs at h <;> cases h <;> exact ⟨rfl, rfl⟩

theorem unpackBit_onlyStream {b : Bool} {s t : State} (h : unpackBit s = .ok (b, t)) :
    OnlyStream s t ∧ t.buf = s.buf := by
  unfold unpackBit at h
  cases hl : loadByte s with
  | error e =>
    rw [hl] at h
    cases h
  | ok u =>
    rw [hl] at h
    cases h
    obtain ⟨ho, hb⟩ := loadByte_onlyStream hl
    exact ⟨ho.trans rfl, hb⟩

theorem unpackChunk_onlyStream {d : Nat} {out r : Byte} {s t : State} (h : unpackChunk d out s = .ok (r, t)) :
    OnlyStream s t ∧ t.buf = s.buf := by
  induction d generalizing out s with
  | zero =>
    cases h
    exact ⟨rfl, rfl⟩
  | succ d ih =>
    unfold unpackChunk at h
    cases hb : unpackBit s with
    | error e =>
      rw [hb] at h
      cases h
    | ok p =>
      obtain ⟨b, u⟩ := p
      rw [hb] at h
      obtain ⟨ho, hbuf⟩ := unpackBit_onlyStream hb
      obtain ⟨ho', hbuf'⟩ := ih h
      exact ⟨ho.trans ho', hbuf'.trans hbuf⟩

theorem unpackChunks_onlyStream {ds : List Nat} {out : List Byte} {s t : State}
    (h : unpackChunks ds s = .ok (out, t)) : OnlyStream s t ∧ t.buf = s.buf := by
  induction ds generalizing out s with
  | nil =>
    cases h
    exact ⟨rfl, rfl⟩
  | cons d ds ih =>
    unfold unpackChunks at h
    cases hc : unpackChunk d 0 s with
    | error e =>
      rw [hc] at h
      cases h
    | ok p =>
      obtain ⟨r, u⟩ := p
      rw [hc] at h
      dsimp only at h
      cases hr : unpackChunks ds u with
      | error e =>
        rw [hr] at h
        cases h
      | ok q =>
        obtain ⟨rest, x⟩ := q
        rw [hr] at h
        cases h
        obtain ⟨ho, hb⟩ := unpackChunk_onlyStream hc
        obtain ⟨ho', hb'⟩ := ih hr
        exact ⟨ho.trans ho', hb'.trans hb⟩

theorem unpackValue_onlyStream {n v : Nat} {s t : State} (h : unpackValue n s = .ok (v, t)) :
    OnlyStream s t ∧ t.buf = s.buf := by
  unfold unpackValue at h
  cases hc : unpackChunks (chunkWidths n) s with
  | error e =>
    rw [hc] at h
    cases h
  | ok p =>
    rw [hc] at h
    cases h
    exact unpackChunks_onlyStream hc

end Sys2Proof.Machine
end

