-- ==== Sys2Proof/Laws/Coefficients.lean ====
section
/-! SUPPORT. The coefficient code (spec/42_codec_patch.md R140, R141, R145): the loop of CODE_PATCH sends what
`patchCode` says, and `truncateTail` zeroes the tail and nothing else. -/

namespace Sys2Proof.Machine

/-! ### The truncation -/

@[simp] theorem patchWord_truncateTail (q : Nat) (s : State) (i : Nat) :
    (truncateTail q s).patchWord i =
      if s.patchArea - q ≤ i ∧ i < s.patchArea - q + q then 0 else s.patchWord i := by
  show ((s.patch.fill (s.patchArea - q) q 0).lookup i).getD (Config.patchUnspecified s.epoch i) = _
  rw [Memory.lookup_fill]
  split_ifs <;> rfl

@[simp] theorem patchArea_truncateTail (q : Nat) (s : State) : (truncateTail q s).patchArea = s.patchArea := rfl

/-- After the truncation PATCH reads as the truncated grid (R141). -/
theorem coeff_truncateTail {q : Nat} {s : State} (hq : q ≤ s.patchArea) {i : Nat} (hi : i < s.patchArea) :
    (truncateTail q s).coeff i = truncatedGrid q s i := by
  unfold State.coeff truncatedGrid
  rw [patchWord_truncateTail]
  split_ifs <;> first | rfl | (exfalso; omega)

theorem grid_truncateTail {q : Nat} {s : State} (hq : q ≤ s.patchArea) :
    (truncateTail q s).grid = (List.range s.patchArea).map (truncatedGrid q s) :=
  List.map_congr_left fun _ hi => coeff_truncateTail hq (List.mem_range.mp hi)

/-! ### Where the end of block goes -/

/-- `endOfBlockIndex` is the least index from which every coefficient below the cutoff is zero (R145). -/
theorem endOfBlockIndex_spec (g : Nat → Int) (cutoff : Nat) :
    endOfBlockIndex g cutoff ≤ cutoff ∧ (∀ j, endOfBlockIndex g cutoff ≤ j → j < cutoff → g j = 0) ∧
      ∀ i, i < endOfBlockIndex g cutoff → ∃ j, i ≤ j ∧ j < cutoff ∧ g j ≠ 0 := by
  induction cutoff with
  | zero => exact ⟨le_refl 0, fun j _ h => absurd h (Nat.not_lt_zero j), fun i h => absurd h (Nat.not_lt_zero i)⟩
  | succ c ih =>
    obtain ⟨h1, h2, h3⟩ := ih
    unfold endOfBlockIndex
    split_ifs with h
    · refine ⟨by omega, fun j hj1 hj2 => ?_, fun i hi => ?_⟩
      · rcases Nat.lt_or_ge j c with hj | hj
        · exact h2 j hj1 hj
        · obtain rfl : j = c := by omega
          exact h
      · obtain ⟨j, a, b, d⟩ := h3 i hi
        exact ⟨j, a, by omega, d⟩
    · exact ⟨le_refl _, fun j a b => by omega, fun i hi => ⟨c, by omega, by omega, h⟩⟩

/-- A number with the three properties of `endOfBlockIndex` is it. -/
theorem endOfBlockIndex_unique {g : Nat → Int} {cutoff i0 : Nat}
    (h2 : ∀ j, i0 ≤ j → j < cutoff → g j = 0) (h3 : ∀ i, i < i0 → ∃ j, i ≤ j ∧ j < cutoff ∧ g j ≠ 0) :
    endOfBlockIndex g cutoff = i0 := by
  obtain ⟨k1, k2, k3⟩ := endOfBlockIndex_spec g cutoff
  rcases lt_trichotomy (endOfBlockIndex g cutoff) i0 with h | h | h
  · obtain ⟨j, a, b, c⟩ := h3 _ h
    exact absurd (k2 j a b) c
  · exact h
  · obtain ⟨j, a, b, c⟩ := k3 _ h
    exact absurd (h2 j a b) c

/-! ### The loop of CODE_PATCH -/

theorem take_range' (i n k : Nat) : (List.range' i n).take k = List.range' i (min k n) := by
  induction k generalizing i n with
  | zero => rw [Nat.zero_min]; rfl
  | succ k ih =>
    cases n with
    | zero => rfl
    | succ n =>
      rw [List.range'_succ, List.take_succ_cons, ih, Nat.add_min_add_right, List.range'_succ]

/-- The code of one nonzero coefficient. -/
theorem valueBits_eq (w : Nat) {v : Int} (h : v ≠ 0) : valueBits w v = coefficientCode w v := by
  unfold valueBits coefficientCode
  rw [if_neg h, fieldBits_cons, fieldBits_cons, fieldBits_nil, List.append_nil]
  congr 1
  by_cases hv : v < 0
  · rw [if_pos hv, decide_eq_true hv]
    rfl
  · rw [if_neg hv, decide_eq_false hv]
    rfl

theorem coefficientCode_zero (w : Nat) : coefficientCode w 0 = [false] := rfl

theorem zeroBits_eq : fieldBits [zeroCode] = [false] := rfl

theorem endOfBlockBits_eq : fieldBits [zeroEobCode] = [true, false] := rfl

/-- The number of bits of one coefficient's code (R140). -/
theorem length_coefficientCode (w : Nat) (v : Int) : (coefficientCode w v).length = if v = 0 then 1 else 3 + w := by
  unfold coefficientCode
  split_ifs with h
  · rfl
  · rw [List.length_append, length_wireBits]
    rfl

/-- From index `i` on, up to the end of block, the loop sends the coefficients' codes, and then the end-of-block code
unless the patch has ended. -/
theorem coeffBits_from (w : Nat) (g : Nat → Int) {cutoff area : Nat} (hca : cutoff ≤ area)
    (hz : ∀ j, cutoff ≤ j → j < area → g j = 0) (n i : Nat) (hn : n = area - i) (hi : i ≤ endOfBlockIndex g cutoff) :
    coeffBits w (cutoff - i) ((List.range' i n).map g) =
      (List.range' i (endOfBlockIndex g cutoff - i)).flatMap (fun k => coefficientCode w (g k)) ++
        (if endOfBlockIndex g cutoff < area then [true, false] else []) := by
  obtain ⟨k1, k2, k3⟩ := endOfBlockIndex_spec g cutoff
  generalize endOfBlockIndex g cutoff = e at *
  induction n generalizing i with
  | zero =>
    rw [if_neg (by omega), show e - i = 0 by omega]
    rfl
  | succ m ih =>
    rw [List.range'_succ, List.map_cons, coeffBits]
    rcases Nat.lt_or_ge i e with hlt | hge
    · have hstep := ih (i + 1) (by omega) hlt
      rw [show e - i = (e - (i + 1)) + 1 by omega, List.range'_succ, List.flatMap_cons, List.append_assoc, ← hstep,
        show cutoff - i - 1 = cutoff - (i + 1) by omega]
      by_cases h0 : g i = 0
      · rw [if_pos h0, if_neg, h0, zeroBits_eq, coefficientCode_zero]
        intro hall
        obtain ⟨j, h1, h2, h3⟩ := k3 i hlt
        rw [List.all_eq_true] at hall
        have hmem : g j ∈ (g i :: (List.range' (i + 1) m).map g).take (cutoff - i) := by
          have : g i :: (List.range' (i + 1) m).map g = (List.range' i (m + 1)).map g := by
            rw [List.range'_succ, List.map_cons]
          rw [this, ← List.map_take, take_range']
          refine List.mem_map_of_mem (List.mem_range'_1.mpr ⟨h1, ?_⟩)
          omega
        exact h3 (of_decide_eq_true (hall _ hmem))
      · rw [if_neg h0, valueBits_eq w h0]
    · obtain rfl : i = e := by omega
      have h0 : g i = 0 := by
        rcases Nat.lt_or_ge i cutoff with h | h
        · exact k2 i (le_refl i) h
        · exact hz i h (by omega)
      rw [if_pos h0, if_pos, if_pos (by omega), Nat.sub_self, endOfBlockBits_eq]
      · rfl
      · rw [List.all_eq_true]
        intro u hu
        have : g i :: (List.range' (i + 1) m).map g = (List.range' i (m + 1)).map g := by
          rw [List.range'_succ, List.map_cons]
        rw [this, ← List.map_take, take_range'] at hu
        obtain ⟨k, hk, rfl⟩ := List.mem_map.mp hu
        obtain ⟨h5, h6⟩ := List.mem_range'_1.mp hk
        exact decide_eq_true (k2 k h5 (by omega))

/-- The loop of CODE_PATCH over a truncated grid sends what R145 says. -/
theorem coeffBits_eq_patchCode (w : Nat) (g : Nat → Int) {cutoff area : Nat} (hca : cutoff ≤ area)
    (hz : ∀ j, cutoff ≤ j → j < area → g j = 0) :
    coeffBits w cutoff ((List.range area).map g) = patchCode w cutoff area g := by
  have h := coeffBits_from w g hca hz area 0 (by omega) (Nat.zero_le _)
  rw [Nat.sub_zero, Nat.sub_zero, ← List.range_eq_range', ← List.range_eq_range'] at h
  exact h

/-! ### PATCH stays in canonical form (R44) -/

/-- A patch never reaches the end of PATCH (R38). -/
theorem patchArea_le (s : State) : s.patchArea ≤ 65025 :=
  Nat.mul_le_mul (Nat.le_of_lt_succ s.curPatchSize.isLt) (Nat.le_of_lt_succ s.curPatchSize.isLt)

theorem setCoeff_wf {s : State} {i : Nat} (v : Int) (h : s.patch.wf patchWords) (hi : i < patchWords) :
    (s.setCoeff i v).patch.wf patchWords := Memory.wf_write _ h hi

theorem truncateTail_wf {s : State} {q : Nat} (h : s.patch.wf patchWords) (hq : q ≤ s.patchArea) :
    (truncateTail q s).patch.wf patchWords := by
  refine Memory.wf_fill _ h ?_
  have := patchArea_le s
  unfold patchWords
  omega

theorem decodeCoeffs_wf {w i left : Nat} {s t : State} (h : decodeCoeffs w i left s = .ok t)
    (hs : s.patch.wf patchWords) (hi : i + left ≤ patchWords) : t.patch.wf patchWords := by
  induction left generalizing i s with
  | zero =>
    cases h
    exact hs
  | succ k ih =>
    rw [decodeCoeffs] at h
    simp only [bind, Except.bind] at h
    cases h1 : unpackValue 1 s with
    | error e =>
      rw [h1] at h
      cases h
    | ok p1 =>
      rw [h1] at h
      have e1 : p1.2.patch = s.patch := (unpackValue_onlyStream (v := p1.1) h1).1.patch
      simp only [] at h
      split_ifs at h with hz
      · exact ih h (setCoeff_wf 0 (e1 ▸ hs) (by omega)) (by omega)
      · cases h2 : unpackValue 1 p1.2 with
        | error e =>
          rw [h2] at h
          cases h
        | ok p2 =>
          rw [h2] at h
          have e2 : p2.2.patch = p1.2.patch := (unpackValue_onlyStream (v := p2.1) h2).1.patch
          simp only [] at h
          split_ifs at h with hv
          · cases h
            exact Memory.wf_fill _ (e2 ▸ e1 ▸ hs) (by omega)
          · cases h3 : unpackValue 1 p2.2 with
            | error e =>
              rw [h3] at h
              cases h
            | ok p3 =>
              rw [h3] at h
              have e3 : p3.2.patch = p2.2.patch := (unpackValue_onlyStream (v := p3.1) h3).1.patch
              simp only [] at h
              cases h4 : unpackValue w p3.2 with
              | error e =>
                rw [h4] at h
                cases h
              | ok p4 =>
                rw [h4] at h
                have e4 : p4.2.patch = p3.2.patch := (unpackValue_onlyStream (v := p4.1) h4).1.patch
                exact ih h (setCoeff_wf _ (e4 ▸ e3 ▸ e2 ▸ e1 ▸ hs) (by omega)) (by omega)

end Sys2Proof.Machine
end

