-- ==== Sys2Proof/Laws/Control.lean ====
section
/-! SUPPORT. What ends a command and what carries a transaction: `conclude`, `openSession`, `raiseFault`, `regRead`
and `regWrite`, each with the lemmas that say all it can do. -/

namespace Sys2Proof.Machine

/-! ### The end of a command -/

@[simp] theorem conclude_ok (i : Instr) (s t : State) : conclude i s (.ok t) = .next t := rfl

@[simp] theorem conclude_raise (i : Instr) (s : State) (c : Cause) :
    conclude i s (.error (.raise c)) = .next (raiseFault c (encode i) s) := rfl

/-- A command that answers a next state either ran to its end or raised one fault, charged to its own word. -/
theorem conclude_next {i : Instr} {s t : State} {r : Except Stop State} (h : conclude i s r = .next t) :
    r = .ok t ∨ ∃ c, r = .error (.raise c) ∧ t = raiseFault c (encode i) s := by
  match r, h with
  | .ok u, h =>
    cases h
    exact .inl rfl
  | .error (.raise c), h =>
    cases h
    exact .inr ⟨c, rfl, rfl⟩
  | .error (.absent f), h => cases h

/-- A next state without a fault is the state the command computed. -/
theorem conclude_completes {i : Instr} {s t : State} {r : Except Stop State} (h : conclude i s r = .next t)
    (hf : t.fault = false) : r = .ok t := by
  rcases conclude_next h with h | ⟨c, -, rfl⟩
  · exact h
  · cases hf

/-- A next state with a fault, out of a safe state in which no fault survives, is a fault raised. -/
theorem conclude_faults {i : Instr} {s t : State} {r : Except Stop State} (h : conclude i s r = .next t)
    (hr : ∀ u, r = .ok u → u.fault = false) (hf : t.fault = true) :
    ∃ c, r = .error (.raise c) ∧ t = raiseFault c (encode i) s := by
  rcases conclude_next h with h | h
  · rw [hr t h] at hf
    cases hf
  · exact h

theorem conclude_eq_next_raise {i : Instr} {s : State} {r : Except Stop State} {c : Cause}
    (hr : ∀ u, r = .ok u → u.fault = false) :
    conclude i s r = .next (raiseFault c (encode i) s) ↔ r = .error (.raise c) := by
  constructor
  · intro h
    obtain ⟨c', h1, h2⟩ := conclude_faults h hr rfl
    have h3 : causeCode c = causeCode c' := congrArg State.cause h2
    rw [h1]
    cases c <;> cases c' <;> first | rfl | exact absurd h3 (by decide)
  · rintro rfl
    rfl

/-! ### Sessions -/

/-- Everything INIT_ENC and INIT_DEC can do (R121, R122). -/
theorem openSession_eq (d : Dir) (cap : BitVec 24) (s : State) :
    openSession d cap s =
      if cap.toNat ≤ s.maxCap then
        .ok { resetPrim s with capacity := cap, dir := d, codecState := .ready, curPatchSize := 0, curWordBits := 0 }
      else .error (.raise .illegalOperand) := by
  unfold openSession
  by_cases h : cap.toNat ≤ s.maxCap
  · rw [if_pos h, if_neg (by omega)]
  · rw [if_neg h, if_pos (by omega)]

/-! ### The port -/

/-- A read changes nothing but the port's response and, while Faulted, the count of unspecified values. -/
theorem regRead_frame (r : BitVec 5) (s : State) :
    regRead r s = { s with response := (regRead r s).response, draws := (regRead r s).draws } := by
  unfold regRead
  split
  · rfl
  · split <;> rfl

/-- While Faulted every write is ignored (R159). -/
theorem regWrite_of_fault (r : BitVec 5) (w : Word) {s : State} (h : s.fault = true) : regWrite r w s = .next s := by
  unfold regWrite
  rw [if_pos h]

/-- A write to CMD runs the command the word decodes to (R42). -/
theorem regWrite_cmd (w : Word) {s : State} (h : s.fault = false) : regWrite 0 w s = runCommand w s := by
  unfold regWrite
  rw [h]
  rfl

theorem runCommand_of_decode {w : Word} {i : Instr} (h : decode w = .ok i) (s : State) : runCommand w s = exec i s := by
  unfold runCommand
  rw [h]

theorem runCommand_of_illegal {w : Word} {e : IllegalWord} (h : decode w = .error e) (s : State) :
    runCommand w s = .next (raiseFault .illegalCommand w s) := by
  unfold runCommand
  rw [h]

/-- A write to a register other than CMD answers a next state (R49, R150). -/
theorem regWrite_of_ne_cmd {r : BitVec 5} (w : Word) (s : State) (h : regOfNumber r ≠ some .cmd) :
    ∃ t, regWrite r w s = .next t ∧ (t = s ∨ ∃ reg, regOfNumber r = some reg ∧ t = writeReg reg w s) := by
  unfold regWrite
  split
  · exact ⟨s, rfl, .inl rfl⟩
  · split
    · exact absurd ‹_› h
    · exact ⟨_, rfl, .inr ⟨_, ‹_›, rfl⟩⟩
    · exact ⟨s, rfl, .inl rfl⟩

end Sys2Proof.Machine
end

