-- ==== Sys2Proof/Laws/PerInstr.lean ====
section
/-! SUPPORT. Per-command facts about the command word (spec/30_encoding.md R80): its opcode field is the command's opcode,
its operand field the command's operand. -/

namespace Sys2Proof.Laws

/-- Bits 31:24 of the command's word are its opcode. -/
def OpcodeField.Statement (i : Instr) : Prop := opField (encode i) = opcodeOf i

/-- Bits 23:0 of the command's word are its operand field. -/
def OperandField.Statement (i : Instr) : Prop := argField (encode i) = argOf i

theorem opField_encode (i : Instr) : opField (encode i) = opcodeOf i := BitVec.extractLsb'_append_eq_left

theorem argField_encode (i : Instr) : argField (encode i) = argOf i := BitVec.extractLsb'_append_eq_right

theorem OpcodeField.pack (n : BitVec 6) : OpcodeField.Statement (.pack n) := opField_encode _
theorem OpcodeField.unpack (n : BitVec 6) : OpcodeField.Statement (.unpack n) := opField_encode _
theorem OpcodeField.flush : OpcodeField.Statement .flush := opField_encode _
theorem OpcodeField.bpReset : OpcodeField.Statement .bpReset := opField_encode _
theorem OpcodeField.initEnc (cap : BitVec 24) : OpcodeField.Statement (.initEnc cap) := opField_encode _
theorem OpcodeField.initDec (cap : BitVec 24) : OpcodeField.Statement (.initDec cap) := opField_encode _
theorem OpcodeField.codeGh : OpcodeField.Statement .codeGh := opField_encode _
theorem OpcodeField.decodeGh : OpcodeField.Statement .decodeGh := opField_encode _
theorem OpcodeField.codePh (large : Bool) : OpcodeField.Statement (.codePh large) := opField_encode _
theorem OpcodeField.decodePh (large : Bool) : OpcodeField.Statement (.decodePh large) := opField_encode _
theorem OpcodeField.codePatch (postquant : BitVec 16) : OpcodeField.Statement (.codePatch postquant) := opField_encode _
theorem OpcodeField.decodePatch : OpcodeField.Statement .decodePatch := opField_encode _
theorem OpcodeField.endData : OpcodeField.Statement .endData := opField_encode _

theorem OperandField.pack (n : BitVec 6) : OperandField.Statement (.pack n) := argField_encode _
theorem OperandField.unpack (n : BitVec 6) : OperandField.Statement (.unpack n) := argField_encode _
theorem OperandField.flush : OperandField.Statement .flush := argField_encode _
theorem OperandField.bpReset : OperandField.Statement .bpReset := argField_encode _
theorem OperandField.initEnc (cap : BitVec 24) : OperandField.Statement (.initEnc cap) := argField_encode _
theorem OperandField.initDec (cap : BitVec 24) : OperandField.Statement (.initDec cap) := argField_encode _
theorem OperandField.codeGh : OperandField.Statement .codeGh := argField_encode _
theorem OperandField.decodeGh : OperandField.Statement .decodeGh := argField_encode _
theorem OperandField.codePh (large : Bool) : OperandField.Statement (.codePh large) := argField_encode _
theorem OperandField.decodePh (large : Bool) : OperandField.Statement (.decodePh large) := argField_encode _
theorem OperandField.codePatch (postquant : BitVec 16) : OperandField.Statement (.codePatch postquant) := argField_encode _
theorem OperandField.decodePatch : OperandField.Statement .decodePatch := argField_encode _
theorem OperandField.endData : OperandField.Statement .endData := argField_encode _

end Sys2Proof.Laws
end

