-- ==== Sys2Proof/Laws/Width.lean ====
section
/-! SUPPORT. The downward scan of the adaptive width (spec/41_codec_headers.md R125): what `highestBit` finds and what one
turn of the loop over the coefficients does to the width. -/

namespace Sys2Proof.Machine

/-- A position the scan finds is set, in range, and the highest such. -/
theorem highestBit_some {m low count j : Nat} (h : highestBit m low count = some j) :
    low ≤ j ∧ j < low + count ∧ m.testBit j = true ∧ ∀ k, low ≤ k → k < low + count → m.testBit k = true → k ≤ j := by
  induction count with
  | zero => cases h
  | succ c ih =>
    unfold highestBit at h
    by_cases hb : m.testBit (low + c) = true
    · rw [if_pos hb] at h
      cases h
      exact ⟨by omega, by omega, hb, fun k _ hk _ => by omega⟩
    · rw [if_neg hb] at h
      obtain ⟨h1, h2, h3, h4⟩ := ih h
      refine ⟨h1, by omega, h3, fun k hk1 hk2 hk3 => ?_⟩
      rcases Nat.lt_or_ge k (low + c) with h5 | h5
      · exact h4 k hk1 h5 hk3
      · obtain rfl : k = low + c := by omega
        exact absurd hk3 hb

/-- The scan finds nothing only if nothing in range is set. -/
theorem highestBit_none {m low count : Nat} (h : highestBit m low count = none) {k : Nat} (h1 : low ≤ k)
    (h2 : k < low + count) : m.testBit k = false := by
  induction count with
  | zero => omega
  | succ c ih =>
    unfold highestBit at h
    by_cases hb : m.testBit (low + c) = true
    · rw [if_pos hb] at h
      cases h
    · rw [if_neg hb] at h
      rcases Nat.lt_or_ge k (low + c) with h5 | h5
      · exact ih h h5
      · obtain rfl : k = low + c := by omega
        exact Bool.eq_false_iff.mpr hb

/-- One turn of the loop (R125): the width does not fall, covers every bit of this coefficient in range, and if it rises
it rises to such a bit. -/
theorem raiseWidth_spec (q : BitVec 8) (w : Nat) (v : Int) :
    w ≤ raiseWidth q w v ∧
    (∀ j, scanLow q ≤ j → j ≤ scanHigh q → v.natAbs.testBit j = true → j ≤ raiseWidth q w v) ∧
    (raiseWidth q w v = w ∨
      raiseWidth q w v ≤ scanHigh q ∧ v.natAbs.testBit (raiseWidth q w v) = true) := by
  have hle : scanLow q ≤ scanHigh q := by
    unfold scanLow scanHigh
    omega
  unfold raiseWidth
  cases h : highestBit v.natAbs (scanLow q) (scanHigh q - scanLow q + 1) with
  | none =>
    refine ⟨le_refl w, fun j h1 h2 h3 => ?_, .inl rfl⟩
    rw [highestBit_none h h1 (by omega)] at h3
    cases h3
  | some k =>
    obtain ⟨h1, h2, h3, h4⟩ := highestBit_some h
    show w ≤ (if w < k then k else w) ∧
      (∀ j, scanLow q ≤ j → j ≤ scanHigh q → v.natAbs.testBit j = true → j ≤ if w < k then k else w) ∧
      ((if w < k then k else w) = w ∨
        (if w < k then k else w) ≤ scanHigh q ∧ v.natAbs.testBit (if w < k then k else w) = true)
    split_ifs with hlt
    · exact ⟨hlt.le, fun j h5 h6 h7 => h4 j h5 (by omega) h7, .inr ⟨by omega, h3⟩⟩
    · refine ⟨le_refl w, fun j h5 h6 h7 => ?_, .inl rfl⟩
      have := h4 j h5 (by omega) h7
      omega

/-- The byte CODE_PH sends: the high nibble it was given, and the width in the low nibble (R126, R130). -/
theorem withWidthNibble_toNat (q : BitVec 8) {w : Nat} (h2 : 2 ≤ w) (h17 : w ≤ 17) :
    (withWidthNibble q w).toNat = 16 * (q.toNat / 16) + (w - 2) := by
  have key : ∀ (q : BitVec 8) (k : Fin 16), ((q &&& 0xF0) ||| BitVec.ofNat 8 k.val).toNat = 16 * (q.toNat / 16) + k.val := by
    decide +kernel
  exact key q ⟨w - 2, by omega⟩

end Sys2Proof.Machine
end

