-- ==== Sys2Proof/Tests/Slice0.lean ====
section
/-! SUPPORT. Tests of one step each on small states, with expected values from the vectors of spec/95_test_vectors.md
(named `V<n>`) or from a rule's worked example, and for every statement with hypotheses a state and operands that meet
them all. -/

namespace Sys2Proof.Tests

open Sys2Proof.Machine

/-! ### The smoke test of well-formedness: each check refuses one ill-formed command (R81) -/

theorem test_wellFormed_refuses_pack_33 : (Instr.pack 33).wellFormed 15 = false := by decide
theorem test_wellFormed_refuses_unpack_33 : (Instr.unpack 33).wellFormed 15 = false := by decide
theorem test_wellFormed_refuses_initEnc_65537 : (Instr.initEnc 65537).wellFormed 15 = false := by decide
theorem test_wellFormed_refuses_initDec_65537 : (Instr.initDec 65537).wellFormed 15 = false := by decide
theorem test_wellFormed_accepts_bounds :
    (Instr.pack 32).wellFormed 15 = true ∧ (Instr.unpack 0).wellFormed 15 = true ∧
    (Instr.initEnc 65536).wellFormed 15 = true ∧ (Instr.initDec 2).wellFormed 0 = true := by decide

/-! ### Decoding: one word of every row, written out from the table of R84 and the listings of part 3 of the vectors -/

theorem test_decode_pack : decodeTableWord 32 0x0100000A = some (.pack 10) := by decide
theorem test_decode_unpack : decodeTableWord 32 0x02000003 = some (.unpack 3) := by decide
theorem test_decode_flush : decodeTableWord 32 0x03000000 = some .flush := by decide
theorem test_decode_bpReset : decodeTableWord 32 0x04000000 = some .bpReset := by decide
theorem test_decode_initEnc : decodeTableWord 32 0x10000010 = some (.initEnc 16) := by decide
theorem test_decode_initDec : decodeTableWord 32 0x11800001 = some (.initDec 0x800001) := by decide
theorem test_decode_codeGh : decodeTableWord 32 0x20000000 = some .codeGh := by decide
theorem test_decode_decodeGh : decodeTableWord 32 0x21000000 = some .decodeGh := by decide
theorem test_decode_codePh : decodeTableWord 32 0x22000001 = some (.codePh true) := by decide
theorem test_decode_decodePh : decodeTableWord 32 0x23000000 = some (.decodePh false) := by decide
theorem test_decode_codePatch : decodeTableWord 32 0x2400FE05 = some (.codePatch 0xFE05) := by decide
theorem test_decode_decodePatch : decodeTableWord 32 0x25000000 = some .decodePatch := by decide
theorem test_decode_endData : decodeTableWord 32 0x26000000 = some .endData := by decide

/-- V70, V71, V72 and the reserved opcodes of R85. -/
theorem test_decode_refuses :
    decode 0x00000000 = .error .unknownOp ∧ decode 0xFFFFFFFF = .error .unknownOp ∧
    decode 0x05000000 = .error .unknownOp ∧ decode 0x27000000 = .error .unknownOp ∧
    decode 0x03000001 = .error .nonzeroReserved ∧ decode 0x01000040 = .error .nonzeroReserved ∧
    decode 0x22000002 = .error .nonzeroReserved ∧ decode 0x24010000 = .error .nonzeroReserved := by decide

/-! ### Small states -/

/-- Does the command complete, in a state with the given property? -/
def gives (i : Instr) (s : State) (p : State → Bool) : Bool :=
  match exec i s with
  | .next t => !t.fault && p t
  | _ => false

/-- Does the command raise the fault with the given code, charged to the given word? -/
def raises (i : Instr) (s : State) (cause : Nat) (word : Nat) : Bool :=
  match exec i s with
  | .next t => t.fault && decide (t.cause.toNat = cause) && decide (t.faultCmd.toNat = word)
  | _ => false

/-- The four registers of the BitPacker as numbers. -/
def packer (s : State) : Nat × Nat × Nat × Nat :=
  (s.byteCount.toNat, s.acc.toNat, s.accBits.toNat, s.totalBits.toNat)

/-- An encode session of 8 bytes just opened. -/
def encReady : State := { State.reset with capacity := 8, dir := .enc, codecState := .ready }

/-- The same after V3: 10 bits of `0x2A5` packed. -/
def encStaged : State :=
  { encReady with buf := [(0, 0xA5)], byteCount := 1, acc := 2, accBits := 2, totalBits := 10, data := 0x2A5 }

/-- A group of 2 by 2 patches opened for encoding in a session of `cap` bytes, with the registers of V33. -/
def encGroup (cap : BitVec 24) (grid : List (Nat × BitVec 32)) : State :=
  { encReady with
    capacity := cap
    codecState := .groupOpen
    curPatchSize := 2
    patch := grid
    phRange := 0xFFFF
    phPatchIds := 0xDEADBEEF }

/-- The same with a patch header of width 2 sent. -/
def encPatch (cap : BitVec 24) (grid : List (Nat × BitVec 32)) : State :=
  { encGroup cap grid with codecState := .patchOpen, curWordBits := 2 }

/-- The grid `-1, 0, 0, 1` of V32, V33 and V50. -/
def gridA : List (Nat × BitVec 32) := [(0, 0xFFFFFFFF), (1, 0), (2, 0), (3, 1)]

/-- The grid `0, 3, 0, 2` of V52. -/
def gridB : List (Nat × BitVec 32) := [(0, 0), (1, 3), (2, 0), (3, 2)]

/-- A decode session over the given bytes. -/
def decReady (bytes : List (Nat × BitVec 8)) : State :=
  { State.reset with
    buf := bytes
    capacity := BitVec.ofNat 24 bytes.length
    dir := .dec
    codecState := .ready }

/-- A group of 2 by 2 patches opened for decoding. -/
def decGroup (bytes : List (Nat × BitVec 8)) : State :=
  { decReady bytes with codecState := .groupOpen, curPatchSize := 2 }

/-- The same with a patch header of width 2 read. -/
def decPatch (bytes : List (Nat × BitVec 8)) : State :=
  { decGroup bytes with codecState := .patchOpen, curWordBits := 2 }

/-- A Faulted state: BufferExhausted in `pack 16`, as after V14. -/
def faulted : State := { State.reset with fault := true, cause := 1, faultCmd := 0x01000010 }

/-- The bytes V33 and V50 send, flushed: a small patch header and the patch `-1, 0, 0, 1`. -/
def patchBytes : List (Nat × BitVec 8) :=
  [(0, 0), (1, 0), (2, 0), (3, 0), (4, 0), (5, 0xFF), (6, 0xFF), (7, 0xEF), (8, 0xBA), (9, 0x64)]

/-! ### One step of each command -/

/-- V3. -/
theorem test_pack_10 :
    gives (.pack 10) { encReady with data := 0x2A5 } (fun t => packer t = (1, 2, 2, 10) && t.bufByte 0 = 0xA5) = true := by
  decide

/-- V10, second command: 32 bits at an unaligned position. -/
theorem test_pack_32_unaligned :
    gives (.pack 32) { encReady with data := 0xDEADBEEF, acc := 5, accBits := 3, totalBits := 3 }
      (fun t => packer t = (4, 6, 3, 35) && t.buf = [(0, 0xBD), (1, 0xF7), (2, 0xD5), (3, 0xBB)]) = true := by
  decide

/-- V21. -/
theorem test_unpack_10 :
    gives (.unpack 10) (decReady [(0, 0xA5), (1, 0xC0)]) (fun t => packer t = (2, 0, 6, 10) && t.data = 0x3A5) = true := by
  decide

/-- V20, first command: `acc` left-aligned. -/
theorem test_unpack_3 :
    gives (.unpack 3) (decReady [(0, 0xA5), (1, 0xC0)]) (fun t => packer t = (1, 0x28, 5, 3) && t.data = 5) = true := by
  decide

/-- V4. -/
theorem test_flush_left_justifies :
    gives .flush encStaged (fun t => packer t = (2, 0, 0, 10) && t.buf = [(0, 0xA5), (1, 0x80)]) = true := by decide

/-- V80. -/
theorem test_flush_in_decode_session : raises .flush (decReady []) 6 0x03000000 = true := by decide

/-- The example of R109. -/
theorem test_bpReset_keeps_buffer :
    gives .bpReset encStaged (fun t => packer t = (0, 0, 0, 0) && t.buf = [(0, 0xA5)] && t.capacity = 8) = true := by
  decide

/-- V27. -/
theorem test_initEnc_16 :
    gives (.initEnc 16) State.reset (fun t => readReg .status t = 0x0000000A && t.capacity = 16) = true := by decide

/-- V76. -/
theorem test_initEnc_above_bound : raises (.initEnc 65537) State.reset 5 0x10010001 = true := by decide

/-- V28. -/
theorem test_initDec_14 :
    gives (.initDec 14) State.reset (fun t => readReg .status t = 0x0000000C && t.capacity = 14) = true := by decide

/-- V29. -/
theorem test_codeGh :
    gives .codeGh { encReady with ghStride := 264, ghPatchSize := 16, ghLayerType := 0x4C }
      (fun t => packer t = (4, 0, 0, 32) && t.buf = [(0, 0x08), (1, 0x01), (2, 0x10), (3, 0x4C)] &&
        t.curPatchSize = 16 && readReg .status t = 0x00000012) = true := by
  decide

/-- V29b. -/
theorem test_decodeGh :
    gives .decodeGh (decReady [(0, 0xCD), (1, 0xAB), (2, 0x02), (3, 0x37)])
      (fun t => t.ghStride = 0xABCD && t.ghPatchSize = 2 && t.ghLayerType = 0x37 && t.curPatchSize = 2 &&
        readReg .status t = 0x00000014) = true := by
  decide

/-- V16. -/
theorem test_decodeGh_short : raises .decodeGh (decReady [(0, 8), (1, 1), (2, 0x10)]) 1 0x21000000 = true := by decide

/-- V33. -/
theorem test_codePh_small :
    gives (.codePh false) (encGroup 32 gridA)
      (fun t => packer t = (8, 2, 2, 66) && t.curWordBits = 2 && t.phQuantWbits = 0 &&
        t.buf = [(0, 0), (1, 0), (2, 0), (3, 0), (4, 0), (5, 0xFF), (6, 0xFF), (7, 0xEF)]) = true := by
  decide +kernel

/-- V30, row `0xA7`: the width nibble is replaced, the high nibble kept. -/
theorem test_codePh_width :
    gives (.codePh true)
      { encGroup 32 [(0, 0xFFFFFC18), (1, 999), (2, 0), (3, 0)] with phQuantWbits := 0xA7 }
      (fun t => t.phQuantWbits = 0xA8 && t.curWordBits = 10) = true := by
  decide

/-- P4 without its group header. -/
theorem test_decodePh_large :
    gives (.decodePh true)
      (decGroup [(0, 0), (1, 0), (2, 0), (3, 0), (4, 0), (5, 0xFF), (6, 0xFF), (7, 0xEF), (8, 0xBE), (9, 0xAD), (10, 0xDE)])
      (fun t => t.phRange = 0xFFFF && t.phPatchIds = 0xDEADBEEF && t.curWordBits = 2 &&
        t.codecState = .patchOpen && packer t = (11, 0, 0, 88)) = true := by
  decide +kernel

/-- V29e. -/
theorem test_decodePh_sentinel :
    gives (.decodePh false) { decGroup [(0, 0x61)] with phRange := 7, curWordBits := 9 }
      (fun t => t.phQuantWbits = 0x61 && t.phRange = 0 && t.curWordBits = 9 && t.codecState = .closed &&
        packer t = (1, 0, 0, 8)) = true := by
  decide

/-- V50. -/
theorem test_codePatch_without_endOfBlock :
    gives (.codePatch 0) (encPatch 32 gridA) (fun t => packer t = (1, 9, 4, 12) && t.buf = [(0, 0xE9)]) = true := by decide

/-- V52. -/
theorem test_codePatch_truncates :
    gives (.codePatch 1) (encPatch 32 gridB)
      (fun t => t.buf = [(0, 0x6E)] && t.accBits = 0 && t.patch = [(0, 0), (1, 3), (2, 0), (3, 0)]) = true := by
  decide

/-- V60. -/
theorem test_decodePatch :
    gives .decodePatch (decPatch [(0, 0x6E)])
      (fun t => t.patch = [(0, 0), (1, 3), (2, 0), (3, 0)] && packer t = (1, 0, 0, 8)) = true := by
  decide

/-- V66. -/
theorem test_decodePatch_signs :
    gives .decodePatch (decPatch [(0, 0xE9), (1, 0x90)]) (fun t => t.patch = gridA && packer t = (2, 0, 4, 12)) = true := by
  decide

/-- V29d. -/
theorem test_endData :
    gives .endData { encPatch 32 gridA with acc := 6, accBits := 4 }
      (fun t => t.buf = [(0, 0x66)] && t.acc = 1 && t.accBits = 4 && t.codecState = .closed) = true := by
  decide

/-- V78. -/
theorem test_endData_in_ready : raises .endData encReady 6 0x26000000 = true := by decide

/-- The interface's fetch: the very next step runs the word (V27). -/
theorem test_step_runs_placed_word :
    (match step (State.reset.withFetchWord 32 0x10000010) with
      | .next t => decide (t.capacity = 16) && decide (t.dir = .enc) && decide (t.pending = [])
      | _ => false) = true := by
  decide

/-! ### Witnesses: for each statement with hypotheses, states and operands that meet them all -/

/-- What the command answers, as a state. -/
def after (i : Instr) (s : State) : State :=
  match exec i s with
  | .next t => t
  | _ => s

/-- An encode session with 7 bits staged and no byte written. -/
def encSeven (cap : BitVec 24) : State := { encReady with capacity := cap, acc := 0x7F, accBits := 7, totalBits := 7 }

theorem witness_DecodedWordIsTheEncoding : decode 0x0100003F = .ok (.pack 63) := by decide

/-- Both stops of R85: a word of no row, and an operand one above its bound. -/
theorem witness_DecodingIsTotalByMatchAndMask :
    State.reset.fault = false ∧ (∀ j : Instr, (0x01000040 : Word) &&& (rowOfCommand j).2 ≠ (rowOfCommand j).1) ∧
    decode 0x01000021 = .ok (.pack 33) ∧ (Instr.pack 33).wellFormed State.reset.bufAw = false := by
  refine ⟨rfl, ?_, by decide, by decide⟩
  intro j
  cases j <;> simp only [rowOfCommand] <;> decide

theorem witness_StepRunsDecodedCommand :
    (State.reset.withFetchWord 32 0x10010001).fault = false ∧
    (State.reset.withFetchWord 32 0x10010001).pending = .write 0 0x10010001 :: [] ∧
    decode 0x10010001 = .ok (.initEnc 65537) := by
  and_intros <;> decide

/-- One state for each clause: a transaction pending, and none. -/
theorem witness_StepCarriesOutNextTransaction :
    (State.reset.withFetchWord 32 0).pending = .write 0 0 :: [] ∧ State.reset.pending = [] := by
  and_intros <;> decide

/-- Each clause of the session commands and of the Faulted condition, the capacity at its bound. -/
theorem witness_ThreeResetsCompared :
    encStaged.fault = false ∧ (65536 : BitVec 24).toNat ≤ encStaged.maxCap ∧ faulted.fault = true := by
  and_intros <;> decide

theorem witness_InitOpensSession :
    (65536 : BitVec 24).toNat ≤ encStaged.maxCap ∧ encStaged.maxCap < (65537 : BitVec 24).toNat := by
  and_intros <;> decide

theorem witness_BpResetZeroesCursorsOnly : faulted.fault = true := by decide

/-- 32 bits fill the buffer of 4 bytes with 7 bits over; 0 bits fit anywhere. -/
theorem witness_PackAppendsBitsOfData :
    (encSeven 4).Operational ∧ (encSeven 4).dir = .enc ∧ (32 : BitVec 6).toNat ≤ 32 ∧ (encSeven 4).Room 32 ∧
    (encSeven 0).Operational ∧ (encSeven 0).Room 0 := by
  and_intros <;> decide

/-- The bound itself: one bit more than fits. -/
theorem witness_PackExhaustsBufferExactly :
    (encSeven 0).Operational ∧ (encSeven 0).dir = .enc ∧ (1 : BitVec 6).toNat ≤ 32 ∧
    8 * ((encSeven 0).capacity.toNat - (encSeven 0).byteCount.toNat + 1) =
      (encSeven 0).accBits.toNat + (1 : BitVec 6).toNat := by
  and_intros <;> decide

theorem witness_UnpackDeliversNextBits :
    (decReady patchBytes).Operational ∧ (decReady patchBytes).dir = .dec ∧ (32 : BitVec 6).toNat ≤ 32 ∧
    (decReady patchBytes).Available 32 ∧ (decReady []).Operational ∧ (decReady []).Available 0 := by
  and_intros <;> decide

theorem witness_UnpackExhaustsBufferExactly :
    (decReady []).Operational ∧ (decReady []).dir = .dec ∧ (1 : BitVec 6).toNat ≤ 32 ∧
    (decReady []).accBits.toNat + 8 * ((decReady []).capacity.toNat - (decReady []).byteCount.toNat) + 1 =
      (1 : BitVec 6).toNat := by
  and_intros <;> decide

/-- One state for each of the four clauses. -/
theorem witness_FlushCompletesStagedByte :
    (encReady.Operational ∧ encReady.dir = .enc ∧ encReady.accBits = 0) ∧
    (encStaged.Operational ∧ encStaged.dir = .enc ∧ encStaged.accBits ≠ 0 ∧ encStaged.byteCount < encStaged.capacity) ∧
    ((encSeven 0).Operational ∧ (encSeven 0).accBits ≠ 0 ∧ (encSeven 0).byteCount = (encSeven 0).capacity) ∧
    ((decReady []).Operational ∧ (decReady []).dir ≠ .enc) := by
  and_intros <;> decide

/-- Room to the last bit: 7 staged and 32 sent in a session of 4 bytes. -/
theorem witness_CodeGroupHeaderAppendsFields :
    (encSeven 4).Operational ∧ (encSeven 4).dir = .enc ∧ (encSeven 4).Room 32 := by
  and_intros <;> decide

theorem witness_DecodeGroupHeaderReadsFields :
    (decReady [(0, 0xCD), (1, 0xAB), (2, 2), (3, 0x37)]).Operational ∧
    (decReady [(0, 0xCD), (1, 0xAB), (2, 2), (3, 0x37)]).dir = .dec ∧
    (decReady [(0, 0xCD), (1, 0xAB), (2, 2), (3, 0x37)]).Available 32 := by
  and_intros <;> decide

/-- A coefficient of 1 by 1 patches with a bit at `maxw = 22`, one at the highest legal width, one above. -/
def wideGroup (v : BitVec 32) : State :=
  { encGroup 64 [(0, v)] with curPatchSize := 1, phQuantWbits := 0x0F }

/-- V30: 131071 comes out at width 17; and both forms at their exact sizes. -/
theorem witness_CodePatchHeaderAppendsFields :
    (wideGroup 131071).Operational ∧ (wideGroup 131071).dir = .enc ∧ (wideGroup 131071).codecState = .groupOpen ∧
    chooseWbits (wideGroup 131071).phQuantWbits (wideGroup 131071).grid = 17 ∧
    (wideGroup 131071).Room 66 ∧ (wideGroup 131071).Room 88 ∧
    (encPatch 8 gridA).codecState = .patchOpen ∧ (encPatch 8 gridA).Room 66 := by
  and_intros <;> decide

/-- V30: 131072 comes out at 18, and CODE_PH raises the fault that the last clause starts from (P6). -/
theorem witness_InvalidBitWidthExactly :
    (wideGroup 131072).Operational ∧ (wideGroup 131072).dir = .enc ∧ (wideGroup 131072).codecState = .groupOpen ∧
    chooseWbits (wideGroup 131072).phQuantWbits (wideGroup 131072).grid = 18 ∧
    raises (.codePh false) (wideGroup 131072) 2 0x22000000 = true := by
  and_intros <;> decide

theorem witness_DecodePatchHeaderReadsFields :
    (decGroup patchBytes).Operational ∧ (decGroup patchBytes).dir = .dec ∧ (decGroup patchBytes).codecState = .groupOpen ∧
    (decGroup patchBytes).upcoming 8 ≠ wireBits 97 8 ∧ (decGroup patchBytes).Available 66 ∧
    (decPatch (patchBytes ++ [(10, 0)])).codecState = .patchOpen ∧ (decPatch (patchBytes ++ [(10, 0)])).Available 88 := by
  and_intros <;> decide +kernel

theorem witness_DecodePatchHeaderStopsAtSentinel :
    (decGroup [(0, 0x61)]).Operational ∧ (decGroup [(0, 0x61)]).dir = .dec ∧
    (decGroup [(0, 0x61)]).codecState = .groupOpen ∧ (decPatch [(0, 0x61)]).codecState = .patchOpen ∧
    (decGroup [(0, 0x61)]).upcoming 8 = wireBits 97 8 ∧ (decGroup [(0, 0x61)]).Available 8 := by
  and_intros <;> decide

theorem witness_EndDataAppendsSentinel :
    (encGroup 1 gridA).Operational ∧ (encGroup 1 gridA).dir = .enc ∧ (encGroup 1 gridA).codecState = .groupOpen ∧
    (encPatch 1 gridA).codecState = .patchOpen ∧ (encGroup 1 gridA).Room 8 := by
  and_intros <;> decide

/-- `postquant` at both ends: nothing and the whole patch truncated (V50, V54). -/
theorem witness_CodePatchAppendsCoefficientCode :
    (encPatch 2 gridA).Operational ∧ (encPatch 2 gridA).dir = .enc ∧ (encPatch 2 gridA).codecState = .patchOpen ∧
    (0 : BitVec 16).toNat ≤ (encPatch 2 gridA).patchArea ∧
    (encPatch 2 gridA).Room (patchBitsOf 0 (encPatch 2 gridA)).length ∧
    (4 : BitVec 16).toNat = (encPatch 2 gridA).patchArea ∧
    (encPatch 2 gridA).Room (patchBitsOf 4 (encPatch 2 gridA)).length := by
  and_intros <;> decide

/-- V51 with `i0 = 2`, and V50 with `i0 = N`. -/
theorem witness_EndOfBlockShortcutCost :
    (encPatch 4 gridB).Operational ∧ exec (.codePatch 1) (encPatch 4 gridB) = .next (after (.codePatch 1) (encPatch 4 gridB)) ∧
    (after (.codePatch 1) (encPatch 4 gridB)).fault = false ∧ 2 ≤ (encPatch 4 gridB).patchArea - (1 : BitVec 16).toNat ∧
    (∀ j, j < 3 → 2 ≤ j → (encPatch 4 gridB).coeff j = 0) ∧
    (∀ i, i < 2 → i ≤ 1 ∧ (1 : Nat) < 3 ∧ (encPatch 4 gridB).coeff 1 ≠ 0) ∧
    exec (.codePatch 0) (encPatch 4 gridA) = .next (after (.codePatch 0) (encPatch 4 gridA)) ∧
    (after (.codePatch 0) (encPatch 4 gridA)).fault = false ∧ (encPatch 4 gridA).patchArea = 4 ∧
    (encPatch 4 gridA).coeff 3 ≠ 0 := by
  and_intros <;> first | decide | rfl

/-- V60: `0`, `110 11`, `10` is a code of four coefficients. -/
theorem witness_DecodePatchReadsCoefficientCode :
    (decPatch [(0, 0x6E)]).Operational ∧ (decPatch [(0, 0x6E)]).dir = .dec ∧ (decPatch [(0, 0x6E)]).codecState = .patchOpen ∧
    [(0 : Int), 3, 0, 0].length = (decPatch [(0, 0x6E)]).patchArea ∧
    Codes (decPatch [(0, 0x6E)]).curWordBits.toNat [0, 3, 0, 0] [false, true, true, false, true, true, true, false] ∧
    (decPatch [(0, 0x6E)]).upcoming 8 = [false, true, true, false, true, true, true, false] ∧
    (decPatch [(0, 0x6E)]).Available 8 :=
  ⟨by decide, rfl, rfl, rfl, .zero (.positive 3 (by decide) (.endOfBlock 1)), by decide, by decide⟩

/-- A patch that decodes (V60) and one that runs off the buffer. -/
theorem witness_DecodePatchDecodesOrExhausts :
    (decPatch [(0, 0x6E)]).Operational ∧ (decPatch [(0, 0x6E)]).dir = .dec ∧ (decPatch [(0, 0x6E)]).codecState = .patchOpen ∧
    raises .decodePatch (decPatch []) 1 0x25000000 = true := by
  and_intros <;> decide

/-- A coefficient the scan sees and one above `maxw` (V30, rows `0x0F`: 131071 and `2^23`). -/
theorem witness_WidthBoundAfterCodePatchHeader :
    (wideGroup 131071).Operational ∧
    exec (.codePh false) (wideGroup 131071) = .next (after (.codePh false) (wideGroup 131071)) ∧
    (after (.codePh false) (wideGroup 131071)).fault = false ∧ 0 < (wideGroup 131071).patchArea ∧
    ((wideGroup 8388607).coeff 0).natAbs < 2 ^ ((wideGroup 131071).phQuantWbits.toNat % 16 + 8) ∧
    (wideGroup 8388608).Operational ∧ (after (.codePh false) (wideGroup 8388608)).fault = false ∧
    2 ^ ((wideGroup 8388608).phQuantWbits.toNat % 16 + 8) ≤ ((wideGroup 8388608).coeff 0).natAbs := by
  and_intros <;> first | decide +kernel | rfl

/-- Each check failed first by one command, and a command that passes them all. -/
theorem witness_FaultChecksInFixedOrder :
    State.reset.Operational ∧ firstFault (.pack 33) State.reset = some .illegalOperand ∧
    firstFault (.pack 32) State.reset = some .sequenceError ∧
    (encPatch 4 gridA).Operational ∧ firstFault (.codePatch 5) (encPatch 4 gridA) = some .invalidQuantizationIndex ∧
    firstFault (.codePatch 4) (encPatch 4 gridA) = none ∧
    firstFault (.codePh false) (wideGroup 131072) = some .invalidBitWidth ∧
    decode 0x03000001 = .error .nonzeroReserved := by
  and_intros <;> decide

/-- Both clauses, at their bounds: one bit too many. -/
theorem witness_BufferExhaustedExactlyWithoutRoom :
    (encSeven 0).Operational ∧ firstFault (.pack 1) (encSeven 0) = none ∧ bitsSent (.pack 1) (encSeven 0) = some 1 ∧
    ¬ (encSeven 0).Room 1 ∧ (decReady []).Operational ∧ firstFault (.unpack 1) (decReady []) = none ∧
    bitsRead (.unpack 1) (decReady []) = some 1 ∧ ¬ (decReady []).Available 1 := by
  and_intros <;> decide

theorem witness_CommandLegalityTable :
    encReady.Operational ∧ (Instr.codePatch 0).wellFormed encReady.bufAw = true ∧
    legalIn (.codePatch 0) encReady.dir encReady.codecState = false ∧
    exec .codeGh (encSeven 4) = .next (after .codeGh (encSeven 4)) ∧ (after .codeGh (encSeven 4)).fault = false := by
  and_intros <;> first | decide | rfl

/-- The bounds on both sides, and faults that the last clause starts from. -/
theorem witness_IllegalOperandRaised :
    32 < (33 : BitVec 6).toNat ∧ State.reset.maxCap < (65537 : BitVec 24).toNat ∧ State.reset.Operational ∧
    raises (.unpack 33) State.reset 5 0x02000021 = true ∧ raises (.initDec 65537) State.reset 5 0x11010001 = true := by
  and_intros <;> decide

/-- V53, and the legal bound `postquant = N` with no room for its two bits. -/
theorem witness_InvalidQuantizationIndexRaised :
    (encPatch 4 gridA).Operational ∧ (encPatch 4 gridA).dir = .enc ∧ (encPatch 4 gridA).codecState = .patchOpen ∧
    (encPatch 4 gridA).curPatchSize.toNat ^ 2 < (5 : BitVec 16).toNat ∧
    (4 : BitVec 16).toNat = (encPatch 4 gridA).curPatchSize.toNat ^ 2 ∧
    ({ encPatch 0 gridA with acc := 0x7F, accBits := 7 } : State).Operational ∧
    raises (.codePatch 4) { encPatch 0 gridA with acc := 0x7F, accBits := 7 } 1 0x24000004 = true := by
  and_intros <;> decide

/-- Two different states that agree on what the record does not forget. -/
theorem witness_RaisedFaultForgetsState :
    State.reset ≠ encStaged ∧ State.reset.bufAw = encStaged.bufAw ∧ State.reset.pending = encStaged.pending ∧
    State.reset.response = encStaged.response ∧ State.reset.epoch = encStaged.epoch ∧ State.reset.draws = encStaged.draws := by
  and_intros <;> decide

theorem witness_FaultedConditionIsAbsorbing : faulted.fault = true ∧ faulted.Inv := by
  and_intros <;> decide

theorem witness_InvariantKeptByEveryStep :
    (encSeven 0).Inv ∧ ((encSeven 0).withFetchWord 32 0x01000001).Inv ∧
    (match step ((encSeven 0).withFetchWord 32 0x01000001) with
      | .next t => t.fault
      | _ => false) = true := by
  and_intros <;> decide

theorem witness_StepAlwaysAnswersUnderInvariant : faulted.Inv ∧ (encPatch 4 gridA).Inv := by
  and_intros <;> decide

/-- The buffer full and other contents beyond it. -/
theorem witness_BufferBeyondCapacityUntouched :
    (encSeven 1).Operational ∧ Memory.wf (w := 8) (encSeven 1).maxCap [(1, 0x55), (65535, 0xAA)] ∧
    (∀ a, a < (encSeven 1).capacity.toNat → Memory.lookup (w := 8) [(1, 0x55), (65535, 0xAA)] a = (encSeven 1).buf.lookup a) ∧
    exec (.pack 1) (encSeven 1) = .next (after (.pack 1) (encSeven 1)) ∧ (after (.pack 1) (encSeven 1)).fault = false ∧
    exec (.pack 9) (encSeven 1) = .next (after (.pack 9) (encSeven 1)) ∧ (after (.pack 9) (encSeven 1)).fault = true := by
  and_intros <;> first | decide | rfl

/-- A command that sends, one that reads, DECODE_PATCH and FLUSH. -/
theorem witness_StreamPositionLaw :
    (encSeven 1).Operational ∧ (after (.pack 1) (encSeven 1)).fault = false ∧
    bitsSent (.pack 1) (encSeven 1) = some 1 ∧
    (decGroup [(0, 0x61)]).Operational ∧ (after (.decodePh true) (decGroup [(0, 0x61)])).fault = false ∧
    bitsRead (.decodePh true) (decGroup [(0, 0x61)]) = some 8 ∧
    (decPatch [(0, 0x6E)]).Operational ∧ (after .decodePatch (decPatch [(0, 0x6E)])).fault = false ∧
    (after .decodePatch (decPatch [(0, 0x6E)])).streamPos = (decPatch [(0, 0x6E)]).streamPos + 8 ∧
    encStaged.Operational ∧ (after .flush encStaged).fault = false := by
  and_intros <;> decide

theorem witness_CommandsKeepUnnamedRegisters :
    encStaged.Operational ∧ exec .flush encStaged = .next (after .flush encStaged) ∧ (after .flush encStaged).fault = false := by
  and_intros <;> first | decide | rfl

/-- A command of each kind of store: by `Pack`, FLUSH, CODE_PATCH, DECODE_PATCH, none. -/
theorem witness_CommandsKeepUnnamedMemory :
    (encSeven 1).Operational ∧ (after (.pack 1) (encSeven 1)).fault = false ∧ bitsSent (.pack 1) (encSeven 1) = some 1 ∧
    encStaged.Operational ∧ (after .flush encStaged).fault = false ∧
    (encPatch 4 gridB).Operational ∧ (after (.codePatch 1) (encPatch 4 gridB)).fault = false ∧
    (decPatch [(0, 0x6E)]).Operational ∧ (after .decodePatch (decPatch [(0, 0x6E)])).fault = false ∧
    bitsSent .bpReset encStaged = none ∧ (after .bpReset encStaged).fault = false := by
  and_intros <;> decide

/-- Register numbers at the ends of each range, in both conditions. -/
theorem witness_RegisterAccessCornerCases :
    encReady.fault = false ∧ faulted.fault = true ∧
    (∀ r ∈ [(1 : BitVec 5), 7, 16, 17, 22, 31],
      1 ≤ r.toNat ∧ r.toNat ≤ 7 ∨ r.toNat = 16 ∨ r.toNat = 17 ∨ 22 ≤ r.toNat) ∧
    (∀ r ∈ [(0 : BitVec 5), 22, 31], r.toNat = 0 ∨ 22 ≤ r.toNat) := by
  and_intros <;> decide

theorem witness_StatusFields : encStaged.fault = false := by decide

/-- The widest and the narrowest register, and BUF_ADDR with the bits of the instance. -/
theorem witness_WrittenRegisterReadsBack :
    State.reset.fault = false ∧
    ∀ p ∈ [((8 : BitVec 5), 32), (12, 8), (18, 16), (20, 16)],
      (p.1.toNat, p.2) ∈ [(8, 32), (9, 16), (10, 8), (11, 8), (12, 8), (13, 32), (14, 16), (15, 32),
        (18, State.reset.bufAw.val + 1), (20, 16)] := by
  and_intros <;> decide

theorem witness_BufDataWindow : encStaged.fault = false := by decide
theorem witness_PatchDataWindow : (encPatch 4 gridA).fault = false := by decide

theorem witness_ReadsHaveNoSideEffect :
    encStaged.fault = false ∧
    ∀ r ∈ [(8 : BitVec 5), 15, 18, 20], 8 ≤ r.toNat ∧ r.toNat ≤ 15 ∨ r.toNat = 18 ∨ r.toNat = 20 := by
  and_intros <;> decide

/-- A decode session with unread bits in `acc`, and an encode session with a finished byte. -/
theorem witness_HostStoreTakesEffectAtOnce :
    (after (.unpack 3) (decReady patchBytes)).Operational ∧ (after (.unpack 3) (decReady patchBytes)).accBits = 5 ∧
    encStaged.Operational ∧ 7 < 8 * encStaged.byteCount.toNat := by
  and_intros <;> decide

theorem witness_HeaderSizesOnTheWire :
    (encSeven 4).Operational ∧ (after .codeGh (encSeven 4)).fault = false ∧
    (decReady patchBytes).Operational ∧ (after .decodeGh (decReady patchBytes)).fault = false ∧
    (encGroup 32 gridA).Operational ∧ (after (.codePh false) (encGroup 32 gridA)).fault = false ∧
    (after (.codePh true) (encGroup 32 gridA)).fault = false ∧ (after .endData (encGroup 32 gridA)).fault = false ∧
    (decGroup patchBytes).Operational ∧ (after (.decodePh false) (decGroup patchBytes)).codecState = .patchOpen ∧
    (decGroup (patchBytes ++ [(10, 0)])).Operational ∧
    (after (.decodePh true) (decGroup (patchBytes ++ [(10, 0)]))).codecState = .patchOpen ∧
    (after (.decodePh true) (decGroup [(0, 0x61)])).codecState = .closed := by
  and_intros <;> decide +kernel

/-- Two fields of together 35 bits in buffers of 5 bytes. -/
theorem witness_PackUnpackRoundTrip :
    State.reset.Operational ∧ (∀ f ∈ [((5 : Word), (3 : BitVec 6)), (0xDEADBEEF, 32)], f.2.toNat ≤ 32) ∧
    (5 : BitVec 24).toNat ≤ State.reset.maxCap ∧
    ([((5 : Word), (3 : BitVec 6)), (0xDEADBEEF, 32)].map (fun f => f.2.toNat)).sum ≤ 8 * (5 : BitVec 24).toNat := by
  refine ⟨by and_intros <;> decide, by simp, by decide, by decide⟩

/-- The encoder's states of the round trip: V33 and then V50. -/
def sent1 : State := after (.codePh false) (encGroup 32 gridA)

/-- After the patch. -/
def sent2 : State := after (.codePatch 0) sent1

/-- Every hypothesis of the round trip, with the small form and `postquant = 0`. -/
theorem witness_PatchRoundTrip :
    ((encGroup 32 gridA).Operational ∧ exec (.codePh false) (encGroup 32 gridA) = .next sent1 ∧ sent1.fault = false ∧
      exec (.codePatch 0) sent1 = .next sent2 ∧ sent2.fault = false ∧
      (∀ v ∈ (encGroup 32 gridA).grid, v.natAbs < 2 ^ ((encGroup 32 gridA).phQuantWbits.toNat % 16 + 8)) ∧
      sent1.phQuantWbits ≠ 97) ∧
    ((decGroup patchBytes).Operational ∧ (decGroup patchBytes).dir = .dec ∧ (decGroup patchBytes).codecState = .groupOpen ∧
      (decGroup patchBytes).curPatchSize = (encGroup 32 gridA).curPatchSize ∧
      (∀ k, k < sent2.packedPos - (encGroup 32 gridA).packedPos →
        (decGroup patchBytes).upcomingBit k = sent2.producedBit ((encGroup 32 gridA).packedPos + k)) ∧
      (decGroup patchBytes).Available (sent2.packedPos - (encGroup 32 gridA).packedPos) ∧
      sent2.packedPos - (encGroup 32 gridA).packedPos = 78) := by
  and_intros <;> first | decide +kernel | rfl

end Sys2Proof.Tests
end

section
/-! PROOFS of the family 00_scope.md (O38). The model's own stop, `Stop.absent`, is met by no command of a safe state:
packing and unpacking stop for BufferExhausted only (`packBits_error`, `unpackValue_error`), every other stop raises one
of the block's faults, and a fault raised is a next state (spec/60_exceptions.md R158). -/

namespace Sys2Proof.Machine

/-- A computation that, if it stops, stops with a fault of the block (R150), and not because an address of BUF is absent
(notes/assumptions/8.md). -/
def NeverAbsent {α : Type} (r : Except Stop α) : Prop := ∀ f, r ≠ .error (.absent f)

/-! ### What never stops at an absent address -/

theorem NeverAbsent.ok {α : Type} (a : α) : NeverAbsent (.ok a : Except Stop α) := fun _ h => by cases h

theorem NeverAbsent.raise {α : Type} (c : Cause) : NeverAbsent (.error (.raise c) : Except Stop α) :=
  fun _ h => by cases h

/-- A check of R157 in front of a computation. -/
theorem NeverAbsent.check {α : Type} {p : Prop} [Decidable p] {c : Cause} {r : Except Stop α}
    (h : ¬ p → NeverAbsent r) : NeverAbsent (if p then .error (.raise c) else r) := by
  split_ifs with hp
  · exact .raise c
  · exact h hp

theorem NeverAbsent.bind {α β : Type} {r : Except Stop α} {k : α → Except Stop β} (hr : NeverAbsent r)
    (hk : ∀ a, r = .ok a → NeverAbsent (k a)) : NeverAbsent (r >>= k) := by
  match r with
  | .ok a => exact hk a rfl
  | .error (.raise c) => exact .raise c
  | .error (.absent f) => exact absurd rfl (hr f)

theorem packBits_neverAbsent (bits : List Bool) {s : State} (hs : s.PackReady) : NeverAbsent (packBits bits s) :=
  fun _ h => by cases (packBits_error hs h).2

theorem flushPrim_neverAbsent {s : State} (hcap : s.capacity.toNat ≤ s.maxCap) : NeverAbsent (flushPrim s) := by
  rw [flushPrim_eq hcap]
  split_ifs
  · exact .ok _
  · exact .ok _
  · exact .raise _

theorem openSession_neverAbsent (d : Dir) (cap : BitVec 24) (s : State) : NeverAbsent (openSession d cap s) :=
  .check fun _ => .ok _

/-- Packing, followed by a change of registers that stops for nothing. -/
theorem packBits_bind_neverAbsent (bits : List Bool) (k : State → State) {s : State} (hs : s.PackReady) :
    NeverAbsent (packBits bits s >>= fun t => .ok (k t)) :=
  (packBits_neverAbsent bits hs).bind fun _ _ => .ok _

/-- Unpacking, followed by what runs on the stream it leaves. -/
theorem unpackValue_bind_neverAbsent (n : Nat) {β : Type} {k : Nat × State → Except Stop β} {s : State}
    (hs : s.UnpackReady) (hk : ∀ v t, t.UnpackReady → NeverAbsent (k (v, t))) :
    NeverAbsent (unpackValue n s >>= k) := by
  refine NeverAbsent.bind (fun _ h => by cases (unpackValue_error hs h).2) fun (v, t) hv => ?_
  obtain ⟨-, -, -, ht, -⟩ := unpackValue_ok hs hv
  exact hk v t ht

/-- Storing a coefficient leaves the unpacker as it is (R142). -/
theorem State.UnpackReady.setCoeff {s : State} (h : s.UnpackReady) (i : Nat) (v : Int) :
    (s.setCoeff i v).UnpackReady := h

theorem decodeCoeffs_neverAbsent (w i left : Nat) {s : State} (hs : s.UnpackReady) :
    NeverAbsent (decodeCoeffs w i left s) := by
  induction left generalizing i s with
  | zero => exact .ok s
  | succ k ih =>
    refine unpackValue_bind_neverAbsent 1 hs fun notZero s1 h1 => ?_
    dsimp only
    split_ifs
    · exact ih (i + 1) (h1.setCoeff i 0)
    · refine unpackValue_bind_neverAbsent 1 h1 fun isValue s2 h2 => ?_
      dsimp only
      split_ifs
      · exact .ok _
      · refine unpackValue_bind_neverAbsent 1 h2 fun negative s3 h3 => ?_
        exact unpackValue_bind_neverAbsent w h3 fun m s4 h4 => ih (i + 1) (h4.setCoeff i _)

/-! ### Every command, and every step, answers a next state -/

/-- A command answers a next state if it never meets an absent address: it completes, or it raises a fault (R158). -/
theorem conclude_answers (i : Instr) (s : State) {r : Except Stop State} (hr : NeverAbsent r) :
    ∃ t, conclude i s r = .next t := by
  match r with
  | .ok t => exact ⟨t, rfl⟩
  | .error (.raise c) => exact ⟨_, rfl⟩
  | .error (.absent f) => exact absurd rfl (hr f)

/-- The commands that send check their direction first, and then pack from a state that is ready for it; those that read
do the same with unpacking. -/
theorem exec_answers (i : Instr) {s : State} (hs : s.Resting) : ∃ t, exec i s = .next t := by
  have enc : ¬ s.dir ≠ .enc → s.PackReady := fun h => hs.packReady (of_not_not h)
  have dec : ¬ s.dir ≠ .dec → s.UnpackReady := fun h => hs.unpackReady (of_not_not h)
  have hcap : s.capacity.toNat ≤ s.maxCap := by
    obtain ⟨-, -, h, -⟩ := hs
    exact h
  cases i with
  | pack n => exact conclude_answers _ s <| .check fun _ => .check fun hd => packBits_neverAbsent _ (enc hd)
  | unpack n =>
    exact conclude_answers _ s <| .check fun _ => .check fun hd =>
      unpackValue_bind_neverAbsent _ (dec hd) fun _ _ _ => .ok _
  | flush => exact conclude_answers _ s <| .check fun _ => flushPrim_neverAbsent hcap
  | bpReset => exact conclude_answers .bpReset s <| .ok _
  | initEnc cap => exact conclude_answers _ s <| openSession_neverAbsent .enc cap s
  | initDec cap => exact conclude_answers _ s <| openSession_neverAbsent .dec cap s
  | codeGh => exact conclude_answers _ s <| .check fun hd => packBits_bind_neverAbsent _ _ (enc hd)
  | decodeGh =>
    exact conclude_answers _ s <| .check fun hd =>
      unpackValue_bind_neverAbsent _ (dec hd) fun _ _ h1 =>
      unpackValue_bind_neverAbsent _ h1 fun _ _ h2 =>
      unpackValue_bind_neverAbsent _ h2 fun _ _ _ => .ok _
  | codePh large =>
    refine conclude_answers _ s <| .check fun hc => .check fun _ => ?_
    have hready : s.PackReady := enc (not_or.mp hc).1
    exact packBits_bind_neverAbsent _ _ hready
  | decodePh large =>
    refine conclude_answers _ s <| .check fun hc => ?_
    refine unpackValue_bind_neverAbsent _ (dec (not_or.mp hc).1) fun _ _ h1 => ?_
    dsimp only
    split_ifs
    · exact .ok _
    · exact unpackValue_bind_neverAbsent _ h1 fun _ _ h2 =>
        unpackValue_bind_neverAbsent _ h2 fun _ _ h3 =>
        unpackValue_bind_neverAbsent _ h3 fun _ _ _ => .ok _
  | codePatch postquant =>
    refine conclude_answers _ s <| .check fun hc => .check fun _ => ?_
    have hready : s.PackReady := enc (not_or.mp hc).1
    exact packBits_neverAbsent _ hready
  | decodePatch =>
    exact conclude_answers _ s <| .check fun hc => decodeCoeffs_neverAbsent _ _ _ (dec (not_or.mp hc).1)
  | endData =>
    exact conclude_answers _ s <| .check fun hc => packBits_bind_neverAbsent _ _ (enc (not_or.mp hc).1)

/-- A word written to CMD is a command or IllegalCommand (R42, R154), and either is a next state. -/
theorem runCommand_answers (w : Word) {s : State} (hs : s.Resting) : ∃ t, runCommand w s = .next t := by
  cases hd : decode w with
  | ok i => rw [runCommand_of_decode hd]; exact exec_answers i hs
  | error e => exact ⟨_, runCommand_of_illegal hd s⟩

/-- CMD is register 0 and no other (R21). -/
theorem eq_zero_of_regOfNumber_eq_cmd {r : BitVec 5} (h : regOfNumber r = some .cmd) : r = 0 := by
  revert r
  decide

/-- A write answers a next state: ignored while Faulted (R159), a command if it is to CMD, else a store or nothing. -/
theorem regWrite_answers (r : BitVec 5) (w : Word) {s : State} (hs : s.fault = false → s.Resting) :
    ∃ t, regWrite r w s = .next t := by
  by_cases hcmd : regOfNumber r = some .cmd
  · rw [eq_zero_of_regOfNumber_eq_cmd hcmd]
    cases hf : s.fault with
    | true => exact ⟨s, regWrite_of_fault 0 w hf⟩
    | false => rw [regWrite_cmd w hf]; exact runCommand_answers w (hs hf)
  · obtain ⟨t, ht, -⟩ := regWrite_of_ne_cmd w s hcmd
    exact ⟨t, ht⟩

/-- Every transaction answers a next state (R9). -/
theorem transact_answers (x : Txn) {s : State} (hs : s.fault = false → s.Resting) : ∃ t, transact x s = .next t := by
  cases x with
  | read r => exact ⟨_, rfl⟩
  | write r w => exact regWrite_answers r w hs
  | rst => exact ⟨_, rfl⟩

/-- Accepting a transaction changes `pending` and `response`, which no part of the invariant speaks of (R69). -/
theorem accept_inv {s t : State} {x : Txn} (h : accept s = some (x, t)) (hs : s.Inv) : t.Inv := by
  unfold accept at h
  split at h
  · cases h
  · cases h
    exact hs

/-- Settles O38: what a step accepts keeps the invariant, and under it every transaction answers. -/
theorem stepAlwaysAnswersUnderInvariant : Obligations.StepAlwaysAnswersUnderInvariant := by
  intro s hs
  unfold step
  cases ha : accept s with
  | none => exact ⟨s, rfl⟩
  | some p =>
    obtain ⟨x, s1⟩ := p
    obtain ⟨-, -, hresting, -⟩ := accept_inv ha hs
    exact transact_answers x hresting

end Sys2Proof.Machine
end

section
/-! PROOFS of the family 10_state.md, part 1: the invariant (O36, O37). A safe state stays safe under everything a
command is composed of (packing, unpacking, a change of registers), so a command that completes ends in a safe state; one
that does not leaves the record of a fault and two empty memories (spec/10_state.md R45, spec/60_exceptions.md R158). -/

namespace Sys2Proof.Machine

/-! ### What a computation yields when it completes -/

/-- If the computation completes, what it yields has the property; nothing is said of one that stops. -/
def Yields {α : Type} (r : Except Stop α) (P : α → Prop) : Prop := ∀ a, r = .ok a → P a

theorem Yields.ok {α : Type} {P : α → Prop} {a : α} (h : P a) : Yields (.ok a) P := fun _ ha => by
  cases ha
  exact h

/-- A check of R157 in front of a computation. -/
theorem Yields.check {α : Type} {p : Prop} [Decidable p] {c : Cause} {r : Except Stop α} {P : α → Prop}
    (h : ¬ p → Yields r P) : Yields (if p then .error (.raise c) else r) P := by
  split_ifs with hp
  · exact fun _ ha => by cases ha
  · exact h hp

theorem Yields.bind {α β : Type} {r : Except Stop α} {k : α → Except Stop β} {Q : α → Prop} {P : β → Prop}
    (hr : Yields r Q) (hk : ∀ a, Q a → Yields (k a) P) : Yields (r >>= k) P := by
  match r with
  | .ok a => exact hk a (hr a rfl)
  | .error _ => exact fun _ h => by cases h

theorem Yields.mono {α : Type} {r : Except Stop α} {P Q : α → Prop} (hr : Yields r Q) (h : ∀ a, Q a → P a) :
    Yields r P := fun a ha => h a (hr a ha)

/-! ### The stream of a safe state -/

/-- The part of the invariant that speaks of the stream (R45 (a), (b), (c), R34). -/
abbrev State.StreamResting (s : State) : Prop :=
  s.accBits.toNat ≤ 7 ∧ s.byteCount ≤ s.capacity ∧ accCanonical s = true ∧ (s.accBits = 0 → s.acc = 0) ∧
    (s.dir = .dec → s.accBits.toNat ≤ 8 * s.byteCount.toNat)

theorem State.Operational.resting {s : State} (hs : s.Operational) : s.Resting := by
  obtain ⟨hf, -, -, hrest, -⟩ := hs
  exact hrest hf

theorem State.Operational.buf_wf {s : State} (hs : s.Operational) : s.buf.wf s.maxCap := by
  obtain ⟨-, hbuf, -⟩ := hs
  exact hbuf

theorem State.Operational.patch_wf {s : State} (hs : s.Operational) : s.patch.wf patchWords := by
  obtain ⟨-, -, hpatch, -⟩ := hs
  exact hpatch

/-- A change of the stream alone keeps a state safe if BUF and the stream are left as the invariant asks. -/
theorem OnlyStream.operational {s t : State} (ho : OnlyStream s t) (hs : s.Operational)
    (hbuf : t.buf.wf t.maxCap) (ht : t.StreamResting) : t.Operational := by
  obtain ⟨-, -, hcap, -, -, hidle, hwidth, hrecord, haddr, -⟩ := hs.resting
  obtain ⟨hf, -, hpatch, -, hcause⟩ := hs
  obtain ⟨hbits, hcount, hcanon, hempty, hdec⟩ := ht
  rw [ho] at hbuf hbits hcount hcanon hempty hdec ⊢
  exact ⟨hf, hbuf, hpatch,
    fun _ => ⟨hbits, hcount, hcap, hcanon, hempty, hidle, hwidth, hrecord, haddr, hdec⟩, hcause⟩

theorem State.PackReady.streamResting {s : State} (h : s.PackReady) (hd : s.dir = .enc) : s.StreamResting := by
  obtain ⟨hbits, hcount, -, hacc⟩ := h
  refine ⟨hbits, hcount, by simpa [accCanonical, hd] using hacc, fun h0 => ?_, fun h => ?_⟩
  · rw [h0] at hacc
    exact BitVec.eq_of_toNat_eq (Nat.lt_one_iff.mp hacc)
  · rw [hd] at h
    cases h

theorem State.UnpackReady.streamResting {s : State} (h : s.UnpackReady) (hd : s.dir = .dec)
    (hloaded : s.accBits.toNat ≤ 8 * s.byteCount.toNat) : s.StreamResting := by
  obtain ⟨hbits, hcount, -, hacc⟩ := h
  refine ⟨hbits, hcount, by simpa [accCanonical, hd] using hacc, fun h0 => ?_, fun _ => hloaded⟩
  rw [h0] at hacc
  exact BitVec.eq_of_toNat_eq ((Nat.mod_eq_of_lt s.acc.isLt).symm.trans hacc)

/-- An empty BitPacker is at rest in every direction (R105). -/
theorem streamResting_of_empty {s : State} (hcount : s.byteCount = 0) (hacc : s.acc = 0) (hbits : s.accBits = 0) :
    s.StreamResting := by
  have hle : s.byteCount ≤ s.capacity := by
    rw [hcount, BitVec.le_def]
    exact Nat.zero_le _
  refine ⟨by simp [hbits], hle, ?_, fun _ => hacc, fun _ => by simp [hbits]⟩
  cases hd : s.dir <;> simp [accCanonical, hd, hacc, hbits]

/-! ### Packing and unpacking keep a state safe -/

theorem packBits_operational (bits : List Bool) {s : State} (hs : s.Operational) (hd : s.dir = .enc) :
    Yields (packBits bits s) fun t => t.Operational ∧ OnlyStream s t := by
  intro t h
  obtain ⟨-, ho, -, hready⟩ := packBits_ok (hs.resting.packReady hd) h
  exact ⟨ho.operational hs (packBits_wf h hs.buf_wf) (hready.streamResting (ho.dir.trans hd)), ho⟩

theorem unpackValue_operational (n : Nat) {s : State} (hs : s.Operational) (hd : s.dir = .dec) :
    Yields (unpackValue n s) fun p => p.2.Operational ∧ p.2.dir = .dec := by
  rintro ⟨v, t⟩ h
  obtain ⟨-, ho, hcons, hready, -⟩ := unpackValue_ok (hs.resting.unpackReady hd) h
  obtain ⟨-, -, -, -, -, -, -, -, -, hloaded⟩ := hs.resting
  have hpos := hcons.position
  have hbefore := hloaded hd
  have hdir : t.dir = .dec := ho.dir.trans hd
  have hbuf : t.buf.wf t.maxCap := by
    rw [hcons.buffer, ho.maxCap]
    exact hs.buf_wf
  exact ⟨ho.operational hs hbuf (hready.streamResting hdir (by omega)), hdir⟩

/-- Unpacking, followed by what runs on the stream it leaves. -/
theorem unpackValue_bind_yields (n : Nat) {β : Type} {k : Nat × State → Except Stop β} {P : β → Prop} {s : State}
    (hs : s.Operational) (hd : s.dir = .dec)
    (hk : ∀ v t, t.Operational → t.dir = .dec → Yields (k (v, t)) P) : Yields (unpackValue n s >>= k) P :=
  (unpackValue_operational n hs hd).bind fun ⟨v, t⟩ ⟨ht, hdir⟩ => hk v t ht hdir

theorem flushPrim_operational {s : State} (hs : s.Operational) (hd : s.dir = .enc) :
    Yields (flushPrim s) State.Operational := by
  intro t h
  obtain ⟨hbits, hcount, hcap, hacc⟩ := hs.resting.packReady hd
  have ho := flushPrim_onlyStream h
  have hbuf := flushPrim_wf h hs.buf_wf
  refine ho.operational hs hbuf (State.PackReady.streamResting ?_ (ho.dir.trans hd))
  rw [flushPrim_eq hcap] at h
  split_ifs at h with h0 hroom
  · cases h
    exact ⟨hbits, hcount, hcap, hacc⟩
  · cases h
    have hsucc := byteCount_succ_toNat hroom
    have hlt : s.byteCount.toNat < s.capacity.toNat := BitVec.lt_def.mp hroom
    exact ⟨by simp, BitVec.le_def.mpr (by simp only [withByteStored_byteCount, withByteStored_capacity]; omega), hcap,
      by simp⟩

/-! ### The other changes a command makes -/

theorem resetPrim_operational {s : State} (hs : s.Operational) : (resetPrim s).Operational :=
  OnlyStream.operational rfl hs hs.buf_wf (streamResting_of_empty rfl rfl rfl)

/-- A session that is opened starts from an empty BitPacker (R121, R122). -/
theorem openSession_operational {d : Dir} (cap : BitVec 24) {s : State} (hs : s.Operational) (hd : d ≠ .none) :
    Yields (openSession d cap s) State.Operational := by
  refine Yields.check fun hcap => Yields.ok ?_
  obtain ⟨-, -, -, -, -, -, -, hrecord, haddr, -⟩ := hs.resting
  obtain ⟨hf, hbuf, hpatch, -, hcause⟩ := hs
  refine ⟨hf, hbuf, hpatch, fun _ => ?_, hcause⟩
  obtain ⟨h1, h2, h3, h4, h5⟩ := streamResting_of_empty (s := { resetPrim s with
    capacity := cap, dir := d, codecState := .ready, curPatchSize := 0, curWordBits := 0 }) rfl rfl rfl
  exact ⟨h1, h2, Nat.le_of_not_lt hcap, h3, h4, iff_of_false hd nofun, nofun, hrecord, haddr, h5⟩

/-- Within a session the codec may go to any state but Idle, if a width in range stands beside PatchOpen (R45 (d),
(e)). -/
theorem State.Operational.withCodecState {s : State} (hs : s.Operational) (hd : s.dir ≠ .none) {c : CodecState}
    {w : BitVec 5} (hc : c ≠ .idle) (hw : c = .patchOpen → 2 ≤ w.toNat ∧ w.toNat ≤ 17) :
    State.Operational { s with codecState := c, curWordBits := w } := by
  obtain ⟨hbits, hcount, hcap, hcanon, hempty, -, -, hrecord, haddr, hdec⟩ := hs.resting
  obtain ⟨hf, hbuf, hpatch, -, hcause⟩ := hs
  exact ⟨hf, hbuf, hpatch, fun _ =>
    ⟨hbits, hcount, hcap, hcanon, hempty, iff_of_false hd hc, hw, hrecord, haddr, hdec⟩, hcause⟩

/-- PATCH may take any contents in canonical form (R44). -/
theorem State.Operational.withPatch {s : State} (hs : s.Operational) {m : Memory 32} (hm : m.wf patchWords) :
    State.Operational { s with patch := m } := by
  obtain ⟨hf, hbuf, -, hrest, hcause⟩ := hs
  exact ⟨hf, hbuf, hm, hrest, hcause⟩

theorem curWordBits_in_range {w : Nat} (h2 : 2 ≤ w) (h17 : w ≤ 17) :
    2 ≤ (BitVec.ofNat 5 w).toNat ∧ (BitVec.ofNat 5 w).toNat ≤ 17 := by
  rw [BitVec.toNat_ofNat]
  omega

/-- The loop of DECODE_PATCH keeps a state safe as long as it stays inside PATCH (R142). -/
theorem decodeCoeffs_operational (w i left : Nat) {s : State} (hs : s.Operational) (hd : s.dir = .dec)
    (hi : i + left ≤ patchWords) : Yields (decodeCoeffs w i left s) State.Operational := by
  induction left generalizing i s with
  | zero => exact .ok hs
  | succ k ih =>
    refine unpackValue_bind_yields 1 hs hd fun notZero s1 h1 hd1 => ?_
    dsimp only
    split_ifs
    · exact ih (i + 1) (h1.withPatch (setCoeff_wf 0 h1.patch_wf (by omega))) hd1 (by omega)
    · refine unpackValue_bind_yields 1 h1 hd1 fun isValue s2 h2 hd2 => ?_
      dsimp only
      split_ifs
      · exact .ok (h2.withPatch (Memory.wf_fill _ h2.patch_wf (by omega)))
      · refine unpackValue_bind_yields 1 h2 hd2 fun negative s3 h3 hd3 => ?_
        refine unpackValue_bind_yields w h3 hd3 fun m s4 h4 hd4 => ?_
        exact ih (i + 1) (h4.withPatch (setCoeff_wf _ h4.patch_wf (by omega))) hd4 (by omega)

/-! ### Every step keeps the invariant -/

/-- The causes are numbered 1 to 6 (R150). -/
theorem causeCode_in_range (c : Cause) : 1 ≤ (causeCode c).toNat ∧ (causeCode c).toNat ≤ 6 := by
  cases c <;> decide

/-- After a fault the record holds one of the six causes and both memories list nothing (R150, R158). -/
theorem raiseFault_inv (c : Cause) (w : Word) (s : State) : (raiseFault c w s).Inv :=
  ⟨Memory.wf_nil _, Memory.wf_nil _, nofun, fun _ => causeCode_in_range c⟩

theorem conclude_inv {i : Instr} {s t : State} {r : Except Stop State} (hr : Yields r State.Operational)
    (h : conclude i s r = .next t) : t.Inv := by
  rcases conclude_next h with hok | ⟨c, -, rfl⟩
  · exact (hr t hok).2
  · exact raiseFault_inv c _ s

/-- A command that sends: packing, then a move of the codec to another state of its session. -/
theorem packBits_bind_operational (bits : List Bool) {k : State → State} {s : State} (hs : s.Operational)
    (hd : s.dir = .enc) (hk : ∀ t, t.Operational → t.dir ≠ .none → (k t).Operational) :
    Yields (packBits bits s >>= fun t => .ok (k t)) State.Operational :=
  (packBits_operational bits hs hd).bind fun t ⟨ht, ho⟩ => .ok (hk t ht (by rw [ho.dir, hd]; decide))

theorem dir_ne_none_of_dec {s : State} (h : s.dir = .dec) : s.dir ≠ .none := by
  rw [h]
  decide

theorem exec_inv (i : Instr) {s t : State} (hs : s.Operational) (h : exec i s = .next t) : t.Inv := by
  cases i with
  | pack n =>
    refine conclude_inv (.check fun _ => .check fun hd => ?_) h
    exact (packBits_operational _ hs (of_not_not hd)).mono fun _ ht => ht.1
  | unpack n =>
    refine conclude_inv (.check fun _ => .check fun hd => ?_) h
    exact unpackValue_bind_yields _ hs (of_not_not hd) fun _ _ h1 _ => .ok h1
  | flush => exact conclude_inv (.check fun hd => flushPrim_operational hs (of_not_not hd)) h
  | bpReset => exact conclude_inv (i := .bpReset) (s := s) (.ok (resetPrim_operational hs)) h
  | initEnc cap => exact conclude_inv (openSession_operational cap hs (by decide)) h
  | initDec cap => exact conclude_inv (openSession_operational cap hs (by decide)) h
  | codeGh =>
    refine conclude_inv (.check fun hd => ?_) h
    exact packBits_bind_operational _ hs (of_not_not hd) fun _ h1 hd1 =>
      h1.withCodecState hd1 nofun nofun
  | decodeGh =>
    refine conclude_inv (.check fun hd => ?_) h
    exact unpackValue_bind_yields _ hs (of_not_not hd) fun _ _ h1 hd1 =>
      unpackValue_bind_yields _ h1 hd1 fun _ _ h2 hd2 =>
      unpackValue_bind_yields _ h2 hd2 fun _ _ h3 hd3 =>
      .ok (h3.withCodecState (dir_ne_none_of_dec hd3) nofun nofun)
  | codePh large =>
    refine conclude_inv (.check fun hd => .check fun hw => ?_) h
    obtain ⟨h2, h17⟩ := not_or.mp hw
    have hs1 : State.Operational { s with
        phQuantWbits := withWidthNibble s.phQuantWbits (chooseWbits s.phQuantWbits s.grid) } := hs
    exact packBits_bind_operational _ hs1 (of_not_not (not_or.mp hd).1) fun _ h1 hd1 =>
      h1.withCodecState hd1 (by decide) fun _ => curWordBits_in_range (Nat.le_of_not_lt h2) (Nat.le_of_not_lt h17)
  | decodePh large =>
    refine conclude_inv (.check fun hd => ?_) h
    refine unpackValue_bind_yields _ hs (of_not_not (not_or.mp hd).1) fun v s1 h1 hd1 => ?_
    dsimp only
    split_ifs
    · exact .ok (h1.withCodecState (dir_ne_none_of_dec hd1) nofun nofun)
    · refine unpackValue_bind_yields _ h1 hd1 fun _ s2 h2 hd2 => ?_
      refine unpackValue_bind_yields _ h2 hd2 fun _ s3 h3 hd3 => ?_
      refine unpackValue_bind_yields _ h3 hd3 fun _ s4 h4 hd4 => ?_
      refine .ok (h4.withCodecState (dir_ne_none_of_dec hd4) (by decide) fun _ => ?_)
      exact curWordBits_in_range (by unfold headerWidth; omega) (by unfold headerWidth; omega)
  | codePatch postquant =>
    refine conclude_inv (.check fun hd => .check fun hq => ?_) h
    have hs1 : (truncateTail postquant.toNat s).Operational :=
      hs.withPatch (truncateTail_wf hs.patch_wf (Nat.le_of_not_lt hq))
    exact (packBits_operational _ hs1 (of_not_not (not_or.mp hd).1)).mono fun _ ht => ht.1
  | decodePatch =>
    refine conclude_inv (.check fun hd => ?_) h
    have harea := patchArea_le s
    exact decodeCoeffs_operational _ 0 _ hs (of_not_not (not_or.mp hd).1) (by unfold patchWords; omega)
  | endData =>
    refine conclude_inv (.check fun hd => ?_) h
    exact packBits_bind_operational _ hs (of_not_not (not_or.mp hd).1) fun _ h1 hd1 =>
      h1.withCodecState hd1 nofun nofun

theorem maxCap_pos (s : State) : 0 < s.maxCap := Nat.two_pow_pos _

/-- `BUF_AW` is at most 23, the width BUF_ADDR is held in (R5; notes/assumptions/9.md). -/
theorem maxCap_le (s : State) : s.maxCap ≤ 2 ^ 23 := Nat.pow_le_pow_right (by norm_num) s.bufAw.isLt

/-- BUF_ADDR takes the low `BUF_AW` bits of what is written (R40). -/
theorem writeReg_bufAddr_toNat (w : Word) (s : State) : (writeReg .bufAddr w s).bufAddr.toNat = w.toNat % s.maxCap := by
  have hlt := Nat.mod_lt w.toNat (maxCap_pos s)
  have hle := maxCap_le s
  show (BitVec.ofNat 23 (w.toNat % s.maxCap)).toNat = _
  rw [BitVec.toNat_ofNat, Nat.mod_eq_of_lt (by omega)]

/-- A store to a register keeps the invariant: it goes to a register the invariant does not name, to BUF_ADDR within
`BUF_AW` bits, or to an address that exists (R40, R41). -/
theorem writeReg_inv (reg : Reg) (w : Word) {s : State} (hs : s.Inv) : (writeReg reg w s).Inv := by
  obtain ⟨hbuf, hpatch, hrest, hcause⟩ := hs
  cases reg with
  | bufAddr =>
    refine ⟨hbuf, hpatch, fun hf => ?_, hcause⟩
    obtain ⟨h1, h2, h3, h4, h5, h6, h7, h8, -, h10⟩ := hrest hf
    have haddr : (writeReg .bufAddr w s).bufAddr.toNat < s.maxCap := by
      rw [writeReg_bufAddr_toNat]
      exact Nat.mod_lt _ (maxCap_pos s)
    exact ⟨h1, h2, h3, h4, h5, h6, h7, h8, haddr, h10⟩
  | bufData => exact ⟨Memory.wf_write _ hbuf (Nat.mod_lt _ (maxCap_pos s)), hpatch, hrest, hcause⟩
  | patchData => exact ⟨hbuf, Memory.wf_write _ hpatch s.patchAddr.isLt, hrest, hcause⟩
  | _ => exact ⟨hbuf, hpatch, hrest, hcause⟩

theorem regRead_inv (r : BitVec 5) {s : State} (hs : s.Inv) : (regRead r s).Inv := by
  rw [regRead_frame]
  exact hs

theorem runCommand_inv {w : Word} {s t : State} (hs : s.Operational) (h : runCommand w s = .next t) : t.Inv := by
  cases hd : decode w with
  | ok i =>
    rw [runCommand_of_decode hd] at h
    exact exec_inv i hs h
  | error e =>
    rw [runCommand_of_illegal hd] at h
    cases h
    exact raiseFault_inv _ w s

theorem regWrite_inv {r : BitVec 5} {w : Word} {s t : State} (hs : s.Inv) (h : regWrite r w s = .next t) : t.Inv := by
  by_cases hcmd : regOfNumber r = some .cmd
  · rw [eq_zero_of_regOfNumber_eq_cmd hcmd] at h
    cases hf : s.fault with
    | true =>
      rw [regWrite_of_fault 0 w hf] at h
      cases h
      exact hs
    | false =>
      rw [regWrite_cmd w hf] at h
      exact runCommand_inv ⟨hf, hs⟩ h
  · obtain ⟨u, hu, hcases⟩ := regWrite_of_ne_cmd w s hcmd
    rw [h] at hu
    cases hu
    rcases hcases with rfl | ⟨reg, -, rfl⟩
    · exact hs
    · exact writeReg_inv reg w hs

/-- The state of R48 for any `BUF_AW`, whatever the model's own fields are. -/
def resetState (p : BufAw) (ts : List Txn) (epoch draws : Nat) : State :=
  { State.reset with bufAw := p, pending := ts, epoch := epoch, draws := draws }

theorem reset_eq_resetState : State.reset = resetState suggestedBufAw [] 0 0 := rfl

theorem hardwareReset_eq_resetState (s : State) :
    hardwareReset s = resetState s.bufAw s.pending (s.epoch + 1) s.draws := rfl

/-- After reset nothing is listed, the BitPacker is empty and there is no session (R48). -/
theorem resetState_inv (p : BufAw) (ts : List Txn) (epoch draws : Nat) : (resetState p ts epoch draws).Inv := by
  refine ⟨Memory.wf_nil _, Memory.wf_nil _, fun _ => ?_, nofun⟩
  obtain ⟨h1, h2, h3, h4, h5⟩ := streamResting_of_empty (s := resetState p ts epoch draws) rfl rfl rfl
  exact ⟨h1, h2, Nat.zero_le _, h3, h4, iff_of_true rfl rfl, nofun, ⟨rfl, rfl⟩, maxCap_pos _, h5⟩

theorem transact_inv {x : Txn} {s t : State} (hs : s.Inv) (h : transact x s = .next t) : t.Inv := by
  cases x with
  | read r =>
    cases h
    exact regRead_inv r hs
  | write r w => exact regWrite_inv hs h
  | rst =>
    cases h
    rw [hardwareReset_eq_resetState]
    exact resetState_inv _ _ _ _

/-- Settles O36: a step accepts a transaction, which the invariant does not notice, and carries it out, by
`transact_inv`. -/
theorem invariantKeptByEveryStep : Obligations.InvariantKeptByEveryStep := by
  intro s t hs h
  unfold step at h
  cases ha : accept s with
  | none =>
    rw [ha] at h
    cases h
    exact hs
  | some p =>
    rw [ha] at h
    exact transact_inv (accept_inv ha hs) h

/-- Settles O37. -/
theorem invariantHoldsAfterReset : Obligations.InvariantHoldsAfterReset := by
  unfold Obligations.InvariantHoldsAfterReset
  rw [reset_eq_resetState]
  exact resetState_inv _ _ _ _

end Sys2Proof.Machine
end

section
/-! PROOFS of the family 10_state.md, part 2: the step, reset and the register port (O5 to O7, O43 to O47).
While no fault is pending a transaction is `readReg` or `writeReg` of the register its number names; each register has
one lemma that says what a store to it leaves it reading as (spec/10_state.md R21, R31, R40, R41, R49). -/

namespace Sys2Proof.Machine

/-! ### The step -/

/-- A step carries out the transaction it takes off the list (R9, R69). -/
theorem step_of_pending {s : State} {x : Txn} {rest : List Txn} (h : s.pending = x :: rest) :
    step s = transact x { s with pending := rest, response := none } := by
  simp [step, accept, h]

theorem step_of_idle {s : State} (h : s.pending = []) : step s = .next s := by
  simp [step, accept, h]

/-- Settles O5: the transaction is a write to CMD, which runs the command the word decodes to. -/
theorem stepRunsDecodedCommand : Obligations.StepRunsDecodedCommand := by
  intro s w rest i hf hp hd
  have hcmd := regWrite_cmd w (s := { s with pending := rest, response := none }) hf
  exact (step_of_pending hp).trans (hcmd.trans (runCommand_of_decode hd _))

/-- Settles O6: the two cases of the list of transactions. -/
theorem stepCarriesOutNextTransaction : Obligations.StepCarriesOutNextTransaction :=
  ⟨fun _ _ _ => step_of_pending, fun _ => step_of_idle⟩

/-! ### Reset -/

/-- R48 of the state after reset: a memory that lists nothing reads as the free values of its epoch. -/
theorem resetState_resetValues (p : BufAw) (ts : List Txn) (epoch draws : Nat) :
    ResetValues (resetState p ts epoch draws) := by
  refine ⟨⟨rfl, rfl, rfl⟩, rfl, rfl, rfl, ⟨rfl, rfl, rfl, rfl⟩, ⟨rfl, rfl⟩, ⟨rfl, rfl, rfl, rfl⟩,
    ⟨rfl, rfl, rfl, rfl⟩, ⟨rfl, rfl⟩, fun _ => rfl, fun _ => rfl, ?_⟩
  show 0#16 ++ 0#8 ++ 0#2 ++ stateCode .idle ++ dirCode .none ++ BitVec.ofBool false = 0
  decide

/-- Settles O7: `State.reset` and the state after `rst` are both a `resetState`. -/
theorem hardwareResetGivesResetValues : Obligations.HardwareResetGivesResetValues := by
  refine ⟨?_, fun s => ⟨hardwareReset s, rfl, ?_, rfl, rfl⟩⟩
  · rw [reset_eq_resetState]
    exact resetState_resetValues _ _ _ _
  · rw [hardwareReset_eq_resetState]
    exact resetState_resetValues _ _ _ _

/-! ### Transactions while no fault is pending -/

section
variable {s : State} {r : BitVec 5} {reg : Reg}

theorem transact_read_reg (hf : s.fault = false) (hr : regOfNumber r = some reg) :
    transact (.read r) s = .next { s with response := some (readReg reg s) } := by
  simp [transact, regRead, hf, hr]

theorem transact_read_unassigned (hf : s.fault = false) (hr : regOfNumber r = none) :
    transact (.read r) s = .next { s with response := some 0 } := by
  simp [transact, regRead, hf, hr]

theorem transact_write_reg (w : Word) (hf : s.fault = false) (hr : regOfNumber r = some reg) (hcmd : reg ≠ .cmd) :
    transact (.write r w) s = .next (writeReg reg w s) := by
  cases reg with
  | cmd => exact absurd rfl hcmd
  | _ => simp [transact, regWrite, hf, hr]

theorem transact_write_unassigned (w : Word) (hf : s.fault = false) (hr : regOfNumber r = none) :
    transact (.write r w) s = .next s := by
  simp [transact, regWrite, hf, hr]

end

/-! ### The corner cases of R49 -/

/-- The registers other than CMD that the host cannot write (R21). -/
def Reg.readOnly (r : Reg) : Bool :=
  match r with
  | .status | .faultCmd | .capacity | .byteCount | .acc | .accBits | .totalBits | .curPatchSize | .curWordBits => true
  | _ => false

theorem writeReg_of_readOnly {reg : Reg} (h : reg.readOnly = true) (w : Word) (s : State) : writeReg reg w s = s := by
  cases reg <;> first | rfl | cases h

/-- The numbers R21 gives to read-only registers and those it leaves unassigned. -/
theorem regOfNumber_all_readOnly (r : BitVec 5)
    (h : 1 ≤ r.toNat ∧ r.toNat ≤ 7 ∨ r.toNat = 16 ∨ r.toNat = 17 ∨ 22 ≤ r.toNat) :
    (regOfNumber r).all Reg.readOnly = true := by
  revert r
  decide

theorem transact_write_ignored {s : State} {r : BitVec 5} (w : Word) (hf : s.fault = false)
    (h : 1 ≤ r.toNat ∧ r.toNat ≤ 7 ∨ r.toNat = 16 ∨ r.toNat = 17 ∨ 22 ≤ r.toNat) :
    transact (.write r w) s = .next s := by
  have hro := regOfNumber_all_readOnly r h
  cases hr : regOfNumber r with
  | none => exact transact_write_unassigned w hf hr
  | some reg =>
    rw [hr, Option.all_some] at hro
    rw [transact_write_reg w hf hr (by rintro rfl; cases hro), writeReg_of_readOnly hro]

theorem regOfNumber_eq_none {r : BitVec 5} (h : 22 ≤ r.toNat) : regOfNumber r = none := by
  revert r
  decide

/-- CMD and the unassigned registers read 0. -/
theorem transact_read_zero {s : State} {r : BitVec 5} (hf : s.fault = false) (h : r.toNat = 0 ∨ 22 ≤ r.toNat) :
    transact (.read r) s = .next { s with response := some 0 } := by
  rcases h with h0 | h22
  · obtain rfl : r = 0 := BitVec.eq_of_toNat_eq h0
    exact transact_read_reg (r := 0) (reg := .cmd) hf rfl
  · exact transact_read_unassigned hf (regOfNumber_eq_none h22)

/-- STATUS while Faulted shows the record in bits 0 and 15:8, whatever the free word is (R31, R49). -/
theorem faultedStatusWord_record (u : Word) (s : State) :
    (faultedStatusWord u s).getLsbD 0 = s.fault ∧ (faultedStatusWord u s).extractLsb' 8 8 = s.cause := by
  unfold faultedStatusWord
  constructor
  · rw [BitVec.getLsbD_append, if_pos (by decide)]
    simp
  · refine BitVec.eq_of_getLsbD_eq fun i hi => ?_
    simp only [BitVec.getLsbD_extractLsb', BitVec.getLsbD_append, hi, decide_true, Bool.true_and]
    rw [if_neg (by omega), if_neg (by omega), if_pos (by omega)]
    congr 1
    omega

/-- Settles O43. While Faulted a read answers `readFaulted`, which for STATUS and FAULT_CMD is the record. -/
theorem registerAccessCornerCases : Obligations.RegisterAccessCornerCases := by
  refine ⟨fun s r w hf => ⟨transact_write_ignored w hf, transact_read_zero hf⟩, fun s r w hf => ?_⟩
  refine ⟨regWrite_of_fault r w hf, _, readFaulted (regOfNumber r) (Config.faultedRead s.draws) s, rfl, ?_, ?_, ?_⟩
  · simp [regRead, hf]
  · intro h1
    obtain rfl : r = 1 := BitVec.eq_of_toNat_eq h1
    exact faultedStatusWord_record _ s
  · intro h2
    obtain rfl : r = 2 := BitVec.eq_of_toNat_eq h2
    rfl

/-! ### STATUS -/

/-- The fields of STATUS stand at the places R31 gives them. -/
theorem statusWord_fields (s : State) :
    (statusWord s).getLsbD 0 = s.fault ∧ (statusWord s).extractLsb' 1 2 = dirCode s.dir ∧
      (statusWord s).extractLsb' 3 3 = stateCode s.codecState ∧ (statusWord s).extractLsb' 6 2 = 0 ∧
      (statusWord s).extractLsb' 8 8 = s.cause ∧ (statusWord s).extractLsb' 16 16 = 0 := by
  unfold statusWord
  refine ⟨?_, ?_, ?_, ?_, ?_, ?_⟩
  · rw [BitVec.getLsbD_append, if_pos (by decide)]
    simp
  all_goals
    refine BitVec.eq_of_getLsbD_eq fun i hi => ?_
    simp only [BitVec.getLsbD_extractLsb', BitVec.getLsbD_append, hi, decide_true, Bool.true_and]
  · rw [if_neg (by omega), if_pos (by omega)]
    congr 1
    omega
  · rw [if_neg (by omega), if_neg (by omega), if_pos (by omega)]
    congr 1
    omega
  · rw [if_neg (by omega), if_neg (by omega), if_neg (by omega), if_pos (by omega)]
    simp
  · rw [if_neg (by omega), if_neg (by omega), if_neg (by omega), if_neg (by omega), if_pos (by omega)]
    congr 1
    omega
  · rw [if_neg (by omega), if_neg (by omega), if_neg (by omega), if_neg (by omega), if_neg (by omega)]
    simp

/-- Settles O44: register 1 reads as `statusWord`. -/
theorem statusFields : Obligations.StatusFields := by
  intro s hf
  obtain ⟨hfault, hdir, hstate, hzero, hcause, hhigh⟩ := statusWord_fields s
  refine ⟨statusWord s, transact_read_reg (reg := .status) hf rfl, hfault.trans hf, hfault.symm, ?_, ?_, hzero,
    hcause, hhigh⟩
  · rw [hdir]
    cases s.dir <;> rfl
  · rw [hstate]
    cases s.codecState <;> rfl

/-! ### Operand and index registers -/

/-- No store to a register raises a fault or ends one (R49, R150). -/
theorem writeReg_fault (reg : Reg) (w : Word) (s : State) : (writeReg reg w s).fault = s.fault := by
  cases reg <;> rfl

/-- How many bits of a written word a register keeps: all operand and index registers (R22 to R29, R40, R41); `none` for
every other register. -/
def Reg.keptBits (p : BufAw) (r : Reg) : Option Nat :=
  match r with
  | .data | .phDcOffset | .phPatchIds => some 32
  | .ghStride | .phRange | .patchAddr => some 16
  | .ghPatchSize | .ghLayerType | .phQuantWbits => some 8
  | .bufAddr => some p.width
  | _ => none

theorem setWidth_setWidth_eq_ofNat_mod (w : Word) (k : Nat) :
    (w.setWidth k).setWidth 32 = BitVec.ofNat 32 (w.toNat % 2 ^ k) := by
  refine BitVec.eq_of_toNat_eq ?_
  rw [BitVec.toNat_setWidth, BitVec.toNat_setWidth, BitVec.toNat_ofNat]

theorem eq_ofNat_mod (w : Word) : w = BitVec.ofNat 32 (w.toNat % 2 ^ 32) := by
  rw [Nat.mod_eq_of_lt w.isLt, BitVec.ofNat_toNat, BitVec.setWidth_eq]

/-- An operand or index register reads back the bits it has of what was written (R21). -/
theorem readReg_writeReg_same {reg : Reg} {k : Nat} {s : State} (w : Word) (h : reg.keptBits s.bufAw = some k) :
    readReg reg (writeReg reg w s) = BitVec.ofNat 32 (w.toNat % 2 ^ k) := by
  cases reg with
  | data | phDcOffset | phPatchIds =>
    cases h
    exact eq_ofNat_mod w
  | ghStride | phRange | patchAddr | ghPatchSize | ghLayerType | phQuantWbits =>
    cases h
    exact setWidth_setWidth_eq_ofNat_mod w _
  | bufAddr =>
    cases h
    show (writeReg .bufAddr w s).bufAddr.setWidth 32 = BitVec.ofNat 32 (w.toNat % s.maxCap)
    rw [← writeReg_bufAddr_toNat]
    exact (BitVec.ofNat_toNat 32 _).symm
  | _ => cases h

/-- A store changes what its own register reads as and no other, but that the windows follow their index registers (R21,
R40, R41). -/
theorem readReg_writeReg_other {reg other : Reg} (w : Word) (s : State) (hne : reg ≠ other)
    (hbuf : ¬ (reg = .bufAddr ∧ other = .bufData)) (hpatch : ¬ (reg = .patchAddr ∧ other = .patchData)) :
    readReg other (writeReg reg w s) = readReg other s := by
  cases reg with
  | bufAddr => cases other <;> first | rfl | exact absurd rfl hne | exact absurd ⟨rfl, rfl⟩ hbuf
  | patchAddr => cases other <;> first | rfl | exact absurd rfl hne | exact absurd ⟨rfl, rfl⟩ hpatch
  | _ => cases other <;> first | rfl | exact absurd rfl hne

theorem regOfNumber_numberOfReg (reg : Reg) : regOfNumber (numberOfReg reg) = some reg := by
  cases reg <;> rfl

theorem eq_numberOfReg {r : BitVec 5} {reg : Reg} (h : regOfNumber r = some reg) : r = numberOfReg reg := by
  cases reg <;> revert r <;> decide

/-- The ten registers of R21 that keep what is written, by number and width. -/
theorem keptBits_of_mem {p : BufAw} {r : BitVec 5} {k : Nat}
    (h : (r.toNat, k) ∈ [(8, 32), (9, 16), (10, 8), (11, 8), (12, 8), (13, 32), (14, 16), (15, 32), (18, p.val + 1),
      (20, 16)]) : ∃ reg, regOfNumber r = some reg ∧ reg.keptBits p = some k := by
  have named : ∀ reg : Reg, r.toNat = (numberOfReg reg).toNat → reg.keptBits p = some k →
      ∃ reg, regOfNumber r = some reg ∧ reg.keptBits p = some k := fun reg hr hk =>
    ⟨reg, by rw [BitVec.eq_of_toNat_eq hr, regOfNumber_numberOfReg], hk⟩
  simp only [List.mem_cons, Prod.mk.injEq, List.not_mem_nil, or_false] at h
  rcases h with ⟨h, rfl⟩ | ⟨h, rfl⟩ | ⟨h, rfl⟩ | ⟨h, rfl⟩ | ⟨h, rfl⟩ | ⟨h, rfl⟩ | ⟨h, rfl⟩ | ⟨h, rfl⟩ | ⟨h, rfl⟩ |
    ⟨h, rfl⟩
  · exact named .data h rfl
  · exact named .ghStride h rfl
  · exact named .ghPatchSize h rfl
  · exact named .ghLayerType h rfl
  · exact named .phQuantWbits h rfl
  · exact named .phDcOffset h rfl
  · exact named .phRange h rfl
  · exact named .phPatchIds h rfl
  · exact named .bufAddr h rfl
  · exact named .patchAddr h rfl

/-- Settles O45: the number names one of the registers of `keptBits`, and `readReg` of it and of every other register
after the store is known. -/
theorem writtenRegisterReadsBack : Obligations.WrittenRegisterReadsBack := by
  intro s r k w hf hmem
  obtain ⟨reg, hr, hkept⟩ := keptBits_of_mem hmem
  have hnum := eq_numberOfReg hr
  have hf' := (writeReg_fault reg w s).trans hf
  have hcmd : reg ≠ .cmd := by
    rintro rfl
    cases hkept
  refine ⟨writeReg reg w s, transact_write_reg w hf hr hcmd, ?_, fun other hne hbuf hpatch => ?_⟩
  · rw [transact_read_reg hf' hr, readReg_writeReg_same w hkept]
  · exact readReg_writeReg_other w s (fun h => hne (h ▸ hr))
      (fun ⟨hreg, hother⟩ => hbuf ⟨by rw [hnum, hreg]; rfl, hother⟩)
      (fun ⟨hreg, hother⟩ => hpatch ⟨by rw [hnum, hreg]; rfl, hother⟩)

/-! ### The windows into the memories -/

/-- A write to BUF_DATA stores the low byte where BUF_ADDR points (R40). -/
theorem bufByte_writeReg_bufData (w : Word) (s : State) (b : Nat) :
    (writeReg .bufData w s).bufByte b = if b = bufIndex s then w.setWidth 8 else s.bufByte b := by
  show ((s.buf.write (bufIndex s) (w.setWidth 8)).lookup b).getD (Config.bufUnspecified s.epoch b) = _
  rw [Memory.lookup_write]
  split_ifs <;> rfl

/-- A write to PATCH_DATA stores the word where PATCH_ADDR points (R41). -/
theorem coeff_writeReg_patchData (w : Word) (s : State) (j : Nat) :
    (writeReg .patchData w s).coeff j = if j = s.patchAddr.toNat then w.toInt else s.coeff j := by
  show (((s.patch.write s.patchAddr.toNat w).lookup j).getD (Config.patchUnspecified s.epoch j)).toInt = _
  rw [Memory.lookup_write]
  split_ifs <;> rfl

/-- Once BUF_ADDR has been written, the address it selects is the number it holds (notes/assumptions/9.md). -/
theorem bufIndex_writeReg_bufAddr (a : Word) (s : State) :
    bufIndex (writeReg .bufAddr a s) = (writeReg .bufAddr a s).bufAddr.toNat := by
  rw [bufIndex, writeReg_bufAddr_toNat]
  exact Nat.mod_mod _ _

/-- Settles O46: the write to BUF_ADDR leaves the window at the byte it names, and the write to BUF_DATA stores
there. -/
theorem bufDataWindow : Obligations.BufDataWindow := by
  intro s a w hf
  have hindex := bufIndex_writeReg_bufAddr a s
  have hf' := (writeReg_fault .bufAddr a s).trans hf
  refine ⟨writeReg .bufAddr a s, writeReg .bufData w (writeReg .bufAddr a s),
    transact_write_reg a hf rfl (by decide), transact_write_reg w hf' rfl (by decide), rfl,
    writeReg_bufAddr_toNat a s, ?_, rfl, fun b => ?_⟩
  · rw [transact_read_reg (r := 19) (reg := .bufData) hf' rfl, readReg, hindex]
    rfl
  · rw [bufByte_writeReg_bufData, hindex]
    rfl

/-- Settles O47: as O46, for the window into PATCH. -/
theorem patchDataWindow : Obligations.PatchDataWindow := by
  intro s i w hf
  refine ⟨writeReg .patchAddr i s, writeReg .patchData w (writeReg .patchAddr i s),
    transact_write_reg i hf rfl (by decide), transact_write_reg w hf rfl (by decide), rfl,
    BitVec.toNat_setWidth 16 i, transact_read_reg (r := 21) (reg := .patchData) hf rfl, rfl, fun j => ?_⟩
  rw [coeff_writeReg_patchData]
  rfl

end Sys2Proof.Machine
end

section
/-! PROOFS of the family 10_state.md, part 3: the frame over the memories (O42). A command that sends stores to BUF from
`byte_count` up to the byte of its last bit, FLUSH stores at `byte_count`, and every other command only reads BUF; PATCH
is stored to by CODE_PATCH in the tail it truncates and by DECODE_PATCH below `N` (spec/10_state.md R43, R44). -/

namespace Sys2Proof.Machine

/-! ### Which memory is left alone -/

/-- BUF and PATCH of `t` are those of `s`. -/
structure SameMemories (s t : State) : Prop where
  buf : t.buf = s.buf
  patch : t.patch = s.patch
  epoch : t.epoch = s.epoch

theorem SameMemories.trans {s t u : State} (h1 : SameMemories s t) (h2 : SameMemories t u) : SameMemories s u :=
  ⟨h2.buf.trans h1.buf, h2.patch.trans h1.patch, h2.epoch.trans h1.epoch⟩

/-- BUF of `t` is that of `s` but for the bytes in which `k` bits sent from `s` complete (R43, R100). -/
def SendsWithin (k : Nat) (s t : State) : Prop :=
  ∀ a, a < s.byteCount.toNat ∨ (8 * s.byteCount.toNat + s.accBits.toNat + k) / 8 ≤ a → t.bufByte a = s.bufByte a

/-- `SendsWithin`, and PATCH is left alone but by CODE_PATCH. -/
def Sends (i : Instr) (k : Nat) (s t : State) : Prop :=
  SendsWithin k s t ∧ ((∀ q, i ≠ .codePatch q) → t.patch = s.patch)

/-- BUF of `t` is that of `s`, and so is PATCH from index `n` up. -/
def KeepsFrom (n : Nat) (s t : State) : Prop :=
  t.buf = s.buf ∧ ∀ j, n ≤ j → t.patchWord j = s.patchWord j

theorem KeepsFrom.trans {n : Nat} {s t u : State} (h1 : KeepsFrom n s t) (h2 : KeepsFrom n t u) : KeepsFrom n s u :=
  ⟨h2.1.trans h1.1, fun j hj => (h2.2 j hj).trans (h1.2 j hj)⟩

/-- What the words of PATCH read as depends on nothing but the list and the epoch. -/
theorem State.patchWord_congr {s t : State} (hp : t.patch = s.patch) (he : t.epoch = s.epoch) (j : Nat) :
    t.patchWord j = s.patchWord j := by
  unfold State.patchWord
  rw [hp, he]

theorem SameMemories.keepsFrom {s t : State} (h : SameMemories s t) (n : Nat) : KeepsFrom n s t :=
  ⟨h.buf, fun j _ => State.patchWord_congr h.patch h.epoch j⟩

theorem setCoeff_keepsFrom (s : State) {i n : Nat} (v : Int) (h : i < n) : KeepsFrom n s (s.setCoeff i v) := by
  refine ⟨rfl, fun j hj => ?_⟩
  show ((s.patch.write i (BitVec.ofInt 32 v)).lookup j).getD (Config.patchUnspecified s.epoch j) = s.patchWord j
  rw [Memory.lookup_write, if_neg (by omega)]
  rfl

theorem patchFill_keepsFrom (s : State) {i count n : Nat} (v : Word) (h : i + count ≤ n) :
    KeepsFrom n s { s with patch := s.patch.fill i count v } := by
  refine ⟨rfl, fun j hj => ?_⟩
  show ((s.patch.fill i count v).lookup j).getD (Config.patchUnspecified s.epoch j) = s.patchWord j
  rw [Memory.lookup_fill, if_neg (by omega)]
  rfl

/-! ### What the operations leave alone -/

theorem packBits_sendsWithin {bits : List Bool} {k : Nat} (hlen : bits.length = k) {s : State} (hs : s.PackReady) :
    Yields (packBits bits s) fun t => SendsWithin k s t ∧ OnlyStream s t := by
  intro t h
  obtain ⟨-, ho, happends, -⟩ := packBits_ok hs h
  rw [← hlen]
  exact ⟨happends.elsewhere, ho⟩

theorem unpackValue_sameMemories (n : Nat) (s : State) :
    Yields (unpackValue n s) fun p => SameMemories s p.2 := by
  rintro ⟨v, t⟩ h
  obtain ⟨ho, hbuf⟩ := unpackValue_onlyStream h
  exact ⟨hbuf, ho.patch, ho.epoch⟩

theorem openSession_sameMemories (d : Dir) (cap : BitVec 24) (s : State) :
    Yields (openSession d cap s) (SameMemories s) :=
  .check fun _ => .ok ⟨rfl, rfl, rfl⟩

/-- The loop of DECODE_PATCH stores only to the coefficients it decodes (R142). -/
theorem decodeCoeffs_keepsFrom (w i left : Nat) {n : Nat} (s : State) (hn : i + left ≤ n) :
    Yields (decodeCoeffs w i left s) (KeepsFrom n s) := by
  induction left generalizing i s with
  | zero => exact .ok ⟨rfl, fun _ _ => rfl⟩
  | succ k ih =>
    have stored : ∀ (u : State) (v : Int), KeepsFrom n s u →
        Yields (decodeCoeffs w (i + 1) k (u.setCoeff i v)) (KeepsFrom n s) := fun u v hu =>
      (ih (i + 1) (u.setCoeff i v) (by omega)).mono fun _ ht => (hu.trans (setCoeff_keepsFrom u v (by omega))).trans ht
    refine (unpackValue_sameMemories 1 s).bind fun (notZero, s1) h1 => ?_
    dsimp only
    split_ifs
    · exact stored s1 0 (h1.keepsFrom n)
    · refine (unpackValue_sameMemories 1 s1).bind fun (isValue, s2) h2 => ?_
      dsimp only
      split_ifs
      · exact .ok (((h1.trans h2).keepsFrom n).trans (patchFill_keepsFrom s2 0 hn))
      · refine (unpackValue_sameMemories 1 s2).bind fun (negative, s3) h3 => ?_
        refine (unpackValue_sameMemories w s3).bind fun (m, s4) h4 => ?_
        exact stored s4 _ ((((h1.trans h2).trans h3).trans h4).keepsFrom n)

/-! ### The commands -/

/-- What a command that completed computed is the state it answers. -/
theorem conclude_yields {i : Instr} {s t : State} {r : Except Stop State} {P : State → Prop} (hr : Yields r P)
    (h : conclude i s r = .next t) (hf : t.fault = false) : P t := hr t (conclude_completes h hf)

theorem length_groupHeader (s : State) : (fieldBits (groupHeaderFields s)).length = 32 := by
  simp [groupHeaderFields]

theorem length_patchHeader (large : Bool) (s : State) :
    (fieldBits (patchHeaderFields large s)).length = if large then 88 else 66 := by
  cases large <;> simp [patchHeaderFields, patchIdsWidth]

/-- CODE_PATCH packs the bits R145 describes (R141). -/
theorem coeffBits_truncateTail {postquant : BitVec 16} {s : State} (hq : postquant.toNat ≤ s.patchArea) :
    coeffBits s.curWordBits.toNat (s.patchArea - postquant.toNat) (truncateTail postquant.toNat s).grid =
      patchBitsOf postquant s := by
  rw [grid_truncateTail hq]
  refine coeffBits_eq_patchCode _ _ (Nat.sub_le _ _) fun j hj _ => ?_
  rw [truncatedGrid, if_neg (by omega)]

section
variable {i : Instr} {s t : State} (hs : s.Operational) (h : exec i s = .next t) (hf : t.fault = false)
include hs h hf

/-- CODE_PATCH sends its code after it has zeroed the tail. -/
theorem codePatch_memories {q : BitVec 16} (hi : i = .codePatch q) :
    q.toNat ≤ s.patchArea ∧ SendsWithin (patchBitsOf q s).length s t ∧ OnlyStream (truncateTail q.toNat s) t := by
  subst hi
  refine conclude_yields (P := fun u => q.toNat ≤ s.patchArea ∧ SendsWithin (patchBitsOf q s).length s u ∧
    OnlyStream (truncateTail q.toNat s) u) (.check fun hd => .check fun hq => ?_) h hf
  have hready : (truncateTail q.toNat s).PackReady := hs.resting.packReady (of_not_not (not_or.mp hd).1)
  have hle := Nat.le_of_not_lt hq
  exact (packBits_sendsWithin (congrArg List.length (coeffBits_truncateTail hle)) hready).mono fun _ hu => ⟨hle, hu⟩

/-- A command that sends `k` bits stores them to BUF, and to PATCH only if it is CODE_PATCH. -/
theorem sender_memories {k : Nat} (hk : bitsSent i s = some k) : Sends i k s t := by
  have ready : ¬ s.dir ≠ .enc → s.PackReady := fun hd => hs.resting.packReady (of_not_not hd)
  cases i with
  | pack n =>
    cases hk
    refine conclude_yields (.check fun _ => .check fun hd => ?_) h hf
    exact (packBits_sendsWithin (length_wireBits _ _) (ready hd)).mono fun _ ⟨hsent, ho⟩ =>
      ⟨hsent, fun _ => ho.patch⟩
  | codeGh =>
    cases hk
    refine conclude_yields (.check fun hd => ?_) h hf
    exact (packBits_sendsWithin (length_groupHeader s) (ready hd)).bind fun _ ⟨hsent, ho⟩ =>
      .ok ⟨hsent, fun _ => ho.patch⟩
  | codePh large =>
    cases hk
    refine conclude_yields (.check fun hd => .check fun _ => ?_) h hf
    have hready : State.PackReady { s with
        phQuantWbits := withWidthNibble s.phQuantWbits (chooseWbits s.phQuantWbits s.grid) } := ready (not_or.mp hd).1
    exact (packBits_sendsWithin (length_patchHeader large _) hready).bind fun _ ⟨hsent, ho⟩ =>
      .ok ⟨hsent, fun _ => ho.patch⟩
  | codePatch q =>
    cases hk
    obtain ⟨-, hsent, -⟩ := codePatch_memories hs h hf rfl
    exact ⟨hsent, fun hne => absurd rfl (hne q)⟩
  | endData =>
    cases hk
    refine conclude_yields (.check fun hd => ?_) h hf
    exact (packBits_sendsWithin (length_wireBits _ _) (ready (not_or.mp hd).1)).bind fun _ ⟨hsent, ho⟩ =>
      .ok ⟨hsent, fun _ => ho.patch⟩
  | _ => cases hk

/-- FLUSH stores the byte it completes, and none if no bit is staged (R108). -/
theorem flush_memories (hi : i = .flush) :
    (∀ a, a ≠ s.byteCount.toNat ∨ s.accBits = 0 → t.bufByte a = s.bufByte a) ∧ t.patch = s.patch := by
  subst hi
  obtain ⟨-, -, hcap, -⟩ := hs.resting
  have hok : flushPrim s = .ok t := conclude_yields (P := fun u => flushPrim s = .ok u) (.check fun _ _ hu => hu) h hf
  refine ⟨fun a ha => ?_, (flushPrim_onlyStream hok).patch⟩
  rw [flushPrim_eq hcap] at hok
  split_ifs at hok with h0 hroom
  · cases hok
    rfl
  · cases hok
    rw [State.bufByte_withByteStored, if_neg (ha.resolve_right h0)]

omit hs in
theorem decodePatch_memories (hi : i = .decodePatch) : KeepsFrom s.patchArea s t := by
  subst hi
  exact conclude_yields (.check fun _ => decodeCoeffs_keepsFrom _ 0 _ s (by omega)) h hf

omit hs in
/-- A command that neither sends nor flushes leaves BUF, and PATCH unless it is DECODE_PATCH. -/
theorem reader_memories (hk : bitsSent i s = none) (hi : i ≠ .flush) :
    t.buf = s.buf ∧ (i ≠ .decodePatch → t.patch = s.patch) := by
  have same : SameMemories s t → t.buf = s.buf ∧ (i ≠ .decodePatch → t.patch = s.patch) := fun hm =>
    ⟨hm.buf, fun _ => hm.patch⟩
  cases i with
  | unpack n =>
    refine same (conclude_yields (.check fun _ => .check fun _ => ?_) h hf)
    exact (unpackValue_sameMemories _ s).bind fun _ h1 => .ok ⟨h1.buf, h1.patch, h1.epoch⟩
  | flush => exact absurd rfl hi
  | bpReset => exact same (conclude_yields (i := .bpReset) (s := s) (r := .ok (resetPrim s)) (.ok ⟨rfl, rfl, rfl⟩) h hf)
  | initEnc cap => exact same (conclude_yields (openSession_sameMemories .enc cap s) h hf)
  | initDec cap => exact same (conclude_yields (openSession_sameMemories .dec cap s) h hf)
  | decodeGh =>
    refine same (conclude_yields (.check fun _ => ?_) h hf)
    refine (unpackValue_sameMemories 16 s).bind fun (_, s1) h1 => ?_
    refine (unpackValue_sameMemories 8 s1).bind fun (_, s2) h2 => ?_
    refine (unpackValue_sameMemories 8 s2).bind fun (_, s3) h3 => .ok ?_
    exact ((h1.trans h2).trans h3).trans ⟨rfl, rfl, rfl⟩
  | decodePh large =>
    refine same (conclude_yields (.check fun _ => ?_) h hf)
    refine (unpackValue_sameMemories 8 s).bind fun (_, s1) h1 => ?_
    dsimp only
    split_ifs
    · exact .ok (h1.trans ⟨rfl, rfl, rfl⟩)
    · refine (unpackValue_sameMemories 32 s1).bind fun (_, s2) h2 => ?_
      refine (unpackValue_sameMemories 16 s2).bind fun (_, s3) h3 => ?_
      refine (unpackValue_sameMemories _ s3).bind fun (_, s4) h4 => .ok ?_
      exact (((h1.trans h2).trans h3).trans h4).trans ⟨rfl, rfl, rfl⟩
  | decodePatch => exact ⟨(decodePatch_memories h hf rfl).1, fun hne => absurd rfl hne⟩
  | _ => cases hk

/-- A command other than the two that store coefficients leaves PATCH (R44). -/
theorem exec_keeps_patch (hcode : ∀ q, i ≠ .codePatch q) (hdecode : i ≠ .decodePatch) : t.patch = s.patch := by
  by_cases hi : i = .flush
  · exact (flush_memories hs h hf hi).2
  · cases hk : bitsSent i s with
    | some k => exact (sender_memories hs h hf hk).2 hcode
    | none => exact (reader_memories h hf hk hi).2 hdecode

/-- CODE_PATCH stores to PATCH only in the tail it truncates (R141). -/
theorem codePatch_keeps_patch {q : BitVec 16} (hi : i = .codePatch q) {j : Nat}
    (hj : j < s.patchArea - q.toNat ∨ s.patchArea ≤ j) : t.patchWord j = s.patchWord j := by
  obtain ⟨hle, -, ho⟩ := codePatch_memories hs h hf hi
  rw [State.patchWord_congr ho.patch ho.epoch, patchWord_truncateTail, if_neg (by omega)]

end

/-- Settles O42: BUF by the three kinds of command (those that send, FLUSH, all others), PATCH by the two that store
coefficients and all others. -/
theorem commandsKeepUnnamedMemory : Obligations.CommandsKeepUnnamedMemory := fun _ _ _ hs h hf =>
  ⟨fun _ hk => (sender_memories hs h hf hk).1,
    fun hi => (flush_memories hs h hf hi).1,
    fun hk hi => (reader_memories h hf hk hi).1,
    fun _ hi _ => codePatch_keeps_patch hs h hf hi,
    fun hi => (decodePatch_memories h hf hi).2,
    exec_keeps_patch hs h hf⟩

end Sys2Proof.Machine
end

section
/-! PROOFS of the family 20_memory.md (O48, O49, O50): the cut of a value into wire bits in closed form, what a store
through BUF_DATA does to the stream of a session, and what a register access repeated leaves (spec/20_memory.md R63, R68,
R73). -/

namespace Sys2Proof.Machine

/-! ### The wire bits in closed form -/

/-- Bit `k` of a chunk of `d` bits, in terms of the value whose low byte the chunk carries (R63). -/
theorem getD_chunkBits_ofNat (v : Nat) {d k : Nat} (hd : d ≤ 8) (hk : k < d) :
    (chunkBits (BitVec.ofNat 8 v) d).getD k false = v.testBit (d - 1 - k) := by
  rw [chunkBits_eq _ hd, List.getD_eq_getElem _ _ (by simpa using hk), List.getElem_map, List.getElem_range,
    BitVec.getLsbD_ofNat, decide_eq_true (by omega), Bool.true_and]

/-- Bit `k` of `Bits(v, n)` is in chunk `k / 8`, which carries `min 8 (n - 8 * (k / 8))` bits, the highest first: the
first chunk is read off directly, and the others are the chunks of `v / 256` (R63, R101). -/
theorem getD_wireBits (v : Nat) {n k : Nat} (hk : k < n) :
    (wireBits v n).getD k false = v.testBit (8 * (k / 8) + (min 8 (n - 8 * (k / 8)) - 1 - k % 8)) := by
  induction n using Nat.strong_induction_on generalizing v k with
  | _ n ih =>
    by_cases hn : n < 8
    · rw [wireBits_of_lt_eight v hn, getD_chunkBits_ofNat v (by omega) hk]
      congr 1
      omega
    · obtain ⟨m, rfl⟩ : ∃ m, n = m + 8 := ⟨n - 8, by omega⟩
      rw [wireBits_add_eight]
      by_cases hfirst : k < 8
      · rw [List.getD_append _ _ _ _ (by simpa using hfirst), getD_chunkBits_ofNat v (le_refl 8) hfirst]
        congr 1
        omega
      · rw [List.getD_append_right _ _ _ _ (by rw [length_chunkBits]; omega), length_chunkBits, ih m (by omega) _ (by omega),
          show 256 = 2 ^ 8 by norm_num, Nat.testBit_div_two_pow]
        congr 1
        omega

/-- Only `v mod 2^n` is sent: every position the closed form names is below `n`. -/
theorem wireBits_mod (v n : Nat) : wireBits (v % 2 ^ n) n = wireBits v n := by
  refine List.ext_getElem (by simp) fun k hk _ => ?_
  rw [length_wireBits] at hk
  rw [← List.getD_eq_getElem _ false, ← List.getD_eq_getElem _ false, getD_wireBits _ hk, getD_wireBits _ hk,
    Nat.testBit_mod_two_pow, decide_eq_true (by omega), Bool.true_and]

/-- Settles O50: the length, the closed form and the reduction mod `2^n` it implies. -/
theorem wireBitsInClosedForm : Obligations.WireBitsInClosedForm := fun v n =>
  ⟨length_wireBits v n, fun _ hk => getD_wireBits v hk, (wireBits_mod v n).symm⟩

/-! ### A store through BUF_DATA in a session -/

/-- While no fault is pending BUF_ADDR holds an address of BUF as it stands (R40; notes/assumptions/9.md). -/
theorem State.Operational.bufIndex_eq {s : State} (hs : s.Operational) : bufIndex s = s.bufAddr.toNat := by
  obtain ⟨-, -, -, -, -, -, -, -, haddr, -⟩ := hs.resting
  exact Nat.mod_eq_of_lt haddr

/-- A write to BUF_DATA replaces the eight stream bits of its byte and no others (R40, R62). -/
theorem streamBit_writeReg_bufData (w : Word) (s : State) (p : Nat) :
    (writeReg .bufData w s).streamBit p = if p / 8 = bufIndex s then w.getLsbD (7 - p % 8) else s.streamBit p := by
  rw [State.streamBit, bufByte_writeReg_bufData]
  split_ifs
  · rw [BitVec.getLsbD_setWidth, decide_eq_true (by omega), Bool.true_and]
  · rfl

/-- Settles O49: the write changes BUF alone, so the bits of `acc` stay and those that come from BUF, to be delivered or
finished, are the stream bits after the store. -/
theorem hostStoreTakesEffectAtOnce : Obligations.HostStoreTakesEffectAtOnce := by
  intro s w hs
  have ⟨hf, _⟩ := hs
  have hstore := streamBit_writeReg_bufData w s
  rw [hs.bufIndex_eq] at hstore
  refine ⟨writeReg .bufData w s, transact_write_reg w hf rfl (by decide), fun k hk => ?_, fun k hk => ?_,
    fun p hp => ?_⟩
  · rw [upcomingBit_of_lt hk]
    exact upcomingBit_of_lt hk
  · rw [upcomingBit_of_le hk]
    exact (upcomingBit_of_le (s := writeReg .bufData w s) hk).trans (hstore _)
  · rw [show s.producedBit p = s.streamBit p from if_pos hp, ← hstore]
    exact if_pos hp

/-! ### A register access repeated -/

/-- What a read returns does not depend on what the port returned last, and it replaces that alone (R68). -/
theorem transact_read_of_response {s : State} (r : BitVec 5) (hf : s.fault = false) :
    ∃ v, ∀ last, transact (.read r) { s with response := last } = .next { s with response := some v } := by
  cases hr : regOfNumber r with
  | none => exact ⟨0, fun _ => transact_read_unassigned hf hr⟩
  | some reg =>
    refine ⟨readReg reg s, fun last => ?_⟩
    have hsame : readReg reg { s with response := last } = readReg reg s := by cases reg <;> rfl
    rw [transact_read_reg (s := { s with response := last }) hf hr, hsame]

theorem Memory.write_write {w : Nat} (m : Memory w) (a : Nat) (v : BitVec w) : (m.write a v).write a v = m.write a v := by
  induction m with
  | nil => simp [Memory.write]
  | cons p rest ih =>
    obtain ⟨b, u⟩ := p
    unfold Memory.write
    split_ifs with hlt heq <;> simp [Memory.write, *]

/-- A store repeated leaves what the first one left: through a window too, since no store moves its own index register
(R40, R41, R68). -/
theorem writeReg_writeReg (reg : Reg) (w : Word) (s : State) : writeReg reg w (writeReg reg w s) = writeReg reg w s := by
  cases reg with
  | bufData => exact congrArg (fun m => { s with buf := m }) (Memory.write_write _ _ _)
  | patchData => exact congrArg (fun m => { s with patch := m }) (Memory.write_write _ _ _)
  | _ => rfl

/-- A write that runs no command is idempotent (R68). -/
theorem transact_write_idempotent {s : State} {r : BitVec 5} (w : Word) (hf : s.fault = false)
    (hcmd : regOfNumber r ≠ some .cmd) :
    ∃ t, transact (.write r w) s = .next t ∧ transact (.write r w) t = .next t := by
  cases hr : regOfNumber r with
  | none => exact ⟨s, transact_write_unassigned w hf hr, transact_write_unassigned w hf hr⟩
  | some reg =>
    have hne : reg ≠ .cmd := fun h => hcmd (h ▸ hr)
    have hf' := (writeReg_fault reg w s).trans hf
    refine ⟨writeReg reg w s, transact_write_reg w hf hr hne, ?_⟩
    rw [transact_write_reg w hf' hr hne, writeReg_writeReg]

/-- Settles O48: a repeated read sees only another last response, and none of the named registers is CMD. -/
theorem readsHaveNoSideEffect : Obligations.ReadsHaveNoSideEffect := by
  intro s r w hf
  constructor
  · obtain ⟨v, hread⟩ := transact_read_of_response r hf
    exact ⟨_, v, hread s.response, rfl, hread (some v)⟩
  · intro hr
    refine transact_write_idempotent w hf fun hcmd => ?_
    obtain rfl := eq_zero_of_regOfNumber_eq_cmd hcmd
    revert hr
    decide

end Sys2Proof.Machine
end

section
/-! PROOFS of the family 30_encoding.md (O1, O2, O4): the decoder and the encoder are inverse to each other. Each format
accepts exactly the operand fields that are its operand extended by zeros, so no bit of a legal word is left out
(spec/30_encoding.md R80, R81, R84, R85). -/

namespace Sys2Proof.Laws

/-! ### What each format accepts -/

/-- The low `k` bits of an operand field stand for it, with all others zero, exactly if it is those bits extended by
zeros. -/
theorem operandBits_iff {k m : Nat} (hkm : k + m = 24) (arg : BitVec 24) (n : BitVec k) :
    arg.extractLsb' k m = 0 ∧ arg.extractLsb' 0 k = n ↔ n.setWidth 24 = arg := by
  constructor
  · rintro ⟨hhigh, rfl⟩
    refine BitVec.eq_of_getLsbD_eq fun j hj => ?_
    by_cases hjk : j < k
    · simp [hj, hjk]
    · have hbit : (arg.extractLsb' k m).getLsbD (j - k) = false := by rw [hhigh]; exact BitVec.getLsbD_zero
      rw [BitVec.getLsbD_extractLsb', decide_eq_true (by omega), Bool.true_and, Nat.add_sub_cancel' (by omega)] at hbit
      simp [hjk, hbit]
  · rintro rfl
    refine ⟨BitVec.eq_of_getLsbD_eq fun j _ => ?_, ?_⟩
    · simp [BitVec.getLsbD_extractLsb']
    · rw [BitVec.extractLsb'_setWidth_of_le (by omega), BitVec.extractLsb'_eq_self]

/-- A format that checks `p` and then reads the operand as `value` accepts exactly the operand fields of the form
`field x`, if `p` and the value read say that the operand field is `field x`. -/
theorem checkedOperand_eq_ok_iff {α : Type} {p : Prop} [Decidable p] {value : α} {field : α → BitVec 24}
    {arg : BitVec 24} (hfield : ∀ x, p ∧ value = x ↔ field x = arg)
    {f : α → Instr} {e : IllegalWord} {i : Instr} :
    (if p then .ok (f value) else .error e : Except IllegalWord Instr) = .ok i ↔ ∃ x, f x = i ∧ field x = arg := by
  simp only [← hfield]
  split
  · next hp => simp [hp]
  · next hp => simp [hp]

theorem formatN_eq_ok_iff {arg : BitVec 24} {f : BitVec 6 → Instr} {i : Instr} :
    formatN arg f = .ok i ↔ ∃ n, f n = i ∧ n.setWidth 24 = arg :=
  checkedOperand_eq_ok_iff (operandBits_iff rfl arg)

theorem formatQ_eq_ok_iff {arg : BitVec 24} {f : BitVec 16 → Instr} {i : Instr} :
    formatQ arg f = .ok i ↔ ∃ postquant, f postquant = i ∧ postquant.setWidth 24 = arg :=
  checkedOperand_eq_ok_iff (operandBits_iff rfl arg)

/-- The operand of format L is the one bit at the bottom, read as a truth value. -/
theorem formatL_eq_ok_iff {arg : BitVec 24} {f : Bool → Instr} {i : Instr} :
    formatL arg f = .ok i ↔ ∃ large, f large = i ∧ (BitVec.ofBool large).setWidth 24 = arg := by
  have hbit : arg.extractLsb' 0 1 = BitVec.ofBool (arg.getLsbD 0) := by
    refine BitVec.eq_of_getLsbD_eq fun j hj => ?_
    obtain rfl : j = 0 := by omega
    simp
  exact checkedOperand_eq_ok_iff fun large => by
    rw [← operandBits_iff (m := 23) rfl, hbit, BitVec.ofBool_eq_iff_eq]

theorem formatZ_eq_ok_iff {arg : BitVec 24} {j i : Instr} : formatZ arg j = .ok i ↔ j = i ∧ arg = 0 := by
  unfold formatZ
  split
  · next hzero => simp [hzero]
  · next hnonzero => simpa using fun _ => hnonzero

/-! ### The word and its two fields -/

/-- A word is its opcode field and its operand field (R80). -/
theorem opField_append_argField (w : Word) : opField w ++ argField w = w :=
  BitVec.extractLsb'_append_extractLsb' (w := 8) (len := 24)

/-- A word decodes to a command only with the command's opcode and its operand in the two fields (R84). -/
theorem fields_of_decode {w : Word} {i : Instr} (h : decode w = .ok i) :
    opcodeOf i = opField w ∧ argOf i = argField w := by
  unfold decode at h
  split at h
  case h_1 hop | h_2 hop =>
    obtain ⟨n, rfl, harg⟩ := formatN_eq_ok_iff.mp h
    exact ⟨BitVec.eq_of_toNat_eq hop.symm, harg⟩
  case h_3 hop | h_4 hop | h_7 hop | h_8 hop | h_12 hop | h_13 hop =>
    obtain ⟨rfl, harg⟩ := formatZ_eq_ok_iff.mp h
    exact ⟨BitVec.eq_of_toNat_eq hop.symm, harg.symm⟩
  case h_5 hop | h_6 hop =>
    obtain rfl := Except.ok.inj h
    exact ⟨BitVec.eq_of_toNat_eq hop.symm, rfl⟩
  case h_9 hop | h_10 hop =>
    obtain ⟨large, rfl, harg⟩ := formatL_eq_ok_iff.mp h
    exact ⟨BitVec.eq_of_toNat_eq hop.symm, harg⟩
  case h_11 hop =>
    obtain ⟨postquant, rfl, harg⟩ := formatQ_eq_ok_iff.mp h
    exact ⟨BitVec.eq_of_toNat_eq hop.symm, harg⟩
  case h_14 => cases h

/-! ### The obligations -/

/-- Settles O1: the opcode field selects the command's row, whose format accepts the operand field the encoder wrote. -/
theorem decodeReadsEncodedCommand : Obligations.DecodeReadsEncodedCommand := by
  intro i
  unfold decode
  rw [opField_encode, argField_encode]
  cases i with
  | pack n | unpack n => exact formatN_eq_ok_iff.mpr ⟨n, rfl, rfl⟩
  | initEnc cap | initDec cap => rfl
  | codePh large | decodePh large => exact formatL_eq_ok_iff.mpr ⟨large, rfl, rfl⟩
  | codePatch postquant => exact formatQ_eq_ok_iff.mpr ⟨postquant, rfl, rfl⟩
  | flush | bpReset | codeGh | decodeGh | decodePatch | endData => exact formatZ_eq_ok_iff.mpr ⟨rfl, rfl⟩

/-- Settles O2: both fields of the word are the command's. -/
theorem decodedWordIsTheEncoding : Obligations.DecodedWordIsTheEncoding := by
  intro w i h
  obtain ⟨hop, harg⟩ := fields_of_decode h
  calc encode i = opField w ++ argField w := by rw [encode, hop, harg]
    _ = w := opField_append_argField w

/-- Settles O4: each legal word is the encoding of its command; of the two illegal ones, one has FLUSH's opcode and a
nonzero operand field, the other an opcode of no row. -/
theorem specWordsDecode : Obligations.SpecWordsDecode :=
  ⟨decodeReadsEncodedCommand (.pack 10), decodeReadsEncodedCommand (.unpack 32), decodeReadsEncodedCommand .flush,
    decodeReadsEncodedCommand (.initEnc 16), decodeReadsEncodedCommand (.initDec 14), decodeReadsEncodedCommand .codeGh,
    decodeReadsEncodedCommand (.decodePh true), decodeReadsEncodedCommand (.codePatch 5), rfl, rfl⟩

end Sys2Proof.Laws
end

section
/-! PROOFS of the family 40_bitpacker.md, part 1: the BitPacker commands (O10 to O15). In its session each command is the
primitive it is named after, and what that can do is said once in `packBits_spec`, `unpackValue_spec` and `flushPrim_eq`
(spec/40_bitpacker.md R100 to R109). -/

namespace Sys2Proof.Machine

/-! ### The commands in their sessions -/

section
variable {n : BitVec 6} {s : State}

/-- PACK with a legal operand in an encode session packs the low bits of DATA (R106). -/
theorem exec_pack_enc (hn : n.toNat ≤ 32) (hd : s.dir = .enc) :
    exec (.pack n) s = conclude (.pack n) s (packBits (wireBits s.data.toNat n.toNat) s) := by
  show execPack n s = _
  rw [execPack, if_neg (Nat.not_lt.mpr hn), if_neg (not_not_intro hd)]

/-- UNPACK with a legal operand in a decode session unpacks into DATA (R107). -/
theorem exec_unpack_dec (hn : n.toNat ≤ 32) (hd : s.dir = .dec) :
    exec (.unpack n) s = conclude (.unpack n) s
      (unpackValue n.toNat s >>= fun p => .ok { p.2 with data := BitVec.ofNat 32 p.1 }) := by
  show execUnpack n s = _
  rw [execUnpack, if_neg (Nat.not_lt.mpr hn), if_neg (not_not_intro hd)]
  rfl

/-- FLUSH in an encode session is `FlushPrim()` (R108). -/
theorem exec_flush_enc (hd : s.dir = .enc) : exec .flush s = conclude .flush s (flushPrim s) := by
  show execFlush s = _
  rw [execFlush, if_neg (not_not_intro hd)]

end

/-! ### PACK -/

/-- Packing raises BufferExhausted exactly without room for the bits (R106, R151). -/
theorem packBits_exhausts_iff {bits : List Bool} {s : State} (hs : s.PackReady) :
    packBits bits s = .error (.raise .bufferExhausted) ↔ ¬ s.Room bits.length := by
  refine ⟨fun h => (packBits_error hs h).1, fun h => ?_⟩
  have key := packBits_spec bits hs
  rwa [if_neg h] at key

/-- With room for them, packing appends its bits (R106). -/
theorem packBits_of_room {bits : List Bool} {s : State} (hs : s.PackReady) (h : s.Room bits.length) :
    ∃ t, packBits bits s = .ok t ∧ OnlyStream s t ∧ Appends bits s t ∧ t.PackReady := by
  have key := packBits_spec bits hs
  rwa [if_pos h] at key

/-- Settles O11: PACK is `PackValue` of DATA, which with room appends the bits and touches nothing but the stream. -/
theorem packAppendsBitsOfData : Obligations.PackAppendsBitsOfData := by
  intro n s hs hd hn hroom
  obtain ⟨t, hok, ho, happends, -⟩ := packBits_of_room (bits := wireBits s.data.toNat n.toNat)
    (hs.resting.packReady hd) (by rwa [length_wireBits])
  exact ⟨t, by rw [exec_pack_enc hn hd, hok, conclude_ok], ho, happends⟩

/-- Settles O12: the fault of PACK is the fault of packing, and the room that is missing is counted from
`byte_count <= capacity`. -/
theorem packExhaustsBufferExactly : Obligations.PackExhaustsBufferExactly := by
  intro n s hs hd hn
  have ⟨hf, _⟩ := hs
  have hready := hs.resting.packReady hd
  have ⟨_, hcount, _⟩ := hready
  have hle : s.byteCount.toNat ≤ s.capacity.toNat := BitVec.le_def.mp hcount
  have hpos := packedPos_eq s
  rw [exec_pack_enc hn hd, conclude_eq_next_raise fun u hu => (packBits_onlyStream hu).fault.trans hf,
    packBits_exhausts_iff hready, length_wireBits, State.Room]
  omega

/-! ### UNPACK -/

/-- The fields of a state that its stream is made of. -/
def State.stream (s : State) : Memory 8 × Nat × BitVec 24 × Byte × BitVec 4 × Word :=
  (s.buf, s.epoch, s.byteCount, s.acc, s.accBits, s.totalBits)

/-- What was taken from the stream does not depend on the registers outside of it. -/
theorem Consumes.congr {n : Nat} {s t u : State} (h : Consumes n s t) (hu : u.stream = t.stream) : Consumes n s u := by
  obtain ⟨hposition, hpartial, hcanonical, hcounted, hbuffer, hunread⟩ := h
  simp only [State.stream, Prod.mk.injEq] at hu
  obtain ⟨hbuf, hepoch, hcount, hacc, hbits, htotal⟩ := hu
  refine ⟨by rw [hcount, hbits]; exact hposition, by rw [hbits]; exact hpartial,
    by rw [hacc, hbits]; exact hcanonical, by rw [htotal]; exact hcounted, hbuf.trans hbuffer, fun k => ?_⟩
  rw [← hunread k]
  simp only [State.upcomingBit, State.streamBit, State.bufByte, hbuf, hepoch, hcount, hacc, hbits]

/-- Unpacking raises BufferExhausted exactly when fewer bits are left (R107, R151). -/
theorem unpackValue_exhausts_iff {n : Nat} {s : State} (hs : s.UnpackReady) :
    unpackValue n s = .error (.raise .bufferExhausted) ↔ ¬ s.Available n := by
  refine ⟨fun h => (unpackValue_error hs h).1, fun h => ?_⟩
  have key := unpackValue_spec n hs
  rwa [if_neg h] at key

/-- Everything UNPACK does with its bits left (R107): DATA is the value they carry. -/
theorem exec_unpack_available {n : BitVec 6} {s : State} (hs : s.UnpackReady) (hn : n.toNat ≤ 32) (hd : s.dir = .dec)
    (ha : s.Available n.toNat) :
    ∃ v t, exec (.unpack n) s = .next { t with data := BitVec.ofNat 32 v } ∧ OnlyStream s t ∧ Consumes n.toNat s t ∧
      t.UnpackReady ∧ v < 2 ^ n.toNat ∧ wireBits v n.toNat = s.upcoming n.toNat := by
  have key := unpackValue_spec n.toNat hs
  rw [if_pos ha] at key
  obtain ⟨v, t, hok, hrest⟩ := key
  exact ⟨v, t, by rw [exec_unpack_dec hn hd, hok]; rfl, hrest⟩

theorem toNat_ofNat_of_lt_two_pow {v n : Nat} (hv : v < 2 ^ n) (hn : n ≤ 32) : (BitVec.ofNat 32 v).toNat = v := by
  rw [BitVec.toNat_ofNat, Nat.mod_eq_of_lt (lt_of_lt_of_le hv (Nat.pow_le_pow_right (by norm_num) hn))]

/-- Settles O13: DATA holds the value unpacked, and no other register left the stream's. -/
theorem unpackDeliversNextBits : Obligations.UnpackDeliversNextBits := by
  intro n s hs hd hn ha
  obtain ⟨v, t, hexec, ho, hcons, -, hv, hwire⟩ := exec_unpack_available (hs.resting.unpackReady hd) hn hd ha
  refine ⟨_, hexec, hcons.congr rfl, ?_⟩
  have hdata := toNat_ofNat_of_lt_two_pow hv hn
  rw [hdata]
  refine ⟨hv, hwire, ?_⟩
  have hbuf := hcons.buffer
  rw [ho] at hbuf ⊢
  exact congrArg (fun b => ({ s with
    buf := b, byteCount := t.byteCount, acc := t.acc, accBits := t.accBits, totalBits := t.totalBits,
    data := BitVec.ofNat 32 v } : State)) hbuf

theorem bind_ok_eq_error_iff {α β : Type} {r : Except Stop α} {f : α → β} {e : Stop} :
    (r >>= fun a => .ok (f a)) = .error e ↔ r = .error e := by
  cases r with
  | ok a => exact ⟨nofun, nofun⟩
  | error e' => exact ⟨fun h => by cases h; rfl, fun h => by cases h; rfl⟩

/-- Settles O14: the fault of UNPACK is the fault of unpacking. -/
theorem unpackExhaustsBufferExactly : Obligations.UnpackExhaustsBufferExactly := by
  intro n s hs hd hn
  have ⟨hf, _⟩ := hs
  have hready := hs.resting.unpackReady hd
  have ⟨_, hcount, _⟩ := hready
  have hle : s.byteCount.toNat ≤ s.capacity.toNat := BitVec.le_def.mp hcount
  have hkeeps : Yields (unpackValue n.toNat s >>= fun p => .ok { p.2 with data := BitVec.ofNat 32 p.1 })
      fun u => u.fault = false :=
    Yields.bind (Q := fun p => p.2.fault = false) (fun _ h => (unpackValue_onlyStream h).1.fault.trans hf)
      fun _ h => .ok h
  rw [exec_unpack_dec hn hd, conclude_eq_next_raise hkeeps, bind_ok_eq_error_iff, unpackValue_exhausts_iff hready,
    State.Available]
  omega

/-! ### FLUSH -/

/-- The byte FLUSH stores: the staged bits at its top, highest first, and zeros below them (R104). -/
theorem getLsbD_flushedByte (acc : Byte) {staged j : Nat} (hstaged : staged ≤ 8) (hj : j < 8) :
    (acc <<< (8 - staged)).getLsbD (7 - j) = if j < staged then acc.getLsbD (staged - 1 - j) else false := by
  rw [BitVec.getLsbD_shiftLeft, decide_eq_true (by omega), Bool.true_and]
  split_ifs with hlt
  · rw [decide_eq_false (by omega), Bool.not_false, Bool.true_and]
    congr 1
    omega
  · rw [decide_eq_true (by omega)]
    rfl

/-- The stream after FLUSH with bits staged: every bit produced stands in BUF, and zeros follow up to the byte boundary
(R70, R104). -/
theorem streamBit_flushed {s : State} (h7 : s.accBits.toNat ≤ 7) {p : Nat} (hp : p < 8 * (s.byteCount.toNat + 1)) :
    (s.withByteStored (s.acc <<< (8 - s.accBits.toNat))).streamBit p =
      if p < s.packedPos then s.producedBit p else false := by
  have hpos := packedPos_eq s
  rw [State.streamBit, State.bufByte_withByteStored, State.producedBit]
  by_cases hdone : p < 8 * s.byteCount.toNat
  · rw [if_neg (by omega), if_pos (by omega), if_pos hdone]
    rfl
  · rw [if_pos (by omega), getLsbD_flushedByte _ (by omega) (by omega)]
    by_cases hlt : p < s.packedPos
    · rw [if_pos (by omega), if_pos hlt, if_neg hdone]
      congr 1
      omega
    · rw [if_neg (by omega), if_neg hlt]

/-- Settles O15: the cases of `flushPrim_eq`, and the check of the direction before them. -/
theorem flushCompletesStagedByte : Obligations.FlushCompletesStagedByte := by
  intro s hs
  obtain ⟨h7, -, hcap, -⟩ := hs.resting
  have hflush := flushPrim_eq hcap
  refine ⟨fun hd h0 => ?_, fun hd h0 hroom => ?_, fun hd h0 hfull => ?_, fun hd => ?_⟩
  · rw [exec_flush_enc hd, hflush, if_pos h0, conclude_ok]
  · have hpos := packedPos_eq s
    refine ⟨s.withByteStored (s.acc <<< (8 - s.accBits.toNat)), ?_, rfl, byteCount_succ_toNat hroom, fun p hp => ?_,
      fun p hle hp => ?_, fun a ha => ?_⟩
    · rw [exec_flush_enc hd, hflush, if_neg h0, if_pos hroom, conclude_ok]
    · rw [streamBit_flushed h7 (by omega), if_pos hp]
    · rw [streamBit_flushed h7 hp, if_neg (by omega)]
    · rw [State.bufByte_withByteStored, if_neg ha]
  · rw [exec_flush_enc hd, hflush, if_neg h0, if_neg (by rw [hfull]; exact BitVec.lt_irrefl _), conclude_raise]
  · show execFlush s = _
    rw [execFlush, if_pos hd, conclude_raise]

/-! ### BP_RESET -/

/-- Settles O10: BP_RESET is `ResetPrim()`, and while Faulted the port ignores the write that would issue it. -/
theorem bpResetZeroesCursorsOnly : Obligations.BpResetZeroesCursorsOnly :=
  ⟨by decide, fun _ => ⟨rfl, rfl⟩, fun _ hf => regWrite_of_fault 0 _ hf⟩

end Sys2Proof.Machine
end

section
/-! PROOFS of the family 40_bitpacker.md, part 2: the round trip of the BitPacker (O52). A run of PACKs appends the bits of
its fields, FLUSH completes the last byte, and a run of UNPACKs over the same BUF takes them off again field by field; a
value is fixed, modulo its width, by the bits it is sent as (spec/40_bitpacker.md R110). -/

namespace Sys2Proof.Machine

/-! ### Command lines -/

/-- A command's line runs the command (R42, R86). -/
theorem transact_cmd (i : Instr) {s : State} (hf : s.fault = false) : transact (cmd i) s = exec i s := by
  show regWrite 0 (encode i) s = _
  rw [regWrite_cmd _ hf, runCommand_of_decode (Laws.decodeReadsEncodedCommand i)]

theorem runTxns_cons {x : Txn} {s t : State} (h : transact x s = .next t) (rest : List Txn) :
    runTxns (x :: rest) s = runTxns rest t := by
  rw [runTxns, h]

theorem runTxns_append {xs : List Txn} {s t : State} (h : runTxns xs s = .next t) (ys : List Txn) :
    runTxns (xs ++ ys) s = runTxns ys t := by
  induction xs generalizing s with
  | nil =>
    cases h
    rfl
  | cons x xs ih =>
    cases hx : transact x s with
    | next u =>
      rw [runTxns_cons hx] at h
      rw [List.cons_append, runTxns_cons hx, ih h]
    | fault f =>
      rw [runTxns, hx] at h
      cases h
    | refused r =>
      rw [runTxns, hx] at h
      cases h

/-- A command's line returns no word. -/
theorem readsOf_cmd {i : Instr} {s t : State} (hf : s.fault = false) (h : exec i s = .next t) (rest : List Txn) :
    readsOf (cmd i :: rest) s = readsOf rest t := by
  rw [readsOf, transact_cmd i hf, h]
  dsimp only [cmd, wr]
  cases readsOf rest t <;> rfl

/-- A read returns the value of its register, before what the later reads return. -/
theorem readsOf_rd {reg : Reg} {s : State} {words : List Word} {rest : List Txn} (hf : s.fault = false)
    (h : readsOf rest { s with response := some (readReg reg s) } = some words) :
    readsOf (rd reg :: rest) s = some (readReg reg s :: words) := by
  rw [readsOf, rd, transact_read_reg hf (regOfNumber_numberOfReg reg)]
  dsimp only
  rw [h]
  rfl

/-! ### A run of PACKs -/

/-- The bits a list of values is packed as, each in its width (R101). -/
def packedBits (fields : List (Word × BitVec 6)) : List Bool :=
  fieldBits (fields.map fun f => (f.1.toNat, f.2.toNat))

theorem packedBits_cons (f : Word × BitVec 6) (rest : List (Word × BitVec 6)) :
    packedBits (f :: rest) = wireBits f.1.toNat f.2.toNat ++ packedBits rest := rfl

theorem length_packedBits (fields : List (Word × BitVec 6)) :
    (packedBits fields).length = (fields.map fun f => f.2.toNat).sum := by
  rw [packedBits, length_fieldBits, List.map_map]
  rfl

/-- What was appended does not depend on DATA. -/
theorem Appends.of_writeReg_data {bits : List Bool} {v : Word} {s t : State}
    (h : Appends bits (writeReg .data v s) t) : Appends bits s t :=
  ⟨h.position, h.partialByte, h.canonical, h.counted, h.kept, h.appended, h.elsewhere⟩

/-- One `packv` line: DATA is written, then its low bits are appended (R87). -/
theorem runTxns_packv {v : Word} {n : BitVec 6} {s : State} (hs : s.PackReady) (hf : s.fault = false)
    (hd : s.dir = .enc) (hn : n.toNat ≤ 32) (hroom : s.Room n.toNat) :
    ∃ t, runTxns (packv v n) s = .next t ∧ OnlyStream (writeReg .data v s) t ∧ Appends (wireBits v.toNat n.toNat) s t ∧
      t.PackReady := by
  obtain ⟨t, hok, ho, happends, hready⟩ := packBits_of_room (s := writeReg .data v s) (bits := wireBits v.toNat n.toNat)
    hs (by rwa [length_wireBits])
  have hwrite := transact_write_reg (s := s) v hf (regOfNumber_numberOfReg .data) (by decide)
  have hpack : transact (cmd (.pack n)) (writeReg .data v s) = .next t := by
    rw [transact_cmd _ ((writeReg_fault _ _ _).trans hf), exec_pack_enc (s := writeReg .data v s) hn hd]
    exact congrArg (conclude _ _) hok
  refine ⟨t, ?_, ho, happends.of_writeReg_data, hready⟩
  rw [packv, wr, runTxns_cons hwrite, runTxns_cons hpack, runTxns]

/-- A run of `packv` lines appends the bits of its fields; DATA and the stream are all it touches. -/
theorem runTxns_packvs (fields : List (Word × BitVec 6)) {s : State} (hs : s.PackReady) (hf : s.fault = false)
    (hd : s.dir = .enc) (hn : ∀ f ∈ fields, f.2.toNat ≤ 32) (hroom : s.Room (packedBits fields).length) :
    ∃ t, runTxns (fields.flatMap fun f => packv f.1 f.2) s = .next t ∧ OnlyStream (writeReg .data t.data s) t ∧
      Appends (packedBits fields) s t ∧ t.PackReady := by
  induction fields generalizing s with
  | nil => exact ⟨s, rfl, rfl, Appends.refl hs, hs⟩
  | cons f rest ih =>
    rw [packedBits_cons, List.length_append, length_wireBits] at hroom
    obtain ⟨u, hu, hou, hau, hru⟩ := runTxns_packv (v := f.1) hs hf hd (hn f List.mem_cons_self)
      (by unfold State.Room at *; omega)
    have hroom' : u.Room (packedBits rest).length := by
      have hpos := hau.position
      have hcap : u.capacity = s.capacity := hou.capacity
      rw [length_wireBits] at hpos
      unfold State.Room at *
      rw [hcap]
      omega
    obtain ⟨t, ht, hot, hat, hrt⟩ := ih hru (hou.fault.trans hf) (hou.dir.trans hd)
      (fun g hg => hn g (List.mem_cons_of_mem _ hg)) hroom'
    refine ⟨t, ?_, ?_, hau.trans hat, hrt⟩
    · rw [List.flatMap_cons, runTxns_append hu, ht]
    · rw [OnlyStream, hou] at hot
      exact hot

/-! ### FLUSH after it -/

/-- FLUSH of an encode session whose bits fit in `capacity` bytes leaves every bit packed so far in BUF (R70, R104). -/
theorem exec_flush_finishes {s : State} (hs : s.PackReady) (hd : s.dir = .enc)
    (hfits : s.packedPos ≤ 8 * s.capacity.toNat) :
    ∃ t, exec .flush s = .next t ∧ OnlyStream s t ∧ ∀ p, p < s.packedPos → t.streamBit p = s.producedBit p := by
  obtain ⟨h7, -, hcap, -⟩ := hs
  have hpos := packedPos_eq s
  rw [exec_flush_enc hd, flushPrim_eq hcap]
  by_cases h0 : s.accBits = 0
  · have hz : s.accBits.toNat = 0 := by rw [h0]; rfl
    rw [if_pos h0]
    exact ⟨s, rfl, OnlyStream.refl s, fun p hp => (if_pos (by omega)).symm⟩
  · have hz : s.accBits.toNat ≠ 0 := fun h => h0 (BitVec.eq_of_toNat_eq h)
    rw [if_neg h0, if_pos (BitVec.lt_def.mpr (by omega))]
    refine ⟨_, rfl, rfl, fun p hp => ?_⟩
    rw [streamBit_flushed h7 (by omega), if_pos hp]

/-! ### A run of UNPACKs -/

/-- A run of UNPACKs over the bits a list of values was packed as reads back the values (R110). -/
theorem readsOf_unpacks (fields : List (Word × BitVec 6)) {s : State} (hs : s.UnpackReady) (hf : s.fault = false)
    (hd : s.dir = .dec) (hn : ∀ f ∈ fields, f.2.toNat ≤ 32) (ha : s.Available (packedBits fields).length)
    (hbits : s.upcoming (packedBits fields).length = packedBits fields) :
    readsOf (fields.flatMap fun f => [cmd (.unpack f.2), rd .data]) s =
      some (fields.map fun f => BitVec.ofNat 32 (f.1.toNat % 2 ^ f.2.toNat)) := by
  induction fields generalizing s with
  | nil => rfl
  | cons f rest ih =>
    obtain ⟨w, n⟩ := f
    have hn32 : n.toNat ≤ 32 := hn (w, n) List.mem_cons_self
    rw [packedBits_cons, List.length_append, length_wireBits] at ha hbits
    dsimp only at ha hbits
    obtain ⟨v, t, hexec, ho, hcons, hready, hv, hwire⟩ := exec_unpack_available hs hn32 hd
      (by unfold State.Available at *; omega)
    rw [hcons.upcoming] at hbits
    obtain ⟨hfirst, hrest⟩ := List.append_inj hbits (by simp)
    have hvalue : v = w.toNat % 2 ^ n.toNat := by
      refine wireBits_inj hv (Nat.mod_lt _ (Nat.two_pow_pos _)) ?_
      rw [hwire, hfirst, wireBits_mod]
    have hlater := ih (s := { t with data := BitVec.ofNat 32 v, response := some (BitVec.ofNat 32 v) }) hready
      (ho.fault.trans hf) (ho.dir.trans hd) (fun g hg => hn g (List.mem_cons_of_mem _ hg))
      ((hcons.available ho _).mpr ha) hrest
    rw [List.flatMap_cons, List.cons_append, readsOf_cmd hf hexec, List.map_cons, ← hvalue]
    exact readsOf_rd (s := { t with data := BitVec.ofNat 32 v }) (ho.fault.trans hf) hlater

/-! ### Both sessions -/

theorem exec_initEnc {cap : BitVec 24} {s : State} (h : cap.toNat ≤ s.maxCap) :
    exec (.initEnc cap) s = .next (opened .enc cap s) := by
  show conclude (.initEnc cap) s (openSession .enc cap s) = _
  rw [openSession_eq, if_pos h]
  rfl

theorem exec_initDec {cap : BitVec 24} {s : State} (h : cap.toNat ≤ s.maxCap) :
    exec (.initDec cap) s = .next (opened .dec cap s) := by
  show conclude (.initDec cap) s (openSession .dec cap s) = _
  rw [openSession_eq, if_pos h]
  rfl

theorem packReady_opened {cap : BitVec 24} {s : State} (h : cap.toNat ≤ s.maxCap) : (opened .enc cap s).PackReady :=
  ⟨Nat.zero_le _, BitVec.le_def.mpr (Nat.zero_le _), h, Nat.one_pos⟩

theorem unpackReady_opened {cap : BitVec 24} {s : State} (h : cap.toNat ≤ s.maxCap) :
    (opened .dec cap s).UnpackReady :=
  ⟨Nat.zero_le _, BitVec.le_def.mpr (Nat.zero_le _), h, rfl⟩

/-- A decode session just opened reads the stream from its first bit (R30, R122). -/
theorem upcomingBit_opened (cap : BitVec 24) (s : State) (k : Nat) : (opened .dec cap s).upcomingBit k = s.streamBit k := by
  rw [upcomingBit_of_le (Nat.zero_le _)]
  exact congrArg s.streamBit (by simp [opened])

/-- Settles O52: the encode session appends the bits of the fields from position 0, FLUSH leaves them in BUF, and they are
the upcoming bits of the decode session. -/
theorem packUnpackRoundTrip : Obligations.PackUnpackRoundTrip := by
  intro s fields cap cap' hs hn hcap hcap' hfits hfits'
  have ⟨hf, _⟩ := hs
  rw [← length_packedBits] at hfits hfits'
  have hzero : (opened .enc cap s).packedPos = 0 := rfl
  have hroom : (opened .enc cap s).Room (packedBits fields).length := by
    show (opened .enc cap s).packedPos + _ < 8 * (cap.toNat + 1)
    omega
  obtain ⟨u, hu, hou, hau, hru⟩ := runTxns_packvs fields (packReady_opened hcap) hf rfl hn hroom
  have hpos := hau.position
  have hucap : u.capacity = cap := hou.capacity
  have hudir : u.dir = .enc := hou.dir
  have huf : u.fault = false := hou.fault.trans hf
  obtain ⟨t, ht, hot, hstored⟩ := exec_flush_finishes hru hudir (by rw [hucap]; omega)
  have htf : t.fault = false := hot.fault.trans huf
  have htcap : cap'.toNat ≤ t.maxCap := by
    rw [hot.maxCap, hou.maxCap]
    exact hcap'
  refine ⟨t, ?_, ?_⟩
  · have hinit := (transact_cmd (.initEnc cap) hf).trans (exec_initEnc hcap)
    rw [List.append_assoc, List.singleton_append, runTxns_cons hinit, runTxns_append hu,
      runTxns_cons ((transact_cmd .flush huf).trans ht), runTxns]
  · rw [List.singleton_append, readsOf_cmd htf (exec_initDec htcap)]
    refine readsOf_unpacks fields (unpackReady_opened htcap) htf rfl hn ?_ ?_
    · show 8 * 0 + _ ≤ 0 + 8 * cap'.toNat
      omega
    · refine List.ext_getElem (length_upcoming _ _) fun k _ hk => ?_
      have happended := hau.appended k hk
      rw [hzero, Nat.zero_add, List.getD_eq_getElem _ _ hk] at happended
      simp only [State.upcoming, List.getElem_map, List.getElem_range]
      rw [upcomingBit_opened, hstored k (by omega), happended]

end Sys2Proof.Machine
end

section
/-! PROOFS of the family 40_bitpacker.md, part 3: the frame over the registers (O41). Packing and unpacking touch nothing
but the stream, so what a command changes outside of it are the registers it writes by name
(spec/40_bitpacker.md R106 to R109, spec/41_codec_headers.md R121 to R128, spec/42_codec_patch.md R141, R142). -/

namespace Sys2Proof.Machine

/-- The registers of `t` outside the stream are those of `s`, but for the ones the rule of the command names. -/
structure RegisterFrame (i : Instr) (s t : State) : Prop where
  fixed : t.bufAddr = s.bufAddr ∧ t.patchAddr = s.patchAddr ∧ t.cause = s.cause ∧ t.faultCmd = s.faultCmd ∧
    t.bufAw = s.bufAw ∧ t.pending = s.pending ∧ t.response = s.response ∧ t.epoch = s.epoch ∧ t.draws = s.draws
  data : (∀ n, i ≠ .unpack n) → t.data = s.data
  groupHeader : i ≠ .decodeGh →
    t.ghStride = s.ghStride ∧ t.ghPatchSize = s.ghPatchSize ∧ t.ghLayerType = s.ghLayerType
  patchHeader : (∀ l, i ≠ .decodePh l) →
    t.phDcOffset = s.phDcOffset ∧ t.phRange = s.phRange ∧ t.phPatchIds = s.phPatchIds
  quantWbits : (∀ l, i ≠ .codePh l ∧ i ≠ .decodePh l) → t.phQuantWbits = s.phQuantWbits
  session : (∀ cap, i ≠ .initEnc cap ∧ i ≠ .initDec cap) →
    t.capacity = s.capacity ∧ t.dir = s.dir ∧
    (i ≠ .codeGh → i ≠ .decodeGh → t.curPatchSize = s.curPatchSize) ∧
    ((∀ l, i ≠ .codePh l ∧ i ≠ .decodePh l) → t.curWordBits = s.curWordBits)

section
variable {i : Instr} {s t u : State}

/-- A change of the stream alone is within every frame. -/
theorem OnlyStream.registerFrame (h : OnlyStream s t) : RegisterFrame i s t := by
  rw [h]
  exact ⟨⟨rfl, rfl, rfl, rfl, rfl, rfl, rfl, rfl, rfl⟩, fun _ => rfl, fun _ => ⟨rfl, rfl, rfl⟩,
    fun _ => ⟨rfl, rfl, rfl⟩, fun _ => rfl, fun _ => ⟨rfl, rfl, fun _ _ => rfl, fun _ => rfl⟩⟩

theorem RegisterFrame.trans (h1 : RegisterFrame i s t) (h2 : RegisterFrame i t u) : RegisterFrame i s u := by
  obtain ⟨⟨b1, b2, b3, b4, b5, b6, b7, b8, b9⟩, bdata, bgh, bph, bquant, bsession⟩ := h2
  refine ⟨?_, fun h => (bdata h).trans (h1.data h), fun h => ?_, fun h => ?_,
    fun h => (bquant h).trans (h1.quantWbits h), fun h => ?_⟩
  · rw [b1, b2, b3, b4, b5, b6, b7, b8, b9]
    exact h1.fixed
  · obtain ⟨c1, c2, c3⟩ := bgh h
    rw [c1, c2, c3]
    exact h1.groupHeader h
  · obtain ⟨c1, c2, c3⟩ := bph h
    rw [c1, c2, c3]
    exact h1.patchHeader h
  · obtain ⟨c1, c2, c3, c4⟩ := bsession h
    obtain ⟨d1, d2, d3, d4⟩ := h1.session h
    exact ⟨c1.trans d1, c2.trans d2, fun hc hd => (c3 hc hd).trans (d3 hc hd), fun hl => (c4 hl).trans (d4 hl)⟩

/-- BUF and PATCH are no registers. -/
theorem RegisterFrame.withPatch (h : RegisterFrame i s t) (m : Memory 32) : RegisterFrame i s { t with patch := m } :=
  { h with }

end

/-! ### The operations within a frame -/

/-- Packing stays within the frame reached so far. -/
theorem packBits_registerFrame {i : Instr} (bits : List Bool) {s t : State} (h : RegisterFrame i s t) :
    Yields (packBits bits t) (RegisterFrame i s) := fun _ hu => h.trans (packBits_onlyStream hu).registerFrame

theorem flushPrim_registerFrame (i : Instr) (s : State) : Yields (flushPrim s) (RegisterFrame i s) :=
  fun _ h => (flushPrim_onlyStream h).registerFrame

/-- Unpacking stays within the frame reached so far. -/
theorem unpackValue_registerFrame {i : Instr} (n : Nat) {s t : State} (h : RegisterFrame i s t) :
    Yields (unpackValue n t) fun p => RegisterFrame i s p.2 := fun _ hp =>
  h.trans (unpackValue_onlyStream hp).1.registerFrame

/-- The loop of DECODE_PATCH stores to PATCH and to no register (R142). -/
theorem decodeCoeffs_registerFrame {i : Instr} (w j left : Nat) {s t : State} (h : RegisterFrame i s t) :
    Yields (decodeCoeffs w j left t) (RegisterFrame i s) := by
  induction left generalizing j t with
  | zero => exact .ok h
  | succ k ih =>
    refine (unpackValue_registerFrame 1 h).bind fun (notZero, t1) h1 => ?_
    dsimp only
    split_ifs
    · exact ih (j + 1) (h1.withPatch _)
    · refine (unpackValue_registerFrame 1 h1).bind fun (isValue, t2) h2 => ?_
      dsimp only
      split_ifs
      · exact .ok (h2.withPatch _)
      · refine (unpackValue_registerFrame 1 h2).bind fun (negative, t3) h3 => ?_
        exact (unpackValue_registerFrame w h3).bind fun (m, t4) h4 => ih (j + 1) (h4.withPatch _)

/-- Opening a session keeps all but the session's own registers (R121, R122). -/
theorem openSession_registerFrame {i : Instr} (d : Dir) (cap : BitVec 24) (s : State)
    (hi : i = .initEnc cap ∨ i = .initDec cap) : Yields (openSession d cap s) (RegisterFrame i s) := by
  have hstream : RegisterFrame i s (resetPrim s) := OnlyStream.registerFrame rfl
  refine .check fun _ => .ok { hstream with session := fun h => ?_ }
  exact absurd hi (not_or.mpr (h cap))

/-! ### The commands -/

/-- Every command that completes stays within its frame: the stream, and then the registers its rule names. -/
theorem exec_registerFrame {i : Instr} {s t : State} (h : exec i s = .next t) (hf : t.fault = false) :
    RegisterFrame i s t := by
  have start : RegisterFrame i s s := (OnlyStream.refl s).registerFrame
  cases i with
  | pack n => exact conclude_yields (.check fun _ => .check fun _ => packBits_registerFrame _ start) h hf
  | unpack n =>
    refine conclude_yields (.check fun _ => .check fun _ => ?_) h hf
    exact (unpackValue_registerFrame _ start).bind fun _ h1 => .ok { h1 with data := fun hi => absurd rfl (hi n) }
  | flush => exact conclude_yields (.check fun _ => flushPrim_registerFrame _ s) h hf
  | bpReset =>
    exact conclude_yields (i := .bpReset) (s := s) (r := .ok (resetPrim s)) (.ok (OnlyStream.registerFrame rfl)) h hf
  | initEnc cap => exact conclude_yields (openSession_registerFrame .enc cap s (.inl rfl)) h hf
  | initDec cap => exact conclude_yields (openSession_registerFrame .dec cap s (.inr rfl)) h hf
  | codeGh =>
    refine conclude_yields (.check fun _ => ?_) h hf
    refine (packBits_registerFrame _ start).bind fun _ h1 => .ok { h1 with session := fun hi => ?_ }
    obtain ⟨hcap, hdir, -, hwidth⟩ := h1.session hi
    exact ⟨hcap, hdir, fun hne => absurd rfl hne, hwidth⟩
  | decodeGh =>
    refine conclude_yields (.check fun _ => ?_) h hf
    refine (unpackValue_registerFrame 16 start).bind fun _ h1 => ?_
    refine (unpackValue_registerFrame 8 h1).bind fun _ h2 => ?_
    refine (unpackValue_registerFrame 8 h2).bind fun _ h3 =>
      .ok { h3 with groupHeader := fun hne => absurd rfl hne, session := fun hi => ?_ }
    obtain ⟨hcap, hdir, -, hwidth⟩ := h3.session hi
    exact ⟨hcap, hdir, fun _ hne => absurd rfl hne, hwidth⟩
  | codePh large =>
    refine conclude_yields (.check fun _ => .check fun _ => ?_) h hf
    have hquant : RegisterFrame (.codePh large) s { s with
        phQuantWbits := withWidthNibble s.phQuantWbits (chooseWbits s.phQuantWbits s.grid) } :=
      { start with quantWbits := fun hi => absurd rfl (hi large).1 }
    refine (packBits_registerFrame _ hquant).bind fun _ h1 => .ok { h1 with session := fun hi => ?_ }
    obtain ⟨hcap, hdir, hsize, -⟩ := h1.session hi
    exact ⟨hcap, hdir, hsize, fun hne => absurd rfl (hne large).1⟩
  | decodePh large =>
    refine conclude_yields (.check fun _ => ?_) h hf
    refine (unpackValue_registerFrame 8 start).bind fun _ h1 => ?_
    dsimp only
    split_ifs
    · exact .ok { h1 with
        patchHeader := fun hi => absurd rfl (hi large)
        quantWbits := fun hi => absurd rfl (hi large).2 }
    · refine (unpackValue_registerFrame 32 h1).bind fun _ h2 => ?_
      refine (unpackValue_registerFrame 16 h2).bind fun _ h3 => ?_
      refine (unpackValue_registerFrame _ h3).bind fun _ h4 => .ok { h4 with
        patchHeader := fun hi => absurd rfl (hi large)
        quantWbits := fun hi => absurd rfl (hi large).2
        session := fun hi => ?_ }
      obtain ⟨hcap, hdir, hsize, -⟩ := h4.session hi
      exact ⟨hcap, hdir, hsize, fun hne => absurd rfl (hne large).2⟩
  | codePatch postquant =>
    refine conclude_yields (.check fun _ => .check fun _ => ?_) h hf
    exact packBits_registerFrame _ (start.withPatch _)
  | decodePatch => exact conclude_yields (.check fun _ => decodeCoeffs_registerFrame _ _ _ start) h hf
  | endData =>
    refine conclude_yields (.check fun _ => ?_) h hf
    exact (packBits_registerFrame _ start).bind fun _ h1 => .ok { h1 with }

/-- FLUSH counts no bit (R104). -/
theorem exec_flush_totalBits {s t : State} (hs : s.Resting) (h : exec .flush s = .next t) (hf : t.fault = false) :
    t.totalBits = s.totalBits := by
  obtain ⟨-, -, hcap, -⟩ := hs
  refine conclude_yields (P := fun u => u.totalBits = s.totalBits) (.check fun _ => ?_) h hf
  rw [flushPrim_eq hcap]
  split_ifs
  · exact .ok rfl
  · exact .ok rfl
  · exact nofun

/-- Settles O41: the frame of every command, and what FLUSH does not count. -/
theorem commandsKeepUnnamedRegisters : Obligations.CommandsKeepUnnamedRegisters := by
  intro i s t hs h hf
  obtain ⟨hfixed, hdata, hgh, hph, hquant, hsession⟩ := exec_registerFrame h hf
  refine ⟨hfixed, hdata, hgh, hph, hquant, hsession, ?_⟩
  rintro rfl
  exact exec_flush_totalBits hs.resting h hf

end Sys2Proof.Machine
end

section
/-! PROOFS of the family 40_bitpacker.md, part 4: the stream position (O40). Every command that sends packs once, so it
moves by the bits it sends; every command that reads unpacks some values one after another, and the bits taken add up
(spec/40_bitpacker.md R113, spec/10_state.md R30). -/

namespace Sys2Proof.Machine

/-! ### Packing moves the position -/

/-- From `s` to `t` an encode session packed `k` bits. -/
structure Packs (k : Nat) (s t : State) : Prop where
  start : s.dir = .enc
  dir : t.dir = .enc
  position : t.packedPos = s.packedPos + k
  partialByte : t.accBits.toNat ≤ 7
  counted : t.totalBits = s.totalBits + BitVec.ofNat 32 k

theorem packBits_packs {bits : List Bool} {k : Nat} (hlen : bits.length = k) {s : State} (hs : s.PackReady)
    (hd : s.dir = .enc) : Yields (packBits bits s) (Packs k s) := by
  intro t h
  obtain ⟨-, ho, happends, -⟩ := packBits_ok hs h
  subst hlen
  exact ⟨hd, ho.dir.trans hd, happends.position, happends.partialByte, happends.counted⟩

theorem streamPos_of_enc {s : State} (hd : s.dir = .enc) : s.streamPos = s.packedPos := by
  rw [State.streamPos, hd]
  rfl

theorem streamPos_of_dec {s : State} (hd : s.dir = .dec) : s.streamPos = 8 * s.byteCount.toNat - s.accBits.toNat := by
  rw [State.streamPos, hd]

/-- The position law of R113 for an encode session. -/
theorem Packs.law {k : Nat} {s t : State} (h : Packs k s t) :
    t.byteCount.toNat = (8 * s.byteCount.toNat + s.accBits.toNat + k) / 8 ∧
    t.accBits.toNat = (8 * s.byteCount.toNat + s.accBits.toNat + k) % 8 ∧
    t.streamPos = s.streamPos + k ∧
    t.totalBits = s.totalBits + BitVec.ofNat 32 k := by
  obtain ⟨hstart, hdir, hpos, h7, hcount⟩ := h
  have hbefore := packedPos_eq s
  have hafter := packedPos_eq t
  rw [streamPos_of_enc hstart, streamPos_of_enc hdir]
  exact ⟨by omega, by omega, hpos, hcount⟩

/-- A command that sends `k` bits packs `k` bits. -/
theorem exec_packs {i : Instr} {s t : State} (hs : s.Resting) (h : exec i s = .next t) (hf : t.fault = false) {k : Nat}
    (hk : bitsSent i s = some k) : Packs k s t := by
  cases i with
  | pack n =>
    cases hk
    refine conclude_yields (.check fun _ => .check fun hd => ?_) h hf
    exact packBits_packs (length_wireBits _ _) (hs.packReady (of_not_not hd)) (of_not_not hd)
  | codeGh =>
    cases hk
    refine conclude_yields (.check fun hd => ?_) h hf
    exact (packBits_packs (length_groupHeader s) (hs.packReady (of_not_not hd)) (of_not_not hd)).bind fun _ h1 =>
      .ok { h1 with }
  | codePh large =>
    cases hk
    refine conclude_yields (.check fun hd => .check fun _ => ?_) h hf
    have henc := of_not_not (not_or.mp hd).1
    have hready : State.PackReady { s with
        phQuantWbits := withWidthNibble s.phQuantWbits (chooseWbits s.phQuantWbits s.grid) } := hs.packReady henc
    exact (packBits_packs (length_patchHeader large _) hready henc).bind fun _ h1 => .ok { h1 with }
  | codePatch q =>
    cases hk
    refine conclude_yields (.check fun hd => .check fun hq => ?_) h hf
    have henc := of_not_not (not_or.mp hd).1
    have hready : (truncateTail q.toNat s).PackReady := hs.packReady henc
    have hlen := congrArg List.length (coeffBits_truncateTail (Nat.le_of_not_lt hq))
    exact (packBits_packs hlen hready henc).mono fun _ h1 => { h1 with }
  | endData =>
    cases hk
    refine conclude_yields (.check fun hd => ?_) h hf
    have henc := of_not_not (not_or.mp hd).1
    exact (packBits_packs (length_wireBits _ _) (hs.packReady henc) henc).bind fun _ h1 => .ok { h1 with }
  | _ => cases hk

/-! ### Unpacking moves the position -/

/-- From `s` to `t` a decode session unpacked `k` bits, and can go on. -/
structure Unpacks (k : Nat) (s t : State) : Prop where
  start : s.dir = .dec
  dir : t.dir = .dec
  taken : Consumes k s t
  ready : t.UnpackReady

theorem Unpacks.refl {s : State} (hs : s.Resting) (hd : s.dir = .dec) : Unpacks 0 s s :=
  ⟨hd, hd, Consumes.refl (hs.unpackReady hd), hs.unpackReady hd⟩

/-- Unpacking `n` more bits, with the value they carry. -/
theorem unpackValue_unpacks (n : Nat) {k : Nat} {s t : State} (h : Unpacks k s t) :
    Yields (unpackValue n t) fun p => Unpacks (k + n) s p.2 ∧ p.1 < 2 ^ n ∧ wireBits p.1 n = t.upcoming n := by
  rintro ⟨v, u⟩ hu
  obtain ⟨-, ho, hcons, hready, hv, hwire⟩ := unpackValue_ok h.ready hu
  exact ⟨⟨h.start, ho.dir.trans h.dir, h.taken.trans hcons, hready⟩, hv, hwire⟩

/-- The loop of DECODE_PATCH unpacks some number of bits (R142). -/
theorem decodeCoeffs_unpacks (w j left : Nat) {k : Nat} {s t : State} (h : Unpacks k s t) :
    Yields (decodeCoeffs w j left t) fun u => ∃ m, Unpacks m s u := by
  induction left generalizing j k t with
  | zero => exact .ok ⟨k, h⟩
  | succ left ih =>
    have stored : ∀ {m : Nat} (u : State) (v : Int), Unpacks m s u →
        Yields (decodeCoeffs w (j + 1) left (u.setCoeff j v)) fun u => ∃ m, Unpacks m s u := fun u v hu =>
      ih (j + 1) ⟨hu.start, hu.dir, hu.taken.congr rfl, hu.ready⟩
    refine (unpackValue_unpacks 1 h).bind fun (notZero, t1) ⟨h1, _⟩ => ?_
    dsimp only
    split_ifs
    · exact stored t1 0 h1
    · refine (unpackValue_unpacks 1 h1).bind fun (isValue, t2) ⟨h2, _⟩ => ?_
      dsimp only
      split_ifs
      · exact .ok ⟨_, h2.start, h2.dir, h2.taken.congr rfl, h2.ready⟩
      · refine (unpackValue_unpacks 1 h2).bind fun (negative, t3) ⟨h3, _⟩ => ?_
        exact (unpackValue_unpacks w h3).bind fun (m, t4) ⟨h4, _⟩ => stored t4 _ h4

/-- The byte just unpacked is the sentinel exactly if the stream had the sentinel's bits next (R127). -/
theorem eq_endOfPatches_iff {v : Nat} {s : State} (hv : v < 2 ^ 8) (hwire : wireBits v 8 = s.upcoming 8) :
    BitVec.ofNat 8 v = endOfPatches ↔ s.upcoming 8 = wireBits endOfPatches.toNat 8 := by
  rw [← hwire, ← BitVec.toNat_inj, BitVec.toNat_ofNat, Nat.mod_eq_of_lt hv]
  exact ⟨fun h => by rw [h], wireBits_inj hv endOfPatches.isLt⟩

/-- A command that reads `k` bits unpacks `k` bits. -/
theorem exec_unpacks {i : Instr} {s t : State} (hs : s.Resting) (h : exec i s = .next t) (hf : t.fault = false) {k : Nat}
    (hk : bitsRead i s = some k) : Unpacks k s t := by
  have start : ¬ s.dir ≠ .dec → Unpacks 0 s s := fun hd => .refl hs (of_not_not hd)
  cases i with
  | unpack n =>
    cases hk
    refine conclude_yields (.check fun _ => .check fun hd => ?_) h hf
    refine (unpackValue_unpacks n.toNat (start hd)).bind fun (v, s1) ⟨h1, _⟩ => .ok ?_
    rw [Nat.zero_add] at h1
    exact ⟨h1.start, h1.dir, h1.taken.congr rfl, h1.ready⟩
  | decodeGh =>
    cases hk
    refine conclude_yields (.check fun hd => ?_) h hf
    refine (unpackValue_unpacks 16 (start hd)).bind fun (_, s1) ⟨h1, _⟩ => ?_
    refine (unpackValue_unpacks 8 h1).bind fun (_, s2) ⟨h2, _⟩ => ?_
    refine (unpackValue_unpacks 8 h2).bind fun (_, s3) ⟨h3, _⟩ => .ok ?_
    exact ⟨h3.start, h3.dir, h3.taken.congr rfl, h3.ready⟩
  | decodePh large =>
    cases hk
    refine conclude_yields (.check fun hd => ?_) h hf
    refine (unpackValue_unpacks 8 (start (not_or.mp hd).1)).bind fun (v, s1) ⟨h1, hv, hwire⟩ => ?_
    dsimp only
    simp only [← eq_endOfPatches_iff hv hwire]
    by_cases hq : BitVec.ofNat 8 v = endOfPatches
    · rw [if_pos hq, if_pos hq]
      exact .ok ⟨h1.start, h1.dir, h1.taken.congr rfl, h1.ready⟩
    · rw [if_neg hq, if_neg hq]
      refine (unpackValue_unpacks 32 h1).bind fun (_, s2) ⟨h2, _⟩ => ?_
      refine (unpackValue_unpacks 16 h2).bind fun (_, s3) ⟨h3, _⟩ => ?_
      refine (unpackValue_unpacks (patchIdsWidth large) h3).bind fun (_, s4) ⟨h4, _⟩ => .ok ?_
      have hsum : 0 + 8 + 32 + 16 + patchIdsWidth large = if large then 88 else 66 := by cases large <;> rfl
      rw [hsum] at h4
      exact ⟨h4.start, h4.dir, h4.taken.congr rfl, h4.ready⟩
  | _ => cases hk

/-- DECODE_PATCH unpacks the bits its coefficients decide (R142). -/
theorem exec_decodePatch_unpacks {s t : State} (hs : s.Resting) (h : exec .decodePatch s = .next t)
    (hf : t.fault = false) : ∃ k, Unpacks k s t := by
  refine conclude_yields (P := fun u => ∃ k, Unpacks k s u) (.check fun hd => ?_) h hf
  exact decodeCoeffs_unpacks _ 0 _ (.refl hs (of_not_not (not_or.mp hd).1))

section
variable {k : Nat} {s t : State} (hs : s.Resting) (h : Unpacks k s t)
include hs h

/-- The stream position of a decode session, which is not negative (R30), moves by the bits unpacked. -/
theorem Unpacks.streamPos_eq : t.streamPos = s.streamPos + k := by
  obtain ⟨-, -, -, -, -, -, -, -, -, hloaded⟩ := hs
  have hbefore := hloaded h.start
  have hpos := h.taken.position
  rw [streamPos_of_dec h.start, streamPos_of_dec h.dir]
  omega

/-- The position law of R113 for a decode session. -/
theorem Unpacks.law :
    t.byteCount.toNat = (s.streamPos + k + 7) / 8 ∧
    t.accBits.toNat = 8 * t.byteCount.toNat - (s.streamPos + k) ∧
    t.streamPos = s.streamPos + k ∧
    t.totalBits = s.totalBits + BitVec.ofNat 32 k := by
  have hmoved := h.streamPos_eq hs
  obtain ⟨-, -, -, -, -, -, -, -, -, hloaded⟩ := hs
  have hbefore := hloaded h.start
  have hpos := h.taken.position
  have h7 := h.taken.partialByte
  have hstream := streamPos_of_dec h.start
  exact ⟨by omega, by omega, hmoved, h.taken.counted⟩

end

/-! ### FLUSH, and the law -/

/-- FLUSH moves the position up to the next byte boundary (R30, R104). -/
theorem exec_flush_streamPos {s t : State} (hs : s.Resting) (h : exec .flush s = .next t) (hf : t.fault = false) :
    t.streamPos = (s.streamPos + 7) / 8 * 8 := by
  obtain ⟨h7, -, hcap, -⟩ := hs
  refine conclude_yields (P := fun u => u.streamPos = (s.streamPos + 7) / 8 * 8) (.check fun hd => ?_) h hf
  have henc := of_not_not hd
  have hpos := packedPos_eq s
  rw [flushPrim_eq hcap, streamPos_of_enc henc]
  split_ifs with h0 hroom
  · have hz : s.accBits.toNat = 0 := by rw [h0]; rfl
    refine .ok ?_
    rw [streamPos_of_enc henc]
    omega
  · have hz : s.accBits.toNat ≠ 0 := fun h => h0 (BitVec.eq_of_toNat_eq h)
    refine .ok ?_
    rw [streamPos_of_enc (s := s.withByteStored _) henc, packedPos_eq, withByteStored_byteCount, byteCount_succ_toNat hroom, withByteStored_accBits]
    show 8 * (s.byteCount.toNat + 1) + 0 = _
    omega
  · exact nofun

/-- Settles O40: the commands that send, those that read a known number of bits, DECODE_PATCH by the number of bits it
took, and FLUSH. -/
theorem streamPositionLaw : Obligations.StreamPositionLaw := by
  intro i s t hs h hf
  have hrest := hs.resting
  refine ⟨fun k hk => (exec_packs hrest h hf hk).law, fun k hk => ?_, ?_, ?_⟩
  · rcases hk with hk | ⟨rfl, hmoved⟩
    · exact (exec_unpacks hrest h hf hk).law hrest
    · obtain ⟨m, hm⟩ := exec_decodePatch_unpacks hrest h hf
      have hpos := hm.streamPos_eq hrest
      obtain rfl : m = k := by omega
      exact hm.law hrest
  · rintro rfl
    obtain ⟨m, hm⟩ := exec_decodePatch_unpacks hrest h hf
    have hpos := hm.streamPos_eq hrest
    omega
  · rintro rfl
    exact ⟨exec_flush_streamPos hrest h hf, exec_flush_totalBits hrest h hf⟩

end Sys2Proof.Machine
end

section
/-! PROOFS of the family 40_bitpacker.md, part 5: BUF at and beyond `capacity` (O39). Two runs of one command are compared,
from states that differ only in BUF and there only from `capacity` up: every load and store is below `capacity`, so the
runs answer alike and neither touches what is beyond (spec/40_bitpacker.md R111, spec/60_exceptions.md R151). -/

namespace Sys2Proof.Machine

/-! ### Two computations that go alike -/

/-- Both complete, with results in the relation, or both stop for the same reason. -/
inductive Agree {α β : Type} (R : α → β → Prop) : Except Stop α → Except Stop β → Prop where
  | ok {a : α} {b : β} (h : R a b) : Agree R (.ok a) (.ok b)
  | error (e : Stop) : Agree R (.error e) (.error e)

section
variable {α β γ δ : Type} {R : α → β → Prop} {Q : γ → δ → Prop}

/-- A branch that both take. -/
theorem Agree.ite {p : Prop} [Decidable p] {r1 r2 : Except Stop α} {r1' r2' : Except Stop β}
    (h1 : p → Agree R r1 r1') (h2 : ¬ p → Agree R r2 r2') :
    Agree R (if p then r1 else r2) (if p then r1' else r2') := by
  split_ifs with hp
  · exact h1 hp
  · exact h2 hp

/-- A check in front of both, of what the two have in common. -/
theorem Agree.check {p : Prop} [Decidable p] {e : Stop} {r : Except Stop α} {r' : Except Stop β}
    (h : ¬ p → Agree R r r') : Agree R (if p then .error e else r) (if p then .error e else r') :=
  .ite (fun _ => .error e) h

theorem Agree.bind {r : Except Stop α} {r' : Except Stop β} {k : α → Except Stop γ} {k' : β → Except Stop δ}
    (hr : Agree R r r') (hk : ∀ a b, R a b → Agree Q (k a) (k' b)) : Agree Q (r >>= k) (r' >>= k') := by
  cases hr with
  | ok h => exact hk _ _ h
  | error e => exact .error e

theorem Agree.mono {R' : α → β → Prop} {r : Except Stop α} {r' : Except Stop β} (hr : Agree R r r')
    (h : ∀ a b, R a b → R' a b) : Agree R' r r' := by
  cases hr with
  | ok hab => exact .ok (h _ _ hab)
  | error e => exact .error e

end

/-! ### Two states that differ beyond an address -/

/-- Two contents of BUF that agree below `c`; from `c` up the one is `m` and the other `m'`. -/
structure SplitAt (c : Nat) (m m' x x' : Memory 8) : Prop where
  below : ∀ a, a < c → x'.lookup a = x.lookup a
  beyond : ∀ a, c ≤ a → x.lookup a = m.lookup a
  beyond' : ∀ a, c ≤ a → x'.lookup a = m'.lookup a

/-- Two states without a fault that differ only in BUF, and there only from `c` up, where it is `m` and `m'`. -/
structure Twins (c : Nat) (m m' : Memory 8) (s s' : State) : Prop where
  running : s.fault = false
  differ : ∃ x', s' = { s with buf := x' } ∧ SplitAt c m m' s.buf x'

/-- `Twins` in a session that ends at `c` or before. -/
structure TwinsWithin (c : Nat) (m m' : Memory 8) (s s' : State) : Prop extends Twins c m m' s s' where
  limit : s.capacity.toNat ≤ c

/-- The same value unpacked on both sides, and the states after it. -/
def SameValue {α : Type} (R : State → State → Prop) (p p' : α × State) : Prop := p.1 = p'.1 ∧ R p.2 p'.2

section
variable {c : Nat} {m m' : Memory 8} {s s' : State}

theorem SplitAt.write {x x' : Memory 8} (h : SplitAt c m m' x x') (v : Byte) {a : Nat} (ha : a < c) :
    SplitAt c m m' (x.write a v) (x'.write a v) where
  below b hb := by rw [Memory.lookup_write, Memory.lookup_write, h.below b hb]
  beyond b hb := by rw [Memory.lookup_write, if_neg (by omega), h.beyond b hb]
  beyond' b hb := by rw [Memory.lookup_write, if_neg (by omega), h.beyond' b hb]

/-- A change of registers that does not look at BUF. -/
theorem Twins.map (h : Twins c m m' s s') (f : State → State) (hf : ∀ x, f { s with buf := x } = { f s with buf := x })
    (hbuf : (f s).buf = s.buf) (hfault : (f s).fault = s.fault) : Twins c m m' (f s) (f s') := by
  obtain ⟨hrun, x', rfl, hsplit⟩ := h
  exact ⟨hfault.trans hrun, x', hf x', by rwa [hbuf]⟩

theorem TwinsWithin.map (h : TwinsWithin c m m' s s') (f : State → State)
    (hf : ∀ x, f { s with buf := x } = { f s with buf := x }) (hbuf : (f s).buf = s.buf)
    (hfault : (f s).fault = s.fault) (hcap : (f s).capacity = s.capacity) : TwinsWithin c m m' (f s) (f s') :=
  ⟨h.toTwins.map f hf hbuf hfault, by rw [hcap]; exact h.limit⟩

/-! ### Packing -/

/-- A byte is stored below `capacity`, on both sides (R100, R104). -/
theorem storeByte_agree (v : Byte) (h : TwinsWithin c m m' s s') :
    Agree (TwinsWithin c m m') (storeByte v s) (storeByte v s') := by
  obtain ⟨⟨hrun, x', rfl, hsplit⟩, hlimit⟩ := h
  refine .check fun hcap => .check fun _ => .ok ⟨⟨hrun, _, rfl, hsplit.write v ?_⟩, hlimit⟩
  exact lt_of_lt_of_le (BitVec.lt_def.mp (BitVec.not_le.mp hcap)) hlimit

theorem packBit_agree (b : Bool) (h : TwinsWithin c m m' s s') :
    Agree (TwinsWithin c m m') (packBit b s) (packBit b s') := by
  have hstaged := h.map (fun t => t.withBitStaged b) (fun _ => rfl) rfl rfl rfl
  obtain ⟨⟨-, x', rfl, -⟩, -⟩ := h
  exact .ite (fun _ => storeByte_agree _ hstaged) fun _ => .ok hstaged

theorem packBits_cons (b : Bool) (rest : List Bool) (s : State) :
    packBits (b :: rest) s = packBit b s >>= packBits rest := by
  rw [packBits]
  cases packBit b s <;> rfl

theorem packBits_agree (bits : List Bool) (h : TwinsWithin c m m' s s') :
    Agree (TwinsWithin c m m') (packBits bits s) (packBits bits s') := by
  induction bits generalizing s s' with
  | nil => exact .ok h
  | cons b rest ih =>
    rw [packBits_cons, packBits_cons]
    exact (packBit_agree b h).bind fun _ _ h1 => ih h1

theorem flushPrim_agree (h : TwinsWithin c m m' s s') : Agree (TwinsWithin c m m') (flushPrim s) (flushPrim s') := by
  have ⟨⟨_, x', hs', _⟩, _⟩ := h
  subst hs'
  exact .ite (fun _ => storeByte_agree _ h) fun _ => .ok h

/-! ### Unpacking -/

/-- A byte is loaded from below `capacity`, where both sides hold the same (R102). -/
theorem loadByte_agree (h : TwinsWithin c m m' s s') : Agree (TwinsWithin c m m') (loadByte s) (loadByte s') := by
  have ⟨⟨hrun, x', hs', hsplit⟩, hlimit⟩ := h
  subst hs'
  refine .ite (fun _ => .check fun hcap => .check fun _ => .ok ⟨⟨hrun, x', ?_, hsplit⟩, hlimit⟩) fun _ => .ok h
  have hlt : s.byteCount.toNat < c := lt_of_lt_of_le (BitVec.lt_def.mp (BitVec.not_le.mp hcap)) hlimit
  have hbyte : State.bufByte { s with buf := x' } s.byteCount.toNat = s.bufByte s.byteCount.toNat :=
    congrArg (fun v => v.getD (Config.bufUnspecified s.epoch s.byteCount.toNat)) (hsplit.below _ hlt)
  exact congrArg (fun v => ({ s with buf := x', acc := v, byteCount := s.byteCount + 1, accBits := 8 } : State)) hbyte

theorem unpackBit_eq_bind (s : State) : unpackBit s = loadByte s >>= fun t => .ok (t.acc.msb, t.withBitTaken) := by
  rw [unpackBit]
  cases loadByte s <;> rfl

theorem unpackBit_agree (h : TwinsWithin c m m' s s') :
    Agree (SameValue (TwinsWithin c m m')) (unpackBit s) (unpackBit s') := by
  rw [unpackBit_eq_bind, unpackBit_eq_bind]
  refine (loadByte_agree h).bind fun t t' h1 => .ok ⟨?_, h1.map State.withBitTaken (fun _ => rfl) rfl rfl rfl⟩
  obtain ⟨⟨-, x', rfl, -⟩, -⟩ := h1
  rfl

theorem unpackChunk_succ (d : Nat) (out : Byte) (s : State) :
    unpackChunk (d + 1) out s =
      unpackBit s >>= fun p => unpackChunk d ((out <<< 1) ||| (BitVec.ofBool p.1).setWidth 8) p.2 := by
  rw [unpackChunk]
  cases unpackBit s <;> rfl

theorem unpackChunk_agree (d : Nat) (out : Byte) (h : TwinsWithin c m m' s s') :
    Agree (SameValue (TwinsWithin c m m')) (unpackChunk d out s) (unpackChunk d out s') := by
  induction d generalizing out s s' with
  | zero => exact .ok ⟨rfl, h⟩
  | succ d ih =>
    rw [unpackChunk_succ, unpackChunk_succ]
    refine (unpackBit_agree h).bind fun (b, t) (b', t') ⟨hb, h1⟩ => ?_
    cases hb
    exact ih _ h1

theorem unpackChunks_cons (d : Nat) (ds : List Nat) (s : State) :
    unpackChunks (d :: ds) s =
      unpackChunk d 0 s >>= fun p => unpackChunks ds p.2 >>= fun q => .ok (p.1 :: q.1, q.2) := by
  rw [unpackChunks]
  cases unpackChunk d 0 s with
  | error e => rfl
  | ok p =>
    show _ = unpackChunks ds p.2 >>= _
    dsimp only
    cases unpackChunks ds p.2 <;> rfl

theorem unpackChunks_agree (ds : List Nat) (h : TwinsWithin c m m' s s') :
    Agree (SameValue (TwinsWithin c m m')) (unpackChunks ds s) (unpackChunks ds s') := by
  induction ds generalizing s s' with
  | nil => exact .ok ⟨rfl, h⟩
  | cons d ds ih =>
    rw [unpackChunks_cons, unpackChunks_cons]
    refine (unpackChunk_agree d 0 h).bind fun (r, t) (r', t') ⟨hr, h1⟩ => ?_
    refine (ih h1).bind fun (rs, u) (rs', u') ⟨hrs, h2⟩ => ?_
    cases hr
    cases hrs
    exact .ok ⟨rfl, h2⟩

theorem unpackValue_eq_bind (n : Nat) (s : State) :
    unpackValue n s = unpackChunks (chunkWidths n) s >>= fun p => .ok (bytesValue p.1, p.2) := by
  rw [unpackValue]
  cases unpackChunks (chunkWidths n) s <;> rfl

/-- Unpacking a value, followed on both sides by what runs on it and on the stream it leaves. -/
theorem unpackValue_bind_agree (n : Nat) {α β : Type} {R : α → β → Prop} {k : Nat × State → Except Stop α}
    {k' : Nat × State → Except Stop β} (h : TwinsWithin c m m' s s')
    (hk : ∀ v t t', TwinsWithin c m m' t t' → Agree R (k (v, t)) (k' (v, t'))) :
    Agree R (unpackValue n s >>= k) (unpackValue n s' >>= k') := by
  rw [unpackValue_eq_bind, unpackValue_eq_bind]
  refine Agree.bind (R := SameValue (TwinsWithin c m m')) ?_ fun (v, t) (v', t') ⟨hv, h1⟩ => ?_
  · exact (unpackChunks_agree _ h).bind fun _ _ ⟨hout, h1⟩ => .ok ⟨congrArg bytesValue hout, h1⟩
  · cases hv
    exact hk v t t' h1

/-- The loop of DECODE_PATCH stores to PATCH, which both sides have in common (R142). -/
theorem decodeCoeffs_agree (w i left : Nat) (h : TwinsWithin c m m' s s') :
    Agree (TwinsWithin c m m') (decodeCoeffs w i left s) (decodeCoeffs w i left s') := by
  induction left generalizing i s s' with
  | zero => exact .ok h
  | succ k ih =>
    have stored : ∀ (t t' : State) (v : Int), TwinsWithin c m m' t t' →
        Agree (TwinsWithin c m m') (decodeCoeffs w (i + 1) k (t.setCoeff i v))
          (decodeCoeffs w (i + 1) k (t'.setCoeff i v)) := fun t t' v ht =>
      ih (i + 1) (ht.map (fun u => u.setCoeff i v) (fun _ => rfl) rfl rfl rfl)
    refine unpackValue_bind_agree 1 h fun notZero t1 t1' h1 => .ite (fun _ => stored t1 t1' 0 h1) fun _ => ?_
    refine unpackValue_bind_agree 1 h1 fun isValue t2 t2' h2 => .ite (fun _ => .ok ?_) fun _ => ?_
    · exact h2.map (fun u => { u with patch := u.patch.fill i (k + 1) 0 }) (fun _ => rfl) rfl rfl rfl
    · refine unpackValue_bind_agree 1 h2 fun negative t3 t3' h3 => ?_
      exact unpackValue_bind_agree w h3 fun v t4 t4' h4 => stored t4 t4' _ h4

/-! ### The commands -/

theorem openSession_agree (d : Dir) (cap : BitVec 24) (h : TwinsWithin c m m' s s') :
    Agree (Twins c m m') (openSession d cap s) (openSession d cap s') := by
  have hopened := h.toTwins.map (fun t => { resetPrim t with
    capacity := cap, dir := d, codecState := .ready, curPatchSize := 0, curWordBits := 0 }) (fun _ => rfl) rfl rfl
  obtain ⟨⟨-, x', rfl, -⟩, -⟩ := h
  exact .check fun _ => .ok hopened

/-- What a command answers on the other side: the same fault, whose record forgets BUF, or the twin of the state. -/
def TwinAnswer (c : Nat) (m m' : Memory 8) (t : State) (o : Host.Outcome State Fault Refusal) : Prop :=
  (t.fault = true ∧ o = .next t) ∨ ∃ t', o = .next t' ∧ Twins c m m' t t'

theorem conclude_twins {i : Instr} {t : State} {r r' : Except Stop State} (hs : Twins c m m' s s')
    (hr : Agree (Twins c m m') r r') (h : conclude i s r = .next t) : TwinAnswer c m m' t (conclude i s' r') := by
  obtain ⟨-, x', rfl, -⟩ := hs
  cases hr with
  | @ok u u' hu =>
    cases h
    exact .inr ⟨u', rfl, hu⟩
  | error e =>
    rcases conclude_next h with h | ⟨cause, he, rfl⟩
    · cases h
    · cases he
      exact .inl ⟨rfl, rfl⟩

/-- Every command answers alike from twin states, and leaves twins. -/
theorem exec_twins {i : Instr} {t : State} (hs : TwinsWithin c m m' s s') (h : exec i s = .next t) :
    TwinAnswer c m m' t (exec i s') := by
  have weaken : ∀ {r r' : Except Stop State}, Agree (TwinsWithin c m m') r r' → Agree (Twins c m m') r r' := fun hr =>
    hr.mono fun _ _ ht => ht.toTwins
  have start := hs
  obtain ⟨⟨-, x', rfl, -⟩, -⟩ := hs
  cases i with
  | pack n => exact conclude_twins start.toTwins (.check fun _ => .check fun _ => weaken (packBits_agree _ start)) h
  | unpack n =>
    refine conclude_twins start.toTwins (.check fun _ => .check fun _ => ?_) h
    exact unpackValue_bind_agree _ start fun v t t' h1 =>
      .ok (h1.toTwins.map (fun u => { u with data := BitVec.ofNat 32 v }) (fun _ => rfl) rfl rfl)
  | flush => exact conclude_twins start.toTwins (.check fun _ => weaken (flushPrim_agree start)) h
  | bpReset =>
    exact conclude_twins (i := .bpReset) start.toTwins
      (.ok (start.toTwins.map resetPrim (fun _ => rfl) rfl rfl)) h
  | initEnc cap => exact conclude_twins start.toTwins (openSession_agree .enc cap start) h
  | initDec cap => exact conclude_twins start.toTwins (openSession_agree .dec cap start) h
  | codeGh =>
    refine conclude_twins start.toTwins (.check fun _ => ?_) h
    exact (packBits_agree _ start).bind fun t t' h1 =>
      .ok (h1.toTwins.map (fun u => { u with curPatchSize := s.ghPatchSize, codecState := .groupOpen }) (fun _ => rfl)
        rfl rfl)
  | decodeGh =>
    refine conclude_twins start.toTwins (.check fun _ => ?_) h
    exact unpackValue_bind_agree 16 start fun stride _ _ h1 => unpackValue_bind_agree 8 h1 fun size _ _ h2 =>
      unpackValue_bind_agree 8 h2 fun layer t t' h3 =>
      .ok (h3.toTwins.map (fun u => { u with
        ghStride := BitVec.ofNat 16 stride
        ghPatchSize := BitVec.ofNat 8 size
        ghLayerType := BitVec.ofNat 8 layer
        curPatchSize := BitVec.ofNat 8 size
        codecState := .groupOpen }) (fun _ => rfl) rfl rfl)
  | codePh large =>
    refine conclude_twins start.toTwins (.check fun _ => .check fun _ => ?_) h
    have hquant := start.map (fun u => { u with
      phQuantWbits := withWidthNibble s.phQuantWbits (chooseWbits s.phQuantWbits s.grid) }) (fun _ => rfl) rfl rfl rfl
    exact (packBits_agree _ hquant).bind fun t t' h1 =>
      .ok (h1.toTwins.map (fun u => { u with
        curWordBits := BitVec.ofNat 5 (chooseWbits s.phQuantWbits s.grid), codecState := .patchOpen }) (fun _ => rfl)
        rfl rfl)
  | decodePh large =>
    refine conclude_twins start.toTwins (.check fun _ => ?_) h
    refine unpackValue_bind_agree 8 start fun v t1 t1' h1 => .ite (fun _ => .ok ?_) fun _ => ?_
    · exact h1.toTwins.map (fun u => { u with
        phQuantWbits := BitVec.ofNat 8 v, phDcOffset := 0, phRange := 0, phPatchIds := 0, codecState := .closed })
        (fun _ => rfl) rfl rfl
    · exact unpackValue_bind_agree 32 h1 fun dcOffset _ _ h2 => unpackValue_bind_agree 16 h2 fun range _ _ h3 =>
        unpackValue_bind_agree _ h3 fun ids t t' h4 =>
        .ok (h4.toTwins.map (fun u => { u with
          phQuantWbits := BitVec.ofNat 8 v
          phDcOffset := BitVec.ofNat 32 dcOffset
          phRange := BitVec.ofNat 16 range
          phPatchIds := BitVec.ofNat 32 ids
          curWordBits := BitVec.ofNat 5 (headerWidth (BitVec.ofNat 8 v))
          codecState := .patchOpen }) (fun _ => rfl) rfl rfl)
  | codePatch postquant =>
    refine conclude_twins start.toTwins (.check fun _ => .check fun _ => ?_) h
    exact weaken (packBits_agree _ (start.map (truncateTail postquant.toNat) (fun _ => rfl) rfl rfl rfl))
  | decodePatch => exact conclude_twins start.toTwins (.check fun _ => weaken (decodeCoeffs_agree _ 0 _ start)) h
  | endData =>
    refine conclude_twins start.toTwins (.check fun _ => ?_) h
    exact (packBits_agree _ start).bind fun t t' h1 =>
      .ok (h1.toTwins.map (fun u => { u with codecState := .closed }) (fun _ => rfl) rfl rfl)

end

/-- Settles O39: the state with other contents beyond `capacity` is a twin, and `byte_count` is bounded by the
invariant. -/
theorem bufferBeyondCapacityUntouched : Obligations.BufferBeyondCapacityUntouched := by
  intro i s t m hs _ hm h
  have ⟨hf, _⟩ := hs
  have htwins : TwinsWithin s.capacity.toNat s.buf m s { s with buf := m } :=
    ⟨⟨hf, m, rfl, ⟨hm, fun _ _ => rfl, fun _ _ => rfl⟩⟩, le_refl _⟩
  have hanswer := exec_twins htwins h
  refine ⟨fun hfault => ?_, fun hfault => ?_⟩
  · rcases hanswer with ⟨-, hsame⟩ | ⟨t', -, hrun, -⟩
    · exact hsame
    · rw [hfault] at hrun
      cases hrun
  · obtain ⟨-, -, hrest, -⟩ := exec_inv i hs h
    obtain ⟨-, hcount, -⟩ := hrest hfault
    rcases hanswer with ⟨hfault', -⟩ | ⟨t', hother, -, m', rfl, hsplit⟩
    · rw [hfault] at hfault'
      cases hfault'
    · exact ⟨hcount, hsplit.beyond, m', hother, hsplit.below, hsplit.beyond'⟩

end Sys2Proof.Machine
end

section
/-! PROOFS of the family 41_codec_headers.md, part 1: what the session and header commands do when they complete (O9,
O16 to O19, O21 to O23). A header is a list of fields: an encoder packs their bits at once, a decoder unpacks one field
after another, and the fields unpacked are the ones that are sent as the bits taken (spec/41_codec_headers.md R121 to
R131). -/

namespace Sys2Proof.Machine

/-! ### INIT_ENC and INIT_DEC -/

/-- A word put together from its opcode and its operand field is their sum, the opcode weighing `2^24` (R80). -/
theorem opcode_append_arg (op : BitVec 8) (arg : BitVec 24) :
    op ++ arg = BitVec.ofNat 32 (op.toNat * 2 ^ 24) + arg.setWidth 32 := by
  have hop := op.isLt
  have harg := arg.isLt
  refine BitVec.eq_of_toNat_eq ?_
  rw [BitVec.toNat_append, Nat.shiftLeft_eq, mul_comm, ← Nat.two_pow_add_eq_or_of_lt harg, BitVec.toNat_add,
    BitVec.toNat_ofNat, BitVec.toNat_setWidth]
  omega

/-- A capacity above MAX_CAP opens no session (R121, R122). -/
theorem openSession_of_maxCap_lt (d : Dir) {cap : BitVec 24} {s : State} (h : s.maxCap < cap.toNat) :
    openSession d cap s = .error (.raise .illegalOperand) := by
  rw [openSession_eq, if_neg (Nat.not_le.mpr h)]

/-- Settles O9: INIT_ENC and INIT_DEC are `openSession` in their direction. -/
theorem initOpensSession : Obligations.InitOpensSession := fun cap _ =>
  ⟨opcode_append_arg 0x10 cap, opcode_append_arg 0x11 cap, fun h => ⟨exec_initEnc h, exec_initDec h⟩, fun h =>
    ⟨congrArg (conclude (.initEnc cap) _) (openSession_of_maxCap_lt .enc h),
      congrArg (conclude (.initDec cap) _) (openSession_of_maxCap_lt .dec h)⟩⟩

/-! ### The adaptive width -/

/-- The loop of R125 over all coefficients, started at `w`: it covers every bit of every coefficient in range, and ends
at `w` or at such a bit. -/
theorem foldl_raiseWidth_spec (q : BitVec 8) (coeffs : List Int) (w : Nat) :
    w ≤ coeffs.foldl (raiseWidth q) w ∧
    (∀ v ∈ coeffs, ∀ j, scanLow q ≤ j → j ≤ scanHigh q → v.natAbs.testBit j = true →
      j ≤ coeffs.foldl (raiseWidth q) w) ∧
    (coeffs.foldl (raiseWidth q) w = w ∨ coeffs.foldl (raiseWidth q) w ≤ scanHigh q ∧
      ∃ v ∈ coeffs, v.natAbs.testBit (coeffs.foldl (raiseWidth q) w) = true) := by
  induction coeffs generalizing w with
  | nil => exact ⟨le_refl w, nofun, .inl rfl⟩
  | cons u rest ih =>
    obtain ⟨hgrow, hcover, hattain⟩ := raiseWidth_spec q w u
    obtain ⟨hgrow', hcover', hattain'⟩ := ih (raiseWidth q w u)
    rw [List.foldl_cons]
    refine ⟨hgrow.trans hgrow', fun v hv j hlow hhigh hbit => ?_, ?_⟩
    · rcases List.mem_cons.mp hv with rfl | hv
      · exact (hcover j hlow hhigh hbit).trans hgrow'
      · exact hcover' v hv j hlow hhigh hbit
    · rcases hattain' with hsame | ⟨hhigh, v, hv, hbit⟩
      · rw [hsame]
        exact hattain.imp_right fun ⟨hhigh, hbit⟩ => ⟨hhigh, u, List.mem_cons_self, hbit⟩
      · exact .inr ⟨hhigh, v, List.mem_cons_of_mem u hv, hbit⟩

/-- Settles O18: `ChooseWbits` is one more than the loop's answer from `minw`. -/
theorem chosenWidthIsHighestBitPlusOne : Obligations.ChosenWidthIsHighestBitPlusOne := by
  intro q coeffs minw maxw w
  obtain ⟨hgrow, hcover, hattain⟩ : minw ≤ w - 1 ∧
      (∀ v ∈ coeffs, ∀ j, minw ≤ j → j ≤ maxw → v.natAbs.testBit j = true → j ≤ w - 1) ∧
      (w - 1 = minw ∨ w - 1 ≤ maxw ∧ ∃ v ∈ coeffs, v.natAbs.testBit (w - 1) = true) :=
    foldl_raiseWidth_spec q coeffs (scanLow q)
  have hpos : 1 ≤ w := Nat.succ_pos _
  have hrange : minw ≤ maxw := by omega
  refine ⟨by omega, ?_, fun v hv j hlow hhigh hbit => ?_, ?_⟩
  · rcases hattain with hsame | ⟨hhigh, -⟩ <;> omega
  · have := hcover v hv j hlow hhigh hbit
    omega
  · exact hattain.imp (fun hsame => by omega) And.right

/-- The proposed width is at least 2, so the chosen one is (R125, R152). -/
theorem two_le_chooseWbits (q : BitVec 8) (coeffs : List Int) : 2 ≤ chooseWbits q coeffs := by
  obtain ⟨hmin, -⟩ := chosenWidthIsHighestBitPlusOne q coeffs
  omega

/-! ### The commands that send a header -/

/-- The state CODE_PH packs its header from: the chosen width stands in PH_QUANT_WBITS (R126). -/
def State.withChosenWidth (s : State) : State :=
  { s with phQuantWbits := withWidthNibble s.phQuantWbits (chooseWbits s.phQuantWbits s.grid) }

theorem headerMayFollow_iff (s : State) :
    headerMayFollow s = true ↔ s.codecState = .groupOpen ∨ s.codecState = .patchOpen := by
  simp [headerMayFollow]

section
variable {s : State}

/-- CODE_GH in an encode session packs its fields and opens the group (R123). -/
theorem exec_codeGh_enc (hd : s.dir = .enc) :
    exec .codeGh s = conclude .codeGh s (packBits (fieldBits (groupHeaderFields s)) s >>= fun t =>
      .ok { t with curPatchSize := s.ghPatchSize, codecState := .groupOpen }) := by
  show execCodeGh s = _
  rw [execCodeGh, if_neg (not_not_intro hd)]
  rfl

/-- CODE_PH where a header may follow and the chosen width is legal packs its fields (R126). -/
theorem exec_codePh_enc (large : Bool) (hd : s.dir = .enc) (hc : headerMayFollow s = true)
    (h17 : chooseWbits s.phQuantWbits s.grid ≤ 17) :
    exec (.codePh large) s = conclude (.codePh large) s
      (packBits (fieldBits (patchHeaderFields large s.withChosenWidth)) s.withChosenWidth >>= fun t =>
        .ok { t with
          curWordBits := BitVec.ofNat 5 (chooseWbits s.phQuantWbits s.grid)
          codecState := .patchOpen }) := by
  show execCodePh large s = _
  have h2 := two_le_chooseWbits s.phQuantWbits s.grid
  have hwidth : ¬ (chooseWbits s.phQuantWbits s.grid < minWbits ∨ maxWbits < chooseWbits s.phQuantWbits s.grid) := by
    unfold minWbits maxWbits
    omega
  rw [execCodePh, if_neg (by simp [hd, hc]), if_neg hwidth]
  rfl

/-- END_DATA where a header may follow packs the sentinel and closes the group (R128). -/
theorem exec_endData_enc (hd : s.dir = .enc) (hc : headerMayFollow s = true) :
    exec .endData s = conclude .endData s (packBits (wireBits endOfPatches.toNat 8) s >>= fun t =>
      .ok { t with codecState := .closed }) := by
  show execEndData s = _
  rw [execEndData, if_neg (by simp [hd, hc])]
  rfl

/-- A command that packs its bits and then changes registers completes if there is room (R113). -/
theorem conclude_packBits_of_room (i : Instr) (k : State → State) {bits : List Bool} {s1 : State} (hs : s1.PackReady)
    (hroom : s1.Room bits.length) :
    ∃ t, OnlyStream s1 t ∧ Appends bits s1 t ∧
      conclude i s (packBits bits s1 >>= fun t => .ok (k t)) = .next (k t) := by
  obtain ⟨t, hok, ho, happends, -⟩ := packBits_of_room hs hroom
  exact ⟨t, ho, happends, by rw [hok]; rfl⟩

theorem fieldBits_groupHeader (s : State) : fieldBits (groupHeaderFields s) =
    wireBits s.ghStride.toNat 16 ++ wireBits s.ghPatchSize.toNat 8 ++ wireBits s.ghLayerType.toNat 8 := by
  simp [groupHeaderFields, fieldBits_cons]

theorem fieldBits_patchHeader (large : Bool) (s : State) : fieldBits (patchHeaderFields large s) =
    wireBits s.phQuantWbits.toNat 8 ++ wireBits s.phDcOffset.toNat 32 ++ wireBits s.phRange.toNat 16 ++
      wireBits s.phPatchIds.toNat (if large then 32 else 10) := by
  simp [patchHeaderFields, fieldBits_cons, patchIdsWidth]

end

/-- Settles O16: the fields of the group header are packed in wire order. -/
theorem codeGroupHeaderAppendsFields : Obligations.CodeGroupHeaderAppendsFields := by
  intro s hs hd hroom
  rw [exec_codeGh_enc hd, ← fieldBits_groupHeader]
  exact conclude_packBits_of_room .codeGh
    (fun t => { t with curPatchSize := s.ghPatchSize, codecState := .groupOpen })
    (hs.resting.packReady hd) (by rwa [length_groupHeader])

/-- Settles O19: the updated byte and the other fields are packed in wire order, from a state that differs from `s` in
PH_QUANT_WBITS alone. -/
theorem codePatchHeaderAppendsFields : Obligations.CodePatchHeaderAppendsFields := by
  intro large s hs hd hc h17 hroom
  have hready : s.withChosenWidth.PackReady := hs.resting.packReady hd
  have hroom' : s.withChosenWidth.Room (fieldBits (patchHeaderFields large s.withChosenWidth)).length := by
    rw [length_patchHeader]
    exact hroom
  obtain ⟨t, ho, happends, hexec⟩ := conclude_packBits_of_room (s := s) (.codePh large)
    (fun t => { t with curWordBits := BitVec.ofNat 5 (chooseWbits s.phQuantWbits s.grid), codecState := .patchOpen })
    hready hroom'
  refine ⟨s.withChosenWidth.phQuantWbits, t, withWidthNibble_toNat _ (two_le_chooseWbits _ _) h17, ho, ?_, ?_⟩
  · rw [fieldBits_patchHeader] at happends
    exact { happends with }
  · rw [exec_codePh_enc large hd ((headerMayFollow_iff s).mpr hc) h17]
    exact hexec

/-- Settles O23: the sentinel is packed. -/
theorem endDataAppendsSentinel : Obligations.EndDataAppendsSentinel := by
  intro s hs hd hc hroom
  rw [exec_endData_enc hd ((headerMayFollow_iff s).mpr hc)]
  exact conclude_packBits_of_room .endData (fun t => { t with codecState := .closed })
    (hs.resting.packReady hd) (by rwa [length_wireBits])

/-! ### Unpacking field after field -/

/-- From `s` to `t` the next `n` bits of a decode session were taken, which are `bits`, and it can go on. -/
structure Reads (n : Nat) (bits : List Bool) (s t : State) : Prop where
  onlyStream : OnlyStream s t
  taken : Consumes n s t
  ready : t.UnpackReady
  wire : bits = s.upcoming n

theorem Reads.refl {s : State} (hs : s.UnpackReady) : Reads 0 [] s s :=
  ⟨OnlyStream.refl s, Consumes.refl hs, hs, rfl⟩

/-- One more field of `n` bits, if they are left: it is unpacked as the value that is sent as them (R102, R103). -/
theorem Reads.unpackValue {m : Nat} {bits : List Bool} {s t : State} (h : Reads m bits s t) (n : Nat)
    (ha : s.Available (m + n)) :
    ∃ v u, unpackValue n t = .ok (v, u) ∧ v < 2 ^ n ∧ Reads (m + n) (bits ++ wireBits v n) s u := by
  obtain ⟨ho, hcons, hready, hwire⟩ := h
  have key := unpackValue_spec n hready
  rw [if_pos ((hcons.available ho n).mpr ha)] at key
  obtain ⟨v, u, hok, ho', hcons', hready', hv, hwire'⟩ := key
  exact ⟨v, u, hok, hv, ho.trans ho', hcons.trans hcons', hready', by rw [hwire, hwire', hcons.upcoming]⟩

/-- Reading changes the cursors of the stream and nothing else. -/
theorem Reads.frame {n : Nat} {bits : List Bool} {s t : State} (h : Reads n bits s t) :
    t = { s with byteCount := t.byteCount, acc := t.acc, accBits := t.accBits, totalBits := t.totalBits } := by
  have hbuf := h.taken.buffer
  rw [h.onlyStream] at hbuf ⊢
  exact congrArg (fun b => ({ s with
    buf := b, byteCount := t.byteCount, acc := t.acc, accBits := t.accBits, totalBits := t.totalBits } : State)) hbuf

theorem State.Available.mono {s : State} {n m : Nat} (h : s.Available n) (hm : m ≤ n) : s.Available m := by
  unfold State.Available at *
  omega

/-- A register of `n` bits is sent as the same bits as the value it was loaded from. -/
theorem wireBits_ofNat (v n : Nat) : wireBits (BitVec.ofNat n v).toNat n = wireBits v n := by
  rw [BitVec.toNat_ofNat, wireBits_mod]

/-! ### The commands that read a header -/

/-- The registers DECODE_GH loads (R124). -/
def State.withGroupHeader (s : State) (stride size layer : Nat) : State :=
  { s with
    ghStride := BitVec.ofNat 16 stride
    ghPatchSize := BitVec.ofNat 8 size
    ghLayerType := BitVec.ofNat 8 layer
    curPatchSize := BitVec.ofNat 8 size
    codecState := .groupOpen }

/-- The registers DECODE_PH loads from a header (R127). -/
def State.withPatchHeader (s : State) (q : BitVec 8) (dcOffset range ids : Nat) : State :=
  { s with
    phQuantWbits := q
    phDcOffset := BitVec.ofNat 32 dcOffset
    phRange := BitVec.ofNat 16 range
    phPatchIds := BitVec.ofNat 32 ids
    curWordBits := BitVec.ofNat 5 (headerWidth q)
    codecState := .patchOpen }

/-- What DECODE_PH leaves when the byte it read is the sentinel (R127). -/
def State.withSentinel (s : State) (q : BitVec 8) : State :=
  { s with phQuantWbits := q, phDcOffset := 0, phRange := 0, phPatchIds := 0, codecState := .closed }

section
variable {s : State}

/-- DECODE_GH in a decode session unpacks its three fields (R124). -/
theorem exec_decodeGh_dec (hd : s.dir = .dec) :
    exec .decodeGh s = conclude .decodeGh s (
      unpackValue 16 s >>= fun stride => unpackValue 8 stride.2 >>= fun size => unpackValue 8 size.2 >>= fun layer =>
        .ok (layer.2.withGroupHeader stride.1 size.1 layer.1)) := by
  show execDecodeGh s = _
  rw [execDecodeGh, if_neg (not_not_intro hd)]
  rfl

/-- DECODE_PH where a header may follow unpacks one byte, and the other three fields unless it is the sentinel
(R127). -/
theorem exec_decodePh_dec (large : Bool) (hd : s.dir = .dec) (hc : headerMayFollow s = true) :
    exec (.decodePh large) s = conclude (.decodePh large) s (
      unpackValue 8 s >>= fun q =>
        if BitVec.ofNat 8 q.1 = endOfPatches then .ok (q.2.withSentinel (BitVec.ofNat 8 q.1))
        else unpackValue 32 q.2 >>= fun dcOffset => unpackValue 16 dcOffset.2 >>= fun range =>
          unpackValue (patchIdsWidth large) range.2 >>= fun ids =>
            .ok (ids.2.withPatchHeader (BitVec.ofNat 8 q.1) dcOffset.1 range.1 ids.1)) := by
  show execDecodePh large s = _
  rw [execDecodePh, if_neg (by simp [hd, hc])]
  rfl

theorem bind_of_eq_ok {α β : Type} {r : Except Stop α} {a : α} (h : r = .ok a) (k : α → Except Stop β) :
    r >>= k = k a := by
  rw [h]
  rfl

end

/-- Settles O17: three fields are unpacked one after another. -/
theorem decodeGroupHeaderReadsFields : Obligations.DecodeGroupHeaderReadsFields := by
  intro s hs hd ha
  obtain ⟨stride, s1, h1, -, hr1⟩ := (Reads.refl (hs.resting.unpackReady hd)).unpackValue 16 (ha.mono (by omega))
  obtain ⟨size, s2, h2, -, hr2⟩ := hr1.unpackValue 8 (ha.mono (by omega))
  obtain ⟨layer, s3, h3, -, hr3⟩ := hr2.unpackValue 8 ha
  refine ⟨s3.withGroupHeader stride size layer, ?_, hr3.taken.congr rfl, ?_,
    congrArg (fun u => u.withGroupHeader stride size layer) hr3.frame⟩
  · rw [exec_decodeGh_dec hd, bind_of_eq_ok h1, bind_of_eq_ok h2, bind_of_eq_ok h3, conclude_ok]
  · simp only [State.withGroupHeader, wireBits_ofNat]
    exact hr3.wire

/-- The width a header announces fits `cur_word_bits` (R39, R127). -/
theorem toNat_curWordBits_headerWidth (q : BitVec 8) : (BitVec.ofNat 5 (headerWidth q)).toNat = q.toNat % 16 + 2 := by
  rw [BitVec.toNat_ofNat, headerWidth]
  omega

/-- Settles O21: the byte is unpacked, is not the sentinel, and the other three fields follow. -/
theorem decodePatchHeaderReadsFields : Obligations.DecodePatchHeaderReadsFields := by
  intro large s hs hd hc hother ha
  have hsize : (if large then 88 else 66) = 0 + 8 + 32 + 16 + patchIdsWidth large := by cases large <;> rfl
  have hids32 : patchIdsWidth large ≤ 32 := by cases large <;> decide
  rw [hsize] at ha ⊢
  obtain ⟨v, s1, h1, hv, hr1⟩ := (Reads.refl (hs.resting.unpackReady hd)).unpackValue 8 (ha.mono (by omega))
  obtain ⟨dcOffset, s2, h2, -, hr2⟩ := hr1.unpackValue 32 (ha.mono (by omega))
  obtain ⟨range, s3, h3, -, hr3⟩ := hr2.unpackValue 16 (ha.mono (by omega))
  obtain ⟨ids, s4, h4, hids, hr4⟩ := hr3.unpackValue (patchIdsWidth large) ha
  have hq : BitVec.ofNat 8 v ≠ endOfPatches := fun h => hother ((eq_endOfPatches_iff hv hr1.wire).mp h)
  have hidsReg := toNat_ofNat_of_lt_two_pow hids hids32
  refine ⟨s4.withPatchHeader (BitVec.ofNat 8 v) dcOffset range ids, ?_, hr4.taken.congr rfl, ?_,
    hidsReg.trans_lt hids, toNat_curWordBits_headerWidth _,
    congrArg (fun u => u.withPatchHeader (BitVec.ofNat 8 v) dcOffset range ids) hr4.frame⟩
  · rw [exec_decodePh_dec large hd ((headerMayFollow_iff s).mpr hc), bind_of_eq_ok h1, if_neg hq, bind_of_eq_ok h2,
      bind_of_eq_ok h3, bind_of_eq_ok h4, conclude_ok]
  · simp only [State.withPatchHeader, wireBits_ofNat, hidsReg]
    exact hr4.wire

/-- Settles O22: the byte is unpacked and is the sentinel. -/
theorem decodePatchHeaderStopsAtSentinel : Obligations.DecodePatchHeaderStopsAtSentinel := by
  intro large s hs hd hc hsentinel ha
  obtain ⟨v, s1, h1, hv, hr1⟩ := (Reads.refl (hs.resting.unpackReady hd)).unpackValue 8 (ha.mono (by omega))
  have hq : BitVec.ofNat 8 v = endOfPatches := (eq_endOfPatches_iff hv hr1.wire).mpr hsentinel
  refine ⟨s1.withSentinel endOfPatches, ?_, hr1.taken.congr rfl,
    congrArg (fun u => u.withSentinel endOfPatches) hr1.frame⟩
  rw [exec_decodePh_dec large hd ((headerMayFollow_iff s).mpr hc), bind_of_eq_ok h1, if_pos hq, hq, conclude_ok]

end Sys2Proof.Machine
end

section
/-! PROOFS of the family 41_codec_headers.md, part 2: which command may run, where it leaves the session, and how far a
header moves the stream (O31, O51). In a safe state the checks of a command are those of `firstFault`, and past them it
completes or runs out of buffer (spec/41_codec_headers.md R120, R131, spec/60_exceptions.md R156, R157). -/

namespace Sys2Proof.Machine

/-! ### Past the checks -/

/-- A computation past its checks: it completes with the property, or it runs out of buffer (R151). -/
inductive RunsOrExhausts {α : Type} (P : α → Prop) : Except Stop α → Prop where
  | ok {a : α} (h : P a) : RunsOrExhausts P (.ok a)
  | exhausted : RunsOrExhausts P (.error (.raise .bufferExhausted))

/-- The session of `t` is that of `s`. -/
structure KeepsSession (s t : State) : Prop where
  fault : t.fault = s.fault
  dir : t.dir = s.dir
  codecState : t.codecState = s.codecState

theorem KeepsSession.refl (s : State) : KeepsSession s s := ⟨rfl, rfl, rfl⟩

/-- A change of the stream alone keeps the session. -/
theorem KeepsSession.stream {s t u : State} (h : KeepsSession s t) (ho : OnlyStream t u) : KeepsSession s u :=
  ⟨ho.fault.trans h.fault, ho.dir.trans h.dir, ho.codecState.trans h.codecState⟩

theorem RunsOrExhausts.bind {α β : Type} {P : β → Prop} {Q : α → Prop} {r : Except Stop α} {k : α → Except Stop β}
    (hr : RunsOrExhausts Q r) (hk : ∀ a, Q a → RunsOrExhausts P (k a)) : RunsOrExhausts P (r >>= k) := by
  cases hr with
  | ok h => exact hk _ h
  | exhausted => exact .exhausted

theorem packBits_runs (bits : List Bool) {s t : State} (ht : t.PackReady) (h : KeepsSession s t) :
    RunsOrExhausts (KeepsSession s) (packBits bits t) := by
  cases hr : packBits bits t with
  | ok u => exact .ok (h.stream (packBits_onlyStream hr))
  | error e =>
    obtain ⟨-, rfl⟩ := packBits_error ht hr
    exact .exhausted

theorem flushPrim_runs {s : State} (hcap : s.capacity.toNat ≤ s.maxCap) :
    RunsOrExhausts (KeepsSession s) (flushPrim s) := by
  rw [flushPrim_eq hcap]
  split_ifs
  · exact .ok (.refl s)
  · exact .ok ⟨rfl, rfl, rfl⟩
  · exact .exhausted

section
variable {α : Type} {P : α → Prop} {s t : State}

/-- Unpacking, followed by what runs on the stream it leaves. -/
theorem unpackValue_bind_runs (n : Nat) {k : Nat × State → Except Stop α} (ht : t.UnpackReady) (h : KeepsSession s t)
    (hk : ∀ v u, u.UnpackReady → KeepsSession s u → RunsOrExhausts P (k (v, u))) :
    RunsOrExhausts P (unpackValue n t >>= k) := by
  cases hr : unpackValue n t with
  | ok p =>
    obtain ⟨v, u⟩ := p
    obtain ⟨-, ho, -, hready, -⟩ := unpackValue_ok ht hr
    exact hk v u hready (h.stream ho)
  | error e =>
    obtain ⟨-, rfl⟩ := unpackValue_error ht hr
    exact .exhausted

/-- The loop of DECODE_PATCH moves no session (R142). -/
theorem decodeCoeffs_runs (w i left : Nat) (ht : t.UnpackReady) (h : KeepsSession s t) :
    RunsOrExhausts (KeepsSession s) (decodeCoeffs w i left t) := by
  induction left generalizing i t with
  | zero => exact .ok h
  | succ left ih =>
    have stored : ∀ (u : State) (v : Int), u.UnpackReady → KeepsSession s u →
        RunsOrExhausts (KeepsSession s) (decodeCoeffs w (i + 1) left (u.setCoeff i v)) := fun u v hu hk =>
      ih (i + 1) (hu.setCoeff i v) ⟨hk.fault, hk.dir, hk.codecState⟩
    refine unpackValue_bind_runs 1 ht h fun notZero t1 ht1 h1 => ?_
    dsimp only
    split_ifs
    · exact stored t1 0 ht1 h1
    · refine unpackValue_bind_runs 1 ht1 h1 fun isValue t2 ht2 h2 => ?_
      dsimp only
      split_ifs
      · exact .ok ⟨h2.fault, h2.dir, h2.codecState⟩
      · refine unpackValue_bind_runs 1 ht2 h2 fun negative t3 ht3 h3 => ?_
        exact unpackValue_bind_runs w ht3 h3 fun m t4 ht4 h4 => stored t4 _ ht4 h4

end

/-! ### The checks -/

/-- What a command computes, by the first check it fails: the fault of that check, or what it does past all of them
(R157). -/
inductive Answers (P : State → Prop) : Option Cause → Except Stop State → Prop where
  | stops (c : Cause) : Answers P (some c) (.error (.raise c))
  | runs {r : Except Stop State} (h : RunsOrExhausts P r) : Answers P none r

section
variable {P : State → Prop} {p q : Prop} [Decidable p] [Decidable q] {c : Cause} {o : Option Cause}
  {r : Except Stop State}

/-- A check the command makes, as `firstFault` names it. -/
theorem Answers.check (hqp : q ↔ p) (h : ¬ p → Answers P o r) :
    Answers P (if q then some c else o) (if p then .error (.raise c) else r) := by
  by_cases hp : p
  · rw [if_pos hp, if_pos (hqp.mpr hp)]
    exact .stops c
  · rw [if_neg hp, if_neg (fun hq => hp (hqp.mp hq))]
    exact h hp

/-- A check of `firstFault` that this command cannot fail. -/
theorem Answers.pass (hq : ¬ q) (h : Answers P o r) : Answers P (if q then some c else o) r := by
  rwa [if_neg hq]

/-- A computation that completed failed no check. -/
theorem Answers.of_ok {t : State} (h : Answers P o (.ok t)) : o = none ∧ P t := by
  cases h with
  | runs h =>
    cases h with
    | ok h => exact ⟨rfl, h⟩

/-- Past the checks only BufferExhausted is raised. -/
theorem Answers.raises_iff (h : Answers P o r) (hc : c ≠ .bufferExhausted) :
    r = .error (.raise c) ↔ o = some c := by
  cases h with
  | stops c' => simp
  | runs h =>
    cases h with
    | ok _ => simp
    | exhausted => simpa using hc.symm

end

section
variable {s : State} (d : Dir)

/-- The rows of R120 that are legal in every state of a session in direction `d`. -/
theorem session_illegal_iff (hs : s.Resting) (hd : d ≠ .none) :
    (decide (s.dir = d) && decide (s.codecState ≠ .idle)) = false ↔ s.dir ≠ d := by
  obtain ⟨-, -, -, -, -, hidle, -⟩ := hs
  rw [Bool.and_eq_false_iff, decide_eq_false_iff_not, decide_eq_false_iff_not, not_not, ← hidle]
  exact or_iff_left_of_imp fun hnone => hnone ▸ hd.symm

/-- The rows of R120 that are legal where a header may follow. -/
theorem header_illegal_iff :
    (decide (s.dir = d) && (decide (s.codecState = .groupOpen) || decide (s.codecState = .patchOpen))) = false ↔
      s.dir ≠ d ∨ headerMayFollow s = false := by
  rw [Bool.and_eq_false_iff, decide_eq_false_iff_not]
  rfl

/-- The rows of R120 that are legal in PatchOpen only. -/
theorem patch_illegal_iff :
    (decide (s.dir = d) && decide (s.codecState = .patchOpen)) = false ↔ s.dir ≠ d ∨ s.codecState ≠ .patchOpen := by
  rw [Bool.and_eq_false_iff, decide_eq_false_iff_not, decide_eq_false_iff_not]

end

/-! ### The table of R120 -/

/-- `dir` and `state` after a command that completed: what the cell of R120's table says. -/
def sessionAfter (i : Instr) (s t : State) : Dir × CodecState :=
  match i with
  | .initEnc _ => (.enc, .ready)
  | .initDec _ => (.dec, .ready)
  | .codeGh | .decodeGh => (s.dir, .groupOpen)
  | .codePh _ => (s.dir, .patchOpen)
  | .decodePh _ => (s.dir, if t.phQuantWbits = 97 then .closed else .patchOpen)
  | .endData => (s.dir, .closed)
  | .pack _ | .unpack _ | .flush | .bpReset | .codePatch _ | .decodePatch => (s.dir, s.codecState)

/-- A command that completed: no fault is pending and the session is where the table says. -/
structure Completed (i : Instr) (s t : State) : Prop where
  fault : t.fault = false
  session : (t.dir, t.codecState) = sessionAfter i s t

/-- A command that leaves the session's state alone. -/
theorem KeepsSession.completed {i : Instr} {s t : State} (h : KeepsSession s t) (hf : s.fault = false)
    (hi : sessionAfter i s t = (s.dir, s.codecState)) : Completed i s t :=
  ⟨h.fault.trans hf, by rw [hi, h.dir, h.codecState]⟩

/-- A command that moves the codec to another state of its session, with its registers changed by `k`. -/
theorem KeepsSession.completed_moved {i : Instr} {s t : State} (k : State → State) (h : KeepsSession s t)
    (hf : s.fault = false) (hfault : (k t).fault = t.fault) (hdir : (k t).dir = t.dir)
    (hi : sessionAfter i s (k t) = (s.dir, (k t).codecState)) : Completed i s (k t) :=
  ⟨hfault.trans (h.fault.trans hf), by rw [hi, hdir, h.dir]⟩

/-- Everything a command of a safe state computes (R157): it checks what `firstFault` checks, in that order, and past
the checks it completes or runs out of buffer. -/
theorem exec_checked (i : Instr) {s : State} (hs : s.Operational) :
    ∃ r, exec i s = conclude i s r ∧ Answers (Completed i s) (firstFault i s) r := by
  have hrest := hs.resting
  have ⟨hf, _⟩ := hs
  have enc : ¬ s.dir ≠ .enc → s.PackReady := fun h => hrest.packReady (of_not_not h)
  have dec : ¬ s.dir ≠ .dec → s.UnpackReady := fun h => hrest.unpackReady (of_not_not h)
  have start := KeepsSession.refl s
  have same : ∀ {r}, sessionAfter i s = (fun _ => (s.dir, s.codecState)) → RunsOrExhausts (KeepsSession s) r →
      RunsOrExhausts (Completed i s) r := fun hi hr => by
    cases hr with
    | ok h => exact .ok (h.completed hf (congrFun hi _))
    | exhausted => exact .exhausted
  cases i with
  | pack n =>
    refine ⟨_, rfl, .check (decide_eq_false_iff_not.trans Nat.not_le) fun _ =>
      .check (session_illegal_iff .enc hrest nofun) fun hd => .runs (same rfl ?_)⟩
    exact packBits_runs _ (enc hd) start
  | unpack n =>
    refine ⟨_, rfl, .check (decide_eq_false_iff_not.trans Nat.not_le) fun _ =>
      .check (session_illegal_iff .dec hrest nofun) fun hd => .runs (same rfl ?_)⟩
    exact unpackValue_bind_runs _ (dec hd) start fun v _ _ h1 => .ok ⟨h1.fault, h1.dir, h1.codecState⟩
  | flush =>
    refine ⟨_, rfl, .pass nofun <| .check (session_illegal_iff .enc hrest nofun) fun _ => .runs (same rfl ?_)⟩
    obtain ⟨-, -, hcap, -⟩ := hrest
    exact flushPrim_runs hcap
  | bpReset => exact ⟨.ok (resetPrim s), rfl, .pass nofun <| .pass nofun <| .runs (.ok ⟨hf, rfl⟩)⟩
  | initEnc cap =>
    exact ⟨_, rfl, .check (decide_eq_false_iff_not.trans Nat.not_le) fun _ => .pass nofun <| .runs (.ok ⟨hf, rfl⟩)⟩
  | initDec cap =>
    exact ⟨_, rfl, .check (decide_eq_false_iff_not.trans Nat.not_le) fun _ => .pass nofun <| .runs (.ok ⟨hf, rfl⟩)⟩
  | codeGh =>
    refine ⟨_, rfl, .pass nofun <| .check (session_illegal_iff .enc hrest nofun) fun hd => .runs ?_⟩
    exact (packBits_runs _ (enc hd) start).bind fun t h1 => .ok (h1.completed_moved
      (fun t => { t with curPatchSize := s.ghPatchSize, codecState := .groupOpen }) hf rfl rfl rfl)
  | decodeGh =>
    refine ⟨_, rfl, .pass nofun <| .check (session_illegal_iff .dec hrest nofun) fun hd => .runs ?_⟩
    exact unpackValue_bind_runs _ (dec hd) start fun stride _ ht1 h1 =>
      unpackValue_bind_runs _ ht1 h1 fun size _ ht2 h2 =>
      unpackValue_bind_runs _ ht2 h2 fun layer _ _ h3 =>
      .ok (h3.completed_moved (fun t => t.withGroupHeader stride size layer) hf rfl rfl rfl)
  | codePh large =>
    refine ⟨_, rfl, .pass nofun <| .check (header_illegal_iff .enc) fun hd => .check Iff.rfl fun _ => .runs ?_⟩
    have hready : s.withChosenWidth.PackReady := enc (not_or.mp hd).1
    have hkeeps : KeepsSession s s.withChosenWidth := ⟨rfl, rfl, rfl⟩
    exact (packBits_runs _ hready hkeeps).bind fun t h1 => .ok (h1.completed_moved (fun t => { t with
      curWordBits := BitVec.ofNat 5 (chooseWbits s.phQuantWbits s.grid), codecState := .patchOpen }) hf rfl rfl rfl)
  | decodePh large =>
    refine ⟨_, rfl, .pass nofun <| .check (header_illegal_iff .dec) fun hd => .runs ?_⟩
    refine unpackValue_bind_runs _ (dec (not_or.mp hd).1) start fun v _ ht1 h1 => ?_
    dsimp only
    split_ifs with hq
    · exact .ok (h1.completed_moved (fun t => t.withSentinel (BitVec.ofNat 8 v)) hf rfl rfl
        (congrArg (Prod.mk s.dir) (if_pos hq)))
    · exact unpackValue_bind_runs _ ht1 h1 fun dcOffset _ ht2 h2 =>
        unpackValue_bind_runs _ ht2 h2 fun range _ ht3 h3 =>
        unpackValue_bind_runs _ ht3 h3 fun ids _ _ h4 =>
        .ok (h4.completed_moved (fun t => t.withPatchHeader (BitVec.ofNat 8 v) dcOffset range ids) hf rfl rfl
          (congrArg (Prod.mk s.dir) (if_neg hq)))
  | codePatch postquant =>
    refine ⟨_, rfl, .pass nofun <| .check (patch_illegal_iff .enc) fun hd => .check Iff.rfl fun _ =>
      .runs (same rfl ?_)⟩
    have hready : (truncateTail postquant.toNat s).PackReady := enc (not_or.mp hd).1
    exact packBits_runs _ hready ⟨rfl, rfl, rfl⟩
  | decodePatch =>
    refine ⟨_, rfl, .pass nofun <| .check (patch_illegal_iff .dec) fun hd => .runs (same rfl ?_)⟩
    exact decodeCoeffs_runs _ 0 _ (dec (not_or.mp hd).1) start
  | endData =>
    refine ⟨_, rfl, .pass nofun <| .check (header_illegal_iff .enc) fun hd => .runs ?_⟩
    exact (packBits_runs _ (enc (not_or.mp hd).1) start).bind fun t h1 =>
      .ok (h1.completed_moved (fun t => { t with codecState := .closed }) hf rfl rfl rfl)

section
variable {i : Instr} {s : State} (hs : s.Operational)
include hs

/-- A fault other than BufferExhausted is raised exactly if it is the one of the first check that fails (R157). -/
theorem exec_raises_iff {c : Cause} (hc : c ≠ .bufferExhausted) :
    exec i s = .next (raiseFault c (encode i) s) ↔ firstFault i s = some c := by
  obtain ⟨r, hexec, hanswers⟩ := exec_checked i hs
  have hkeeps : ∀ u, r = .ok u → u.fault = false := by
    rintro u rfl
    obtain ⟨-, hcompleted⟩ := hanswers.of_ok
    exact hcompleted.fault
  rw [hexec, conclude_eq_next_raise hkeeps, hanswers.raises_iff hc]

/-- A command that answers without a fault has passed its checks and completed. -/
theorem exec_completed {t : State} (h : exec i s = .next t) (hf : t.fault = false) :
    firstFault i s = none ∧ Completed i s t := by
  obtain ⟨r, hexec, hanswers⟩ := exec_checked i hs
  rw [hexec] at h
  obtain rfl := conclude_completes h hf
  exact hanswers.of_ok

end

/-- With its operands in range a command's first check is the one of R120's table. -/
theorem firstFault_eq_sequenceError_iff {i : Instr} {s : State} (hw : i.wellFormed s.bufAw = true) :
    firstFault i s = some .sequenceError ↔ legalIn i s.dir s.codecState = false := by
  unfold firstFault
  rw [if_neg (by simp [hw])]
  by_cases hl : legalIn i s.dir s.codecState = false
  · rw [if_pos hl]
    exact iff_of_true rfl hl
  · rw [if_neg hl]
    refine iff_of_false ?_ hl
    cases i with
    | codePatch postquant => split_ifs <;> simp
    | codePh large => split_ifs <;> simp
    | _ => nofun

/-- Settles O31: SequenceError is the fault of the table's check, and a command that completes leaves the session where
the table says. -/
theorem commandLegalityTable : Obligations.CommandLegalityTable := fun _ _ hs hw =>
  ⟨(exec_raises_iff hs (by decide)).trans (firstFault_eq_sequenceError_iff hw), fun _ h hf =>
    have ⟨_, hcompleted⟩ := exec_completed hs h hf
    hcompleted.session⟩

/-! ### Header sizes -/

section
variable {s t : State} (hs : s.Operational) (hf : t.fault = false)
include hs hf

/-- The stream position moves by the bits a command sends or reads (R113). -/
theorem exec_streamPos {i : Instr} {k : Nat} (h : exec i s = .next t)
    (hk : bitsSent i s = some k ∨ bitsRead i s = some k) : t.streamPos = s.streamPos + k := by
  rcases hk with hk | hk
  · obtain ⟨-, -, hpos, -⟩ := (exec_packs hs.resting h hf hk).law
    exact hpos
  · exact (exec_unpacks hs.resting h hf hk).streamPos_eq hs.resting

/-- DECODE_PH closes the group exactly if the sentinel's bits are next (R127). -/
theorem exec_decodePh_codecState {large : Bool} (h : exec (.decodePh large) s = .next t) :
    t.codecState = if s.upcoming 8 = wireBits endOfPatches.toNat 8 then .closed else .patchOpen := by
  refine conclude_yields (P := fun u => u.codecState = if s.upcoming 8 = wireBits endOfPatches.toNat 8 then .closed
    else .patchOpen) (.check fun hd => ?_) h hf
  have start := Unpacks.refl hs.resting (of_not_not (not_or.mp hd).1)
  refine (unpackValue_unpacks 8 start).bind fun (v, s1) ⟨h1, hv, hwire⟩ => ?_
  dsimp only
  simp only [← eq_endOfPatches_iff hv hwire]
  by_cases hq : BitVec.ofNat 8 v = endOfPatches
  · rw [if_pos hq, if_pos hq]
    exact .ok rfl
  · rw [if_neg hq, if_neg hq]
    exact (unpackValue_unpacks 32 h1).bind fun _ ⟨h2, _⟩ => (unpackValue_unpacks 16 h2).bind fun _ ⟨h3, _⟩ =>
      (unpackValue_unpacks _ h3).bind fun _ _ => .ok rfl

/-- DECODE_PH moves the stream by the sentinel if it closes the group, else by a header (R127, R131). -/
theorem exec_decodePh_streamPos {large : Bool} (h : exec (.decodePh large) s = .next t) :
    t.streamPos = s.streamPos + if t.codecState = .closed then 8 else if large then 88 else 66 := by
  rw [exec_streamPos hs hf h (.inr rfl), exec_decodePh_codecState hs hf h]
  by_cases hsentinel : s.upcoming 8 = wireBits endOfPatches.toNat 8
  · rw [if_pos hsentinel, if_pos hsentinel, if_pos rfl]
  · rw [if_neg hsentinel, if_neg hsentinel, if_neg (c := CodecState.patchOpen = .closed) (by decide)]

end

/-- Settles O51: a command moves the position by the bits it sends or reads. -/
theorem headerSizesOnTheWire : Obligations.HeaderSizesOnTheWire := by
  intro s t hs hf
  refine ⟨?_, fun h => exec_streamPos hs hf h (.inl rfl), fun h => exec_streamPos hs hf h (.inl rfl),
    fun h hopen => ?_, fun h hopen => ?_, fun h => exec_streamPos hs hf h (.inl rfl), fun large h hclosed => ?_⟩
  · rintro (h | h)
    · exact exec_streamPos hs hf h (.inl rfl)
    · exact exec_streamPos hs hf h (.inr rfl)
  · rw [exec_decodePh_streamPos hs hf h, hopen]
    rfl
  · rw [exec_decodePh_streamPos hs hf h, hopen]
    rfl
  · rw [exec_decodePh_streamPos hs hf h, if_pos hclosed]

end Sys2Proof.Machine
end

section
/-! PROOFS of the family 42_codec_patch.md, part 1: DECODE_PATCH (O26, O27). One turn of its loop reads one code off the
front of the bits to come; so the loop reads every code of its coefficients, and whenever it completes it has met one
(spec/42_codec_patch.md R140, R142). -/

namespace Sys2Proof.Machine

/-! ### The bits to come -/

/-- The bits to come begin with `bits`, and all of these are left in the buffer (R107). -/
def State.Offers (s : State) (bits : List Bool) : Prop := s.upcoming bits.length = bits ∧ s.Available bits.length

theorem State.UnpackReady.offers_nil {s : State} (hs : s.UnpackReady) : s.Offers [] := by
  obtain ⟨-, hcount, -⟩ := hs
  have hle : s.byteCount.toNat ≤ s.capacity.toNat := BitVec.le_def.mp hcount
  refine ⟨rfl, ?_⟩
  show 8 * s.byteCount.toNat + 0 ≤ _
  omega

/-- What is on offer after `xs` was taken is what follows `xs` on offer before. -/
theorem Consumes.offers_append {xs : List Bool} {s t : State} (h : Consumes xs.length s t)
    (hcap : t.capacity = s.capacity) (ys : List Bool) :
    s.Offers (xs ++ ys) ↔ s.upcoming xs.length = xs ∧ t.Offers ys := by
  have hpos := h.position
  have hleft : s.Available (xs.length + ys.length) ↔ t.Available ys.length := by
    unfold State.Available
    rw [hcap]
    omega
  unfold State.Offers
  rw [List.length_append, h.upcoming, hleft]
  constructor
  · rintro ⟨hbits, ha⟩
    obtain ⟨hxs, hys⟩ := List.append_inj hbits (length_upcoming _ _)
    exact ⟨hxs, hys, ha⟩
  · rintro ⟨hxs, hys, ha⟩
    exact ⟨by rw [hxs, hys], ha⟩

theorem Reads.trans {n m : Nat} {xs ys : List Bool} {s t u : State} (h1 : Reads n xs s t) (h2 : Reads m ys t u) :
    Reads (n + m) (xs ++ ys) s u :=
  ⟨h1.onlyStream.trans h2.onlyStream, h1.taken.trans h2.taken, h2.ready, by rw [h1.wire, h2.wire, h1.taken.upcoming]⟩

section
variable {s : State} (hs : s.UnpackReady)
include hs

/-- Unpacking `n` bits when the bits of an `n`-bit value come next answers that value (R102, R103). -/
theorem unpackValue_of_offers {v n : Nat} {ys : List Bool} (hv : v < 2 ^ n) (ho : s.Offers (wireBits v n ++ ys)) :
    ∃ t, unpackValue n s = .ok (v, t) ∧ Reads n (wireBits v n) s t ∧ t.Offers ys := by
  have hroom : s.Available n := by
    obtain ⟨-, ha⟩ := ho
    rw [List.length_append, length_wireBits] at ha
    exact ha.mono (Nat.le_add_right _ _)
  have key := unpackValue_spec n hs
  rw [if_pos hroom] at key
  obtain ⟨u, t, hok, honly, hcons, hready, hu, hwire⟩ := key
  obtain ⟨hnext, hrest⟩ := (Consumes.offers_append (xs := wireBits v n) (by rwa [length_wireBits])
    honly.capacity ys).mp ho
  rw [length_wireBits] at hnext
  obtain rfl : u = v := wireBits_inj hu hv (hwire.trans hnext)
  exact ⟨t, hok, ⟨honly, hcons, hready, hwire⟩, hrest⟩

/-- Conversely, the value that unpacking answers came next on the stream, in front of all that follows. -/
theorem unpackValue_yields_offers (n : Nat) : Yields (unpackValue n s) fun p =>
    p.1 < 2 ^ n ∧ p.2.UnpackReady ∧ ∀ ys, p.2.Offers ys → s.Offers (wireBits p.1 n ++ ys) := by
  rintro ⟨v, t⟩ h
  obtain ⟨-, honly, hcons, hready, hv, hwire⟩ := unpackValue_ok hs h
  refine ⟨hv, hready, fun ys hys => ?_⟩
  refine (Consumes.offers_append (xs := wireBits v n) (by rwa [length_wireBits]) honly.capacity ys).mpr ⟨?_, hys⟩
  rw [length_wireBits, hwire]

end

/-! ### One turn of the loop -/

/-- The coefficient with the given sign and magnitude (R140). -/
def signedValue (negative : Bool) (m : Nat) : Int := if negative then -(m : Int) else m

theorem signedValue_natAbs (v : Int) : signedValue (decide (v < 0)) v.natAbs = v := by
  unfold signedValue
  split_ifs with hneg <;> rw [decide_eq_true_eq] at hneg <;> omega

/-- A single bit on the wire is the value 0 or 1 (R101). -/
theorem wireBits_toNat_one (b : Bool) : wireBits b.toNat 1 = [b] := by
  cases b <;> rfl

theorem exists_toNat_of_lt_two {v : Nat} (h : v < 2 ^ 1) : ∃ b : Bool, v = b.toNat := by
  have : v = 0 ∨ v = 1 := by omega
  rcases this with rfl | rfl
  · exact ⟨false, rfl⟩
  · exact ⟨true, rfl⟩

/-- One turn of the loop of R142. -/
theorem decodeCoeffs_succ (w i k : Nat) (s : State) : decodeCoeffs w i (k + 1) s =
    unpackValue 1 s >>= fun notZero =>
      if notZero.1 = 0 then decodeCoeffs w (i + 1) k (notZero.2.setCoeff i 0)
      else unpackValue 1 notZero.2 >>= fun isValue =>
        if isValue.1 = 0 then .ok { isValue.2 with patch := isValue.2.patch.fill i (k + 1) 0 }
        else unpackValue 1 isValue.2 >>= fun negative => unpackValue w negative.2 >>= fun m =>
          decodeCoeffs w (i + 1) k (m.2.setCoeff i (if negative.1 = 1 then -(m.1 : Int) else (m.1 : Int))) := rfl

section
variable {w i k m : Nat} {bs : List Bool} {s : State} (hs : s.UnpackReady)
include hs

/-- A turn on the zero code (R140). -/
theorem decodeCoeffs_zero (ho : s.Offers (false :: bs)) :
    ∃ t, decodeCoeffs w i (k + 1) s = decodeCoeffs w (i + 1) k (t.setCoeff i 0) ∧ Reads 1 [false] s t ∧ t.Offers bs := by
  obtain ⟨t, h, hreads, hrest⟩ := unpackValue_of_offers hs (v := 0) (n := 1) (by decide) ho
  exact ⟨t, by rw [decodeCoeffs_succ, bind_of_eq_ok h, if_pos rfl], hreads, hrest⟩

/-- A turn on the end-of-block code: the loop ends, with all the coefficients left at zero (R140). -/
theorem decodeCoeffs_endOfBlock (ho : s.Offers [true, false]) :
    ∃ t, decodeCoeffs w i (k + 1) s = .ok { t with patch := t.patch.fill i (k + 1) 0 } ∧
      Reads 2 [true, false] s t := by
  obtain ⟨s1, h1, hr1, ho1⟩ := unpackValue_of_offers hs (v := 1) (n := 1) (by decide) ho
  obtain ⟨s2, h2, hr2, -⟩ := unpackValue_of_offers hr1.ready (v := 0) (n := 1) (ys := []) (by decide) ho1
  refine ⟨s2, ?_, hr1.trans hr2⟩
  rw [decodeCoeffs_succ, bind_of_eq_ok h1, if_neg (by simp), bind_of_eq_ok h2, if_pos rfl]

/-- A turn on a sign code and a magnitude (R140). -/
theorem decodeCoeffs_value (negative : Bool) (hm : m < 2 ^ w)
    (ho : s.Offers ([true, true, negative] ++ wireBits m w ++ bs)) :
    ∃ t, decodeCoeffs w i (k + 1) s = decodeCoeffs w (i + 1) k (t.setCoeff i (signedValue negative m)) ∧
      Reads (3 + w) ([true, true, negative] ++ wireBits m w) s t ∧ t.Offers bs := by
  obtain ⟨s1, h1, hr1, ho1⟩ := unpackValue_of_offers hs (v := 1) (n := 1) (by decide) ho
  obtain ⟨s2, h2, hr2, ho2⟩ := unpackValue_of_offers hr1.ready (v := 1) (n := 1) (by decide) ho1
  obtain ⟨s3, h3, hr3, ho3⟩ := unpackValue_of_offers hr2.ready (v := negative.toNat) (n := 1)
    (ys := wireBits m w ++ bs) (Bool.toNat_lt negative) (by rw [wireBits_toNat_one]; exact ho2)
  obtain ⟨s4, h4, hr4, ho4⟩ := unpackValue_of_offers hr3.ready hm ho3
  rw [wireBits_toNat_one] at hr3
  refine ⟨s4, ?_, ((hr1.trans hr2).trans hr3).trans hr4, ho4⟩
  rw [decodeCoeffs_succ, bind_of_eq_ok h1, if_neg (by simp), bind_of_eq_ok h2, if_neg (by simp), bind_of_eq_ok h3,
    bind_of_eq_ok h4]
  cases negative <;> rfl

end

/-! ### The whole loop -/

/-- From `s` to `t` the loop of R142 took `n` bits and stored `grid` to PATCH from index `i` up. -/
structure Decodes (n i : Nat) (grid : List Int) (s t : State) : Prop where
  taken : Consumes n s t
  frame : t = { s with byteCount := t.byteCount, acc := t.acc, accBits := t.accBits, totalBits := t.totalBits,
                       patch := t.patch }
  words : ∀ j, t.patchWord j =
    if i ≤ j ∧ j < i + grid.length then BitVec.ofInt 32 (grid.getD (j - i) 0) else s.patchWord j

theorem patchWord_setCoeff (s : State) (i : Nat) (v : Int) (j : Nat) :
    (s.setCoeff i v).patchWord j = if j = i then BitVec.ofInt 32 v else s.patchWord j := by
  simp only [State.patchWord, setCoeff_patch, setCoeff_epoch, Memory.lookup_write]
  split_ifs <;> rfl

theorem patchWord_patchFill (s : State) (i count : Nat) (v : Word) (j : Nat) :
    State.patchWord { s with patch := s.patch.fill i count v } j =
      if i ≤ j ∧ j < i + count then v else s.patchWord j := by
  show ((s.patch.fill i count v).lookup j).getD _ = _
  rw [Memory.lookup_fill]
  split_ifs <;> rfl

/-- The loop that has no coefficient left. -/
theorem Decodes.nil (i : Nat) {s : State} (hs : s.UnpackReady) : Decodes 0 i [] s s :=
  ⟨Consumes.refl hs, rfl, fun j => by rw [List.length_nil, if_neg (by omega)]⟩

section
variable {n i : Nat} {bits : List Bool} {s t : State} (h : Reads n bits s t)
include h

theorem Reads.patchWord (j : Nat) : t.patchWord j = s.patchWord j :=
  State.patchWord_congr h.onlyStream.patch h.onlyStream.epoch j

/-- A turn that stored `v`, and then the rest of the loop. -/
theorem Decodes.cons {m : Nat} {v : Int} {grid : List Int} {u : State}
    (hrest : Decodes m (i + 1) grid (t.setCoeff i v) u) : Decodes (n + m) i (v :: grid) s u := by
  refine ⟨h.taken.trans { hrest.taken with }, ?_, fun j => ?_⟩
  · rw [hrest.frame, h.frame]
    rfl
  · rw [hrest.words, patchWord_setCoeff, h.patchWord, List.length_cons]
    by_cases hj : j = i
    · rw [hj, if_neg (by omega), if_pos rfl, if_pos (by omega), Nat.sub_self, List.getD_cons_zero]
    · rw [if_neg hj]
      by_cases hin : i + 1 ≤ j ∧ j < i + 1 + grid.length
      · rw [if_pos hin, if_pos (by omega), show j - i = j - (i + 1) + 1 by omega, List.getD_cons_succ]
      · rw [if_neg hin, if_neg (by omega)]

/-- A turn that stored zeros and ended the loop. -/
theorem Decodes.zeros (count : Nat) :
    Decodes n i (List.replicate count 0) s { t with patch := t.patch.fill i count 0 } := by
  refine ⟨h.taken.congr rfl, ?_, fun j => ?_⟩
  · rw [h.frame]
  · rw [patchWord_patchFill, h.patchWord, List.length_replicate]
    by_cases hin : i ≤ j ∧ j < i + count
    · rw [if_pos hin, if_pos hin, List.getD_replicate _ (by omega)]
      rfl
    · rw [if_neg hin, if_neg hin]

end

/-- Wherever `bits` come next, the loop takes exactly them and stores `grid`. -/
def LoopReads (w : Nat) (grid : List Int) (bits : List Bool) : Prop :=
  ∀ (i : Nat) (s : State), s.UnpackReady → s.Offers bits →
    ∃ t, decodeCoeffs w i grid.length s = .ok t ∧ Decodes bits.length i grid s t

/-- A value code in front, under either sign. -/
theorem LoopReads.value {w m : Nat} {grid : List Int} {bits : List Bool} (negative : Bool) (hm : m < 2 ^ w)
    (h : LoopReads w grid bits) :
    LoopReads w (signedValue negative m :: grid) ([true, true, negative] ++ wireBits m w ++ bits) := by
  intro i s hs ho
  obtain ⟨t, hturn, hreads, hrest⟩ := decodeCoeffs_value hs negative hm ho
  obtain ⟨u, hloop, hdecodes⟩ := h (i + 1) _ (hreads.ready.setCoeff i (signedValue negative m)) hrest
  refine ⟨u, hturn.trans hloop, ?_⟩
  rw [List.length_append, List.length_append, length_wireBits]
  exact .cons hreads hdecodes

/-- The loop reads every code of its coefficients (R142). -/
theorem Codes.loopReads {w : Nat} {grid : List Int} {bits : List Bool} (hcodes : Codes w grid bits) :
    LoopReads w grid bits := by
  induction hcodes with
  | done => exact fun i s hs _ => ⟨s, rfl, .nil i hs⟩
  | zero _ ih =>
    intro i s hs ho
    obtain ⟨t, hturn, hreads, hrest⟩ := decodeCoeffs_zero hs ho
    obtain ⟨u, hloop, hdecodes⟩ := ih (i + 1) _ (hreads.ready.setCoeff i 0) hrest
    exact ⟨u, hturn.trans hloop, by rw [List.length_cons, Nat.add_comm]; exact .cons hreads hdecodes⟩
  | endOfBlock k =>
    intro i s hs ho
    obtain ⟨t, hturn, hreads⟩ := decodeCoeffs_endOfBlock hs ho
    exact ⟨_, by rw [List.length_replicate]; exact hturn, .zeros hreads (k + 1)⟩
  | positive m hm _ ih => exact ih.value false hm
  | negative m hm _ ih => exact ih.value true hm

/-- A signed value in front of a code (R140). -/
theorem Codes.value {w m : Nat} {grid : List Int} {bits : List Bool} (negative : Bool) (hm : m < 2 ^ w)
    (h : Codes w grid bits) :
    Codes w (signedValue negative m :: grid) ([true, true, negative] ++ wireBits m w ++ bits) := by
  cases negative
  · exact .positive m hm h
  · exact .negative m hm h

/-- If the loop completes, a code of its coefficients came next (R142). -/
theorem decodeCoeffs_yields_codes (w i left : Nat) {s : State} (hs : s.UnpackReady) :
    Yields (decodeCoeffs w i left s) fun _ =>
      ∃ grid bits, grid.length = left ∧ Codes w grid bits ∧ s.Offers bits := by
  induction left generalizing i s with
  | zero => exact .ok ⟨[], [], rfl, .done, hs.offers_nil⟩
  | succ k ih =>
    rw [decodeCoeffs_succ]
    refine (unpackValue_yields_offers hs 1).bind fun (notZero, s1) ⟨hlt1, hs1, ho1⟩ => ?_
    obtain ⟨notZero, rfl⟩ := exists_toNat_of_lt_two hlt1
    simp only [wireBits_toNat_one] at ho1
    cases notZero with
    | false =>
      exact (ih (i + 1) (hs1.setCoeff i 0)).mono fun _ ⟨grid, bits, hlen, hcodes, ho⟩ =>
        ⟨0 :: grid, false :: bits, by rw [List.length_cons, hlen], .zero hcodes, ho1 bits ho⟩
    | true =>
      refine (unpackValue_yields_offers hs1 1).bind fun (isValue, s2) ⟨hlt2, hs2, ho2⟩ => ?_
      obtain ⟨isValue, rfl⟩ := exists_toNat_of_lt_two hlt2
      simp only [wireBits_toNat_one] at ho2
      cases isValue with
      | false =>
        exact .ok ⟨List.replicate (k + 1) 0, [true, false], List.length_replicate, .endOfBlock k,
          ho1 _ (ho2 _ hs2.offers_nil)⟩
      | true =>
        refine (unpackValue_yields_offers hs2 1).bind fun (negative, s3) ⟨hlt3, hs3, ho3⟩ => ?_
        obtain ⟨negative, rfl⟩ := exists_toNat_of_lt_two hlt3
        simp only [wireBits_toNat_one] at ho3
        refine (unpackValue_yields_offers hs3 w).bind fun (m, s4) ⟨hm, hs4, ho4⟩ => ?_
        exact (ih (i + 1) (hs4.setCoeff i _)).mono fun _ ⟨grid, bits, hlen, hcodes, ho⟩ =>
          ⟨signedValue negative m :: grid, [true, true, negative] ++ wireBits m w ++ bits, by rw [List.length_cons, hlen],
            hcodes.value negative hm, ho1 _ (ho2 _ (ho3 _ (ho4 bits ho)))⟩

/-! ### DECODE_PATCH -/

/-- DECODE_PATCH in a decode session in PatchOpen is the loop over all coefficients (R142). -/
theorem exec_decodePatch_dec {s : State} (hd : s.dir = .dec) (hc : s.codecState = .patchOpen) :
    exec .decodePatch s = conclude .decodePatch s (decodeCoeffs s.curWordBits.toNat 0 s.patchArea s) := by
  show execDecodePatch s = _
  rw [execDecodePatch, if_neg (by simp [hd, hc])]

/-- Every coefficient of a code is below `2^w` in magnitude (R140). -/
theorem Codes.natAbs_lt {w : Nat} {grid : List Int} {bits : List Bool} (h : Codes w grid bits) :
    ∀ v ∈ grid, v.natAbs < 2 ^ w := by
  have hzero : (0 : Int).natAbs < 2 ^ w := Nat.two_pow_pos w
  induction h with
  | done => exact nofun
  | zero _ ih => exact List.forall_mem_cons.mpr ⟨hzero, ih⟩
  | endOfBlock k =>
    intro v hv
    rw [List.eq_of_mem_replicate hv]
    exact hzero
  | positive m hm _ ih => exact List.forall_mem_cons.mpr ⟨by rwa [Int.natAbs_natCast], ih⟩
  | negative m hm _ ih => exact List.forall_mem_cons.mpr ⟨by rwa [Int.natAbs_neg, Int.natAbs_natCast], ih⟩

/-- A coefficient of at most 17 bits is kept by a word of PATCH (R44, R143). -/
theorem toInt_ofInt_of_natAbs_lt {w : Nat} {v : Int} (hw : w ≤ 17) (hv : v.natAbs < 2 ^ w) :
    (BitVec.ofInt 32 v).toInt = v := by
  have hlt : v.natAbs < 2 ^ 17 := lt_of_lt_of_le hv (Nat.pow_le_pow_right (by norm_num) hw)
  rw [BitVec.toInt_ofInt]
  exact Int.bmod_eq_of_le (by omega) (by omega)

/-- Settles O26: the loop reads the code from index 0 up. -/
theorem decodePatchReadsCoefficientCode : Obligations.DecodePatchReadsCoefficientCode := by
  intro s grid bits hs hd hc hlen hcodes hupcoming ha
  obtain ⟨-, -, -, -, -, -, hwidth, -⟩ := hs.resting
  obtain ⟨-, hw17⟩ := hwidth hc
  obtain ⟨t, hloop, hdecodes⟩ := hcodes.loopReads 0 s (hs.resting.unpackReady hd) ⟨hupcoming, ha⟩
  rw [hlen] at hloop
  refine ⟨t, by rw [exec_decodePatch_dec hd hc, hloop, conclude_ok], hdecodes.taken, fun i hi => ?_, fun i hi => ?_,
    hdecodes.frame⟩
  · rw [State.coeff, hdecodes.words, if_pos (by omega), Nat.sub_zero]
    refine toInt_ofInt_of_natAbs_lt hw17 (hcodes.natAbs_lt _ ?_)
    rw [List.getD_eq_getElem _ _ (hlen ▸ hi)]
    exact List.getElem_mem _
  · rw [hdecodes.words, if_neg (by omega)]

/-- Settles O27: if the loop completes it has met a code; if it does not, no code was there, for it would have read
it. -/
theorem decodePatchDecodesOrExhausts : Obligations.DecodePatchDecodesOrExhausts := by
  intro s hs hd hc
  have ⟨hf, _⟩ := hs
  have hready := hs.resting.unpackReady hd
  have hruns := decodeCoeffs_runs s.curWordBits.toNat 0 s.patchArea hready (.refl s)
  rw [exec_decodePatch_dec hd hc]
  cases hloop : decodeCoeffs s.curWordBits.toNat 0 s.patchArea s with
  | ok t =>
    rw [hloop] at hruns
    cases hruns with
    | ok hkeeps =>
      obtain ⟨grid, bits, hlen, hcodes, hupcoming, ha⟩ := decodeCoeffs_yields_codes _ _ _ hready t hloop
      exact .inl ⟨t, grid, bits, rfl, hkeeps.fault.trans hf, hlen, hcodes, hupcoming, ha⟩
  | error e =>
    rw [hloop] at hruns
    cases hruns with
    | exhausted =>
      refine .inr ⟨rfl, fun grid bits hlen hcodes hupcoming ha => ?_⟩
      obtain ⟨t, hok, -⟩ := hcodes.loopReads 0 s hready ⟨hupcoming, ha⟩
      rw [hlen, hloop] at hok
      cases hok

end Sys2Proof.Machine
end

section
/-! PROOFS of the family 42_codec_patch.md, part 2: CODE_PATCH and the width of a patch (O24, O25, O28). CODE_PATCH zeroes
the tail and packs the code of what is left, whose length is counted code by code; CODE_PH chooses a width above every
bit it scans (spec/42_codec_patch.md R141, R145, R146). -/

namespace Sys2Proof.Machine

/-! ### CODE_PATCH -/

section
variable {postquant : BitVec 16} {s t : State}

/-- CODE_PATCH where it is legal packs the code of the truncated grid (R141). -/
theorem exec_codePatch_enc (hd : s.dir = .enc) (hc : s.codecState = .patchOpen) (hq : postquant.toNat ≤ s.patchArea) :
    exec (.codePatch postquant) s = conclude (.codePatch postquant) s
      (packBits (patchBitsOf postquant s) (truncateTail postquant.toNat s)) := by
  show execCodePatch postquant s = _
  rw [execCodePatch, if_neg (by simp [hd, hc]), if_neg (Nat.not_lt.mpr hq)]
  simp only [coeffBits_truncateTail hq]

/-- A CODE_PATCH that completed was legal, and appended the code of the truncated grid (R141). -/
theorem exec_codePatch_completed (hs : s.Operational) (h : exec (.codePatch postquant) s = .next t)
    (hf : t.fault = false) :
    postquant.toNat ≤ s.patchArea ∧ OnlyStream (truncateTail postquant.toNat s) t ∧
      Appends (patchBitsOf postquant s) s t := by
  refine conclude_yields (P := fun u => postquant.toNat ≤ s.patchArea ∧
    OnlyStream (truncateTail postquant.toNat s) u ∧ Appends (patchBitsOf postquant s) s u)
    (.check fun hd => .check fun hq => ?_) h hf
  have hle := Nat.le_of_not_lt hq
  have hready : (truncateTail postquant.toNat s).PackReady := hs.resting.packReady (of_not_not (not_or.mp hd).1)
  simp only [coeffBits_truncateTail hle]
  intro u hu
  obtain ⟨-, ho, happends, -⟩ := packBits_ok hready hu
  exact ⟨hle, ho, { happends with }⟩

end

/-- Settles O24: the code is packed from the state with the tail of PATCH zeroed. -/
theorem codePatchAppendsCoefficientCode : Obligations.CodePatchAppendsCoefficientCode := by
  intro postquant s hs hd hc hq hroom
  have hready : (truncateTail postquant.toNat s).PackReady := hs.resting.packReady hd
  obtain ⟨t, hok, ho, happends, -⟩ := packBits_of_room hready hroom
  refine ⟨t, by rw [exec_codePatch_enc hd hc hq, hok, conclude_ok], { happends with }, fun i => ?_, ?_⟩
  · rw [State.patchWord_congr ho.patch ho.epoch, patchWord_truncateTail, Nat.sub_add_cancel hq]
  · rw [ho.patch]
    exact ho

/-! ### How many bits it sends -/

/-- The codes of some coefficients take one bit for each zero and `3 + w` for each other one (R145). -/
theorem length_flatMap_coefficientCode (w : Nat) (g : Nat → Int) (is : List Nat) :
    (is.flatMap fun i => coefficientCode w (g i)).length =
      (is.filter fun i => decide (g i = 0)).length + (3 + w) * (is.filter fun i => decide (g i ≠ 0)).length := by
  induction is with
  | nil => rfl
  | cons i rest ih =>
    rw [List.flatMap_cons, List.length_append, ih, length_coefficientCode, List.filter_cons, List.filter_cons]
    by_cases h : g i = 0
    · rw [if_pos h, if_pos (decide_eq_true h), if_neg (by simp [h]), List.length_cons]
      omega
    · rw [if_neg h, if_neg (by simp [h]), if_pos (decide_eq_true h), List.length_cons, Nat.mul_succ]
      omega

theorem truncatedGrid_of_lt {q : Nat} {s : State} {i : Nat} (h : i < s.patchArea - q) :
    truncatedGrid q s i = s.coeff i := if_pos h

/-- Settles O25: `i0` is where the code ends, and before it the truncated grid is the grid. -/
theorem endOfBlockShortcutCost : Obligations.EndOfBlockShortcutCost := by
  intro postquant s t i0 hs h hf hle hzero hleast
  obtain ⟨-, -, happends⟩ := exec_codePatch_completed hs h hf
  have hi0 : endOfBlockIndex (truncatedGrid postquant.toNat s) (s.patchArea - postquant.toNat) = i0 := by
    refine endOfBlockIndex_unique (fun j hj hlt => ?_) fun i hi => ?_
    · rw [truncatedGrid_of_lt hlt]
      exact hzero j hj hlt
    · obtain ⟨j, hij, hlt, hne⟩ := hleast i hi
      exact ⟨j, hij, hlt, by rwa [truncatedGrid_of_lt hlt]⟩
  have hgrid : ∀ i ∈ List.range i0, truncatedGrid postquant.toNat s i = s.coeff i := fun i hi =>
    truncatedGrid_of_lt ((List.mem_range.mp hi).trans_le hle)
  refine ⟨?_, fun hend hpos => ?_⟩
  · rw [happends.position, patchBitsOf, patchCode, hi0, List.length_append,
      List.flatMap_congr fun i hi => congrArg (coefficientCode s.curWordBits.toNat) (hgrid i hi),
      length_flatMap_coefficientCode, apply_ite List.length]
    rfl
  · obtain ⟨j, hj, hlt, hne⟩ := hleast (s.patchArea - 1) (by omega)
    refine ⟨BitVec.eq_of_toNat_eq ?_, ?_⟩
    · show postquant.toNat = 0
      omega
    · rwa [show s.patchArea - 1 = j by omega]

/-! ### The width of a patch -/

/-- A coefficient with no bit above the scan's range is below `2^w` for the chosen `w` (R125, R146). -/
theorem natAbs_lt_two_pow_chooseWbits {q : BitVec 8} {coeffs : List Int} {v : Int} (hv : v ∈ coeffs)
    (h : v.natAbs < 2 ^ (q.toNat % 16 + 8)) : v.natAbs < 2 ^ chooseWbits q coeffs := by
  obtain ⟨hmin, -, hcover, -⟩ := chosenWidthIsHighestBitPlusOne q coeffs
  refine Nat.lt_pow_two_of_testBit _ fun j hj => ?_
  by_contra hbit
  rw [Bool.not_eq_false] at hbit
  have hmax : j < q.toNat % 16 + 8 := by
    by_contra hge
    rw [Nat.testBit_lt_two_pow (h.trans_le (Nat.pow_le_pow_right (by norm_num) (by omega)))] at hbit
    cases hbit
  have := hcover v hv j (by omega) (by omega) hbit
  omega

/-- The value `2^w` is sent in `w` bits as zeros (R141, R146). -/
theorem wireBits_two_pow (w : Nat) : wireBits (2 ^ w) w = List.replicate w false := by
  rw [← wireBits_mod, Nat.mod_self]
  refine List.ext_getElem (by simp) fun k hk _ => ?_
  rw [List.getElem_replicate, ← List.getD_eq_getElem _ false, getD_wireBits _ (by simpa using hk), Nat.zero_testBit]

/-- A CODE_PH that completed chose a width of at most 17, and appended the header with that width in it (R126). -/
structure HeaderSent (large : Bool) (s t : State) : Prop where
  width_le : chooseWbits s.phQuantWbits s.grid ≤ 17
  appends : Appends (fieldBits (patchHeaderFields large t)) s t
  frame : t = { s with
    buf := t.buf, byteCount := t.byteCount, acc := t.acc, accBits := t.accBits, totalBits := t.totalBits,
    phQuantWbits := withWidthNibble s.phQuantWbits (chooseWbits s.phQuantWbits s.grid),
    curWordBits := BitVec.ofNat 5 (chooseWbits s.phQuantWbits s.grid), codecState := .patchOpen }

theorem exec_codePh_completed {large : Bool} {s t : State} (hs : s.Operational) (h : exec (.codePh large) s = .next t)
    (hf : t.fault = false) : HeaderSent large s t := by
  refine conclude_yields (P := HeaderSent large s) (.check fun hd => .check fun hw => ?_) h hf
  have hready : s.withChosenWidth.PackReady := hs.resting.packReady (of_not_not (not_or.mp hd).1)
  have hpacks : Yields (packBits (fieldBits (patchHeaderFields large s.withChosenWidth)) s.withChosenWidth) fun u =>
      OnlyStream s.withChosenWidth u ∧ Appends (fieldBits (patchHeaderFields large s.withChosenWidth)) s u := by
    intro u hu
    obtain ⟨-, ho, happends, -⟩ := packBits_ok hready hu
    exact ⟨ho, { happends with }⟩
  refine hpacks.bind fun u ⟨ho, happends⟩ => .ok ⟨Nat.le_of_not_lt (not_or.mp hw).2, ?_, ?_⟩
  · have hfields : patchHeaderFields large u = patchHeaderFields large s.withChosenWidth := by
      rw [ho]
      rfl
    rw [← hfields] at happends
    exact { happends with }
  · rw [ho]
    rfl

theorem coeff_mem_grid {s : State} {i : Nat} (h : i < s.patchArea) : s.coeff i ∈ s.grid :=
  List.mem_map_of_mem (List.mem_range.mpr h)

/-- A width of at most 17 fits `cur_word_bits` (R39). -/
theorem toNat_curWordBits {w : Nat} (h : w ≤ 17) : (BitVec.ofNat 5 w).toNat = w := by
  rw [BitVec.toNat_ofNat]
  omega

theorem HeaderSent.curWordBits_eq {large : Bool} {s t : State} (h : HeaderSent large s t) :
    t.curWordBits.toNat = chooseWbits s.phQuantWbits s.grid := by
  rw [h.frame]
  exact toNat_curWordBits h.width_le

/-- Settles O28: the width is the chosen one, which is at most `maxw + 1`. -/
theorem widthBoundAfterCodePatchHeader : Obligations.WidthBoundAfterCodePatchHeader := by
  intro large s t hs h hf
  have hsent := exec_codePh_completed hs h hf
  have h17 := hsent.width_le
  have ⟨_, hmax, _⟩ := chosenWidthIsHighestBitPlusOne s.phQuantWbits s.grid
  rw [hsent.curWordBits_eq]
  refine ⟨two_le_chooseWbits _ _, h17, fun i hi => ⟨natAbs_lt_two_pow_chooseWbits (coeff_mem_grid hi), fun habove => ?_⟩⟩
  have hclamp : min (s.coeff i).natAbs (2 ^ chooseWbits s.phQuantWbits s.grid) =
      2 ^ chooseWbits s.phQuantWbits s.grid :=
    Nat.min_eq_right ((Nat.pow_le_pow_right (by norm_num) (by omega)).trans habove)
  exact ⟨hclamp, by rw [hclamp, wireBits_two_pow]⟩

end Sys2Proof.Machine
end

section
/-! PROOFS of the family 42_codec_patch.md, part 3: the round trip of a patch (O53). The bits a header and a patch were
sent as are on offer to the decoder: DECODE_PH reads the header's fields off them, and what follows is a code of the
truncated grid, which DECODE_PATCH reads (spec/42_codec_patch.md R144). -/

namespace Sys2Proof.Machine

/-! ### What CODE_PATCH sends is a code of the truncated grid -/

/-- The code CODE_PATCH sends for one coefficient, in front of a code: the clamp of R141 does not act. -/
theorem Codes.coefficient {w : Nat} {v : Int} {grid : List Int} {bits : List Bool} (hv : v.natAbs < 2 ^ w)
    (h : Codes w grid bits) : Codes w (v :: grid) (coefficientCode w v ++ bits) := by
  by_cases h0 : v = 0
  · rw [h0, coefficientCode_zero]
    exact .zero h
  · have key := h.value (decide (v < 0)) hv
    rw [signedValue_natAbs] at key
    rwa [coefficientCode, if_neg h0, Nat.min_eq_left hv.le]

theorem Codes.coefficients {w : Nat} {g : Nat → Int} {grid : List Int} {bits : List Bool} (is : List Nat)
    (hg : ∀ i ∈ is, (g i).natAbs < 2 ^ w) (h : Codes w grid bits) :
    Codes w (is.map g ++ grid) (is.flatMap (fun i => coefficientCode w (g i)) ++ bits) := by
  induction is with
  | nil => exact h
  | cons i rest ih =>
    obtain ⟨hi, hrest⟩ := List.forall_mem_cons.mp hg
    rw [List.map_cons, List.flatMap_cons, List.append_assoc]
    exact (ih hrest).coefficient hi

/-- Zeros up to the end of the patch: the end-of-block code, or nothing if none are left (R145). -/
theorem codes_zeros (w n : Nat) : Codes w (List.replicate n 0) (if 0 < n then [true, false] else []) := by
  cases n with
  | zero => exact .done
  | succ k => exact .endOfBlock k

/-- The code of R145 is one DECODE_PATCH reads as the coefficients it was made of (R140). -/
theorem codes_patchCode {w cutoff area : Nat} {g : Nat → Int} (hca : cutoff ≤ area)
    (hz : ∀ j, cutoff ≤ j → j < area → g j = 0) (hg : ∀ i, i < area → (g i).natAbs < 2 ^ w) :
    Codes w ((List.range area).map g) (patchCode w cutoff area g) := by
  obtain ⟨hle, hzero, -⟩ := endOfBlockIndex_spec g cutoff
  unfold patchCode
  generalize endOfBlockIndex g cutoff = i0 at *
  obtain ⟨n, rfl⟩ : ∃ n, area = i0 + n := ⟨area - i0, by omega⟩
  have htail : (List.range n).map (fun k => g (i0 + k)) = List.replicate n 0 := by
    refine List.eq_replicate_iff.mpr ⟨by simp, fun v hv => ?_⟩
    obtain ⟨k, hk, rfl⟩ := List.mem_map.mp hv
    have hlt := List.mem_range.mp hk
    by_cases hcut : i0 + k < cutoff
    · exact hzero _ (by omega) hcut
    · exact hz _ (by omega) (by omega)
  rw [List.range_add, List.map_append, List.map_map, show g ∘ (i0 + ·) = fun k => g (i0 + k) from rfl, htail]
  simp only [Nat.lt_add_right_iff_pos]
  exact (codes_zeros w n).coefficients _ fun i hi => hg i (by have := List.mem_range.mp hi; omega)

/-! ### The header -/

/-- The fields of a header are fixed by the bits they are sent as, PH_PATCH_IDS in the bits the form sends (R131). -/
theorem patchHeader_inj {large : Bool} {s t : State}
    (h : fieldBits (patchHeaderFields large t) = fieldBits (patchHeaderFields large s))
    (hids : t.phPatchIds.toNat < 2 ^ (if large then 32 else 10)) :
    t.phQuantWbits = s.phQuantWbits ∧ t.phDcOffset = s.phDcOffset ∧ t.phRange = s.phRange ∧
      t.phPatchIds.toNat = s.phPatchIds.toNat % 2 ^ (if large then 32 else 10) := by
  rw [fieldBits_patchHeader, fieldBits_patchHeader] at h
  obtain ⟨h, hwire4⟩ := List.append_inj h (by simp)
  obtain ⟨h, hwire3⟩ := List.append_inj h (by simp)
  obtain ⟨hwire1, hwire2⟩ := List.append_inj h (by simp)
  rw [← wireBits_mod s.phPatchIds.toNat] at hwire4
  exact ⟨BitVec.eq_of_toNat_eq (wireBits_inj (BitVec.isLt _) (BitVec.isLt _) hwire1),
    BitVec.eq_of_toNat_eq (wireBits_inj (BitVec.isLt _) (BitVec.isLt _) hwire2),
    BitVec.eq_of_toNat_eq (wireBits_inj (BitVec.isLt _) (BitVec.isLt _) hwire3),
    wireBits_inj hids (Nat.mod_lt _ (Nat.two_pow_pos _)) hwire4⟩

/-- The front of what is on offer is on offer. -/
theorem State.Offers.left {s : State} {xs ys : List Bool} (h : s.Offers (xs ++ ys)) : s.Offers xs := by
  obtain ⟨hbits, ha⟩ := h
  rw [List.length_append] at hbits ha
  rw [State.upcoming, List.range_add, List.map_append] at hbits
  exact ⟨(List.append_inj hbits (by simp)).1, ha.mono (Nat.le_add_right _ _)⟩

/-- From `d` to `t` DECODE_PH read the header that `s` holds, PH_PATCH_IDS in the bits the form sends (R127). -/
structure HeaderRead (large : Bool) (s d t : State) : Prop where
  quantWbits : t.phQuantWbits = s.phQuantWbits
  dcOffset : t.phDcOffset = s.phDcOffset
  range : t.phRange = s.phRange
  patchIds : t.phPatchIds.toNat = s.phPatchIds.toNat % 2 ^ (if large then 32 else 10)
  width : t.curWordBits.toNat = t.phQuantWbits.toNat % 16 + 2
  fault : t.fault = d.fault
  dir : t.dir = d.dir
  codecState : t.codecState = .patchOpen
  patchSize : t.curPatchSize = d.curPatchSize

/-- DECODE_PH reads a header on offer, and what follows it is on offer afterwards (R127). -/
theorem exec_decodePh_of_offers {large : Bool} {s d : State} {ys : List Bool} (hd : d.Operational) (hdir : d.dir = .dec)
    (hc : d.codecState = .groupOpen ∨ d.codecState = .patchOpen) (hq : s.phQuantWbits ≠ 97)
    (ho : d.Offers (fieldBits (patchHeaderFields large s) ++ ys)) :
    ∃ t, exec (.decodePh large) d = .next t ∧ HeaderRead large s d t ∧ t.Offers ys := by
  obtain ⟨hheader, hroom⟩ := ho.left
  have hother : d.upcoming 8 ≠ wireBits 97 8 := by
    rw [fieldBits_patchHeader, List.append_assoc, List.append_assoc] at ho
    obtain ⟨hbyte, -⟩ := ho.left.left
    rw [length_wireBits] at hbyte
    rw [hbyte]
    exact fun h => hq (BitVec.eq_of_toNat_eq (wireBits_inj (BitVec.isLt _) (by decide) h))
  rw [length_patchHeader] at hheader hroom
  obtain ⟨t, hexec, hcons, hwire, hids, hwidth, hframe⟩ :=
    decodePatchHeaderReadsFields large d hd hdir hc hother hroom
  obtain ⟨hquant, hdc, hrange, hpatchIds⟩ :=
    patchHeader_inj (s := s) (t := t) (by rw [fieldBits_patchHeader, hwire, hheader]) hids
  have hcap : t.capacity = d.capacity := by rw [hframe]
  rw [← length_patchHeader large s] at hcons
  obtain ⟨-, hrest⟩ := (hcons.offers_append hcap ys).mp ho
  exact ⟨t, hexec, ⟨hquant, hdc, hrange, hpatchIds, hwidth, by rw [hframe], by rw [hframe], by rw [hframe],
    by rw [hframe]⟩, hrest⟩

/-- The byte sent announces the width sent (R126, R127). -/
theorem HeaderSent.headerWidth_eq {large : Bool} {s t : State} (h : HeaderSent large s t) :
    t.phQuantWbits.toNat % 16 + 2 = t.curWordBits.toNat := by
  have h2 := two_le_chooseWbits s.phQuantWbits s.grid
  have h17 := h.width_le
  rw [h.curWordBits_eq, h.frame]
  simp only [withWidthNibble_toNat _ h2 h17]
  omega

/-- The header leaves the patch as it was. -/
theorem HeaderSent.coeff_eq {large : Bool} {s t : State} (h : HeaderSent large s t) (i : Nat) : t.coeff i = s.coeff i := by
  rw [h.frame]
  rfl

theorem HeaderSent.patchArea_eq {large : Bool} {s t : State} (h : HeaderSent large s t) :
    t.patchArea = s.patchArea := by
  rw [h.frame]
  rfl

/-! ### The patch -/

/-- After a header, what CODE_PATCH sends is a code of the truncated grid: the width bounds every coefficient (R146). -/
theorem HeaderSent.codes_patchBitsOf {large : Bool} {s t : State} (h : HeaderSent large s t) (postquant : BitVec 16)
    (hbound : ∀ v ∈ s.grid, v.natAbs < 2 ^ (s.phQuantWbits.toNat % 16 + 8)) :
    Codes t.curWordBits.toNat ((List.range t.patchArea).map (truncatedGrid postquant.toNat t))
      (patchBitsOf postquant t) := by
  refine codes_patchCode (Nat.sub_le _ _) (fun j hj _ => if_neg (Nat.not_lt.mpr hj)) fun i hi => ?_
  unfold truncatedGrid
  split_ifs
  · rw [h.coeff_eq, h.curWordBits_eq]
    have hmem := coeff_mem_grid (h.patchArea_eq ▸ hi)
    exact natAbs_lt_two_pow_chooseWbits hmem (hbound _ hmem)
  · exact Nat.two_pow_pos _

/-- Bits appended in one session are on offer in another that has them to come. -/
theorem Appends.offers {bits : List Bool} {s t d : State} (h : Appends bits s t)
    (hbits : ∀ k, k < t.packedPos - s.packedPos → d.upcomingBit k = t.producedBit (s.packedPos + k))
    (ha : d.Available (t.packedPos - s.packedPos)) : d.Offers bits := by
  rw [h.position, Nat.add_sub_cancel_left] at hbits ha
  refine ⟨List.ext_getElem (length_upcoming _ _) fun k _ hk => ?_, ha⟩
  simp only [State.upcoming, List.getElem_map, List.getElem_range]
  rw [hbits k hk, h.appended k hk, List.getD_eq_getElem _ _ hk]

/-- Settles O53: header and patch are on offer one after the other, and are read one after the other. -/
theorem patchRoundTrip : Obligations.PatchRoundTrip := by
  intro large postquant s s1 s2 d hs h1 hf1 h2 hf2 hbound hq hd hdir hc hsize hbits ha
  have hsent := exec_codePh_completed hs h1 hf1
  have hs1 : s1.Operational := ⟨hf1, exec_inv _ hs h1⟩
  obtain ⟨-, -, hpatch⟩ := exec_codePatch_completed hs1 h2 hf2
  obtain ⟨d1, hexec1, hread, hupcoming, hroom⟩ :=
    exec_decodePh_of_offers hd hdir hc hq ((hsent.appends.trans hpatch).offers hbits ha)
  have ⟨hdf, _⟩ := hd
  have hf := hread.fault.trans hdf
  have hword : d1.curWordBits = s1.curWordBits :=
    BitVec.eq_of_toNat_eq (by rw [hread.width, hread.quantWbits, hsent.headerWidth_eq])
  have harea : s1.patchArea = d1.patchArea := by
    rw [hsent.patchArea_eq, State.patchArea, State.patchArea, hread.patchSize, hsize]
  have hcodes := hsent.codes_patchBitsOf postquant hbound
  rw [← hword] at hcodes
  obtain ⟨d2, hexec2, -, hcoeffs, -, hframe⟩ := decodePatchReadsCoefficientCode d1 _ _ ⟨hf, exec_inv _ hd hexec1⟩
    (hread.dir.trans hdir) hread.codecState (by simp [harea]) hcodes hupcoming hroom
  refine ⟨d1, d2, hexec1, hexec2, by rw [hframe, hf], fun i hi => ?_, by rw [hframe, hread.quantWbits],
    by rw [hframe, hread.dcOffset], by rw [hframe, hread.range], by rw [hframe, hread.patchIds], by rw [hframe, hword]⟩
  rw [← hsent.patchArea_eq] at hi ⊢
  rw [hcoeffs i (harea ▸ hi), List.getD_eq_getElem _ _ (by simpa using hi), List.getElem_map, List.getElem_range,
    truncatedGrid, hsent.coeff_eq]

end Sys2Proof.Machine
end

section
/-! PROOFS of the family 60_exceptions.md, part 1: IllegalCommand and IllegalOperand at the port (O3). A row's mask is its
opcode field and the bits of its operand field that its format reserves, so a word matches the row exactly if it is the
encoding of one of the row's commands (spec/30_encoding.md R80, R84, R85, spec/60_exceptions.md R154, R155). -/

namespace Sys2Proof.Machine

/-! ### Match and mask of a row -/

/-- How many low bits of the operand field the format of a command's row takes as its operand (R80). -/
def operandWidth (i : Instr) : Nat :=
  match i with
  | .pack _ | .unpack _ => 6
  | .initEnc _ | .initDec _ => 24
  | .codePh _ | .decodePh _ => 1
  | .codePatch _ => 16
  | .flush | .bpReset | .codeGh | .decodeGh | .decodePatch | .endData => 0

/-- The bits of the operand field that must be zero in a command's row (R80). -/
def reservedBits (i : Instr) : BitVec 24 := BitVec.allOnes 24 <<< operandWidth i

/-- A row of R84 asks for its opcode and for zeros in the bits its format reserves. -/
theorem rowOfCommand_eq (i : Instr) : rowOfCommand i = (opcodeOf i ++ 0#24, 0xFF#8 ++ reservedBits i) := by
  cases i <;> simp only [rowOfCommand, opcodeOf, reservedBits, operandWidth] <;> decide

/-- Commands of one row have one opcode and reserve the same bits. -/
theorem row_eq {i j : Instr} (h : rowOfCommand i = rowOfCommand j) :
    opcodeOf i = opcodeOf j ∧ reservedBits i = reservedBits j := by
  rw [rowOfCommand_eq, rowOfCommand_eq, Prod.mk.injEq] at h
  exact h.imp (BitVec.append_left_inj _).mp (BitVec.append_right_inj _).mp

/-- A word matches a row exactly by its two fields. -/
theorem matches_row_iff (w : Word) (j : Instr) :
    w &&& (rowOfCommand j).2 = (rowOfCommand j).1 ↔ opField w = opcodeOf j ∧ argField w &&& reservedBits j = 0 := by
  have hand : w &&& (rowOfCommand j).2 = opField w ++ (argField w &&& reservedBits j) := by
    rw [rowOfCommand_eq]
    nth_rw 1 [← Laws.opField_append_argField w]
    rw [BitVec.and_append]
    exact congrArg (· ++ _) BitVec.and_allOnes
  rw [hand, rowOfCommand_eq]
  constructor
  · intro h
    have hop := congrArg opField h
    have harg := congrArg argField h
    exact ⟨by simpa only [opField, BitVec.extractLsb'_append_eq_left] using hop,
      by simpa only [argField, BitVec.extractLsb'_append_eq_right, BitVec.ofNat_eq_ofNat] using harg⟩
  · rintro ⟨hop, harg⟩
    rw [hop, harg]
    rfl

/-- The bits from `k` up are zero exactly if the low `k` bits, extended by zeros, are the whole operand field. -/
theorem and_reserved_eq_zero_iff (k : Nat) (arg : BitVec 24) :
    arg &&& (BitVec.allOnes 24 <<< k) = 0 ↔ (arg.setWidth k).setWidth 24 = arg := by
  have hreserved : ∀ j, (arg &&& (BitVec.allOnes 24 <<< k)).getLsbD j = (arg.getLsbD j && decide (k ≤ j)) := by
    intro j
    rw [BitVec.getLsbD_and, BitVec.getLsbD_shiftLeft, BitVec.getLsbD_allOnes]
    by_cases hj : j < 24
    · by_cases hjk : j < k
      · simp [hjk]
      · simp [hj, hjk, show k ≤ j by omega, show j - k < 24 by omega]
    · simp [BitVec.getLsbD_of_ge arg j (by omega)]
  have hoperand : ∀ j < 24, ((arg.setWidth k).setWidth 24).getLsbD j = (arg.getLsbD j && decide (j < k)) := by
    intro j hj
    rw [BitVec.getLsbD_setWidth, BitVec.getLsbD_setWidth, decide_eq_true hj, Bool.true_and, Bool.and_comm]
  constructor
  · intro h
    refine BitVec.eq_of_getLsbD_eq fun j hj => ?_
    rw [hoperand j hj]
    have hbit := hreserved j
    rw [h] at hbit
    by_cases hjk : j < k
    · simp [hjk]
    · rw [decide_eq_true (Nat.le_of_not_lt hjk), Bool.and_true] at hbit
      rw [← hbit, BitVec.ofNat_eq_ofNat, BitVec.getLsbD_zero, Bool.false_and]
  · intro h
    refine BitVec.eq_of_getLsbD_eq fun j hj => ?_
    rw [hreserved, ← h, hoperand j hj]
    by_cases hjk : j < k
    · simp [hjk]
    · simp [hjk]

/-- A command's operand leaves the reserved bits of its row zero. -/
theorem argOf_and_reservedBits (i : Instr) : argOf i &&& reservedBits i = 0 := by
  rw [reservedBits, and_reserved_eq_zero_iff]
  cases i <;> simp [argOf, operandWidth]

/-- Every operand field a row accepts is the operand of one of the row's commands. -/
theorem exists_command_of_accepts {j : Instr} {arg : BitVec 24} (h : arg &&& reservedBits j = 0) :
    ∃ i, rowOfCommand i = rowOfCommand j ∧ argOf i = arg := by
  rw [reservedBits, and_reserved_eq_zero_iff] at h
  have hbit : BitVec.ofBool (arg.getLsbD 0) = arg.setWidth 1 := by
    refine BitVec.eq_of_getLsbD_eq fun j hj => ?_
    obtain rfl : j = 0 := by omega
    simp
  have hnone : (arg.setWidth 0).setWidth 24 = 0 := by rw [BitVec.of_length_zero (x := arg.setWidth 0)]; rfl
  cases j with
  | pack _ => exact ⟨.pack (arg.setWidth 6), rfl, h⟩
  | unpack _ => exact ⟨.unpack (arg.setWidth 6), rfl, h⟩
  | initEnc _ => exact ⟨.initEnc arg, rfl, rfl⟩
  | initDec _ => exact ⟨.initDec arg, rfl, rfl⟩
  | codePh _ => exact ⟨.codePh (arg.getLsbD 0), rfl, by rw [argOf, hbit]; exact h⟩
  | decodePh _ => exact ⟨.decodePh (arg.getLsbD 0), rfl, by rw [argOf, hbit]; exact h⟩
  | codePatch _ => exact ⟨.codePatch (arg.setWidth 16), rfl, h⟩
  | flush | bpReset | codeGh | decodeGh | decodePatch | endData => exact ⟨_, rfl, hnone.symm.trans h⟩

/-- Match and mask decide what a word decodes to (R84). -/
theorem matches_row_iff_decodes (w : Word) (j : Instr) :
    w &&& (rowOfCommand j).2 = (rowOfCommand j).1 ↔ ∃ i, decode w = .ok i ∧ rowOfCommand i = rowOfCommand j := by
  rw [matches_row_iff]
  constructor
  · rintro ⟨hop, harg⟩
    obtain ⟨i, hrow, hi⟩ := exists_command_of_accepts harg
    have hword : encode i = w := by
      rw [encode, (row_eq hrow).1, hi, ← hop]
      exact Laws.opField_append_argField w
    exact ⟨i, hword ▸ Laws.decodeReadsEncodedCommand i, hrow⟩
  · rintro ⟨i, hdecode, hrow⟩
    obtain ⟨hop, hreserved⟩ := row_eq hrow
    obtain ⟨hwop, hwarg⟩ := Laws.fields_of_decode hdecode
    exact ⟨hwop ▸ hop, hwarg ▸ hreserved ▸ argOf_and_reservedBits i⟩

/-! ### The write to CMD -/

theorem transact_write_cmd (w : Word) {s : State} (hf : s.fault = false) :
    transact (.write 0 w) s = runCommand w s := regWrite_cmd w hf

/-- A command whose operand is out of range raises IllegalOperand in every state, for that check comes first (R155,
R157). -/
theorem exec_of_illegalOperand {i : Instr} {s : State} (h : i.wellFormed s.bufAw = false) :
    exec i s = .next (raiseFault .illegalOperand (encode i) s) := by
  cases i with
  | pack n | unpack n => exact congrArg (conclude _ s) (if_pos (Nat.not_le.mp (of_decide_eq_false h)))
  | initEnc cap | initDec cap =>
    exact congrArg (conclude _ s) (openSession_of_maxCap_lt _ (Nat.not_le.mp (of_decide_eq_false h)))
  | _ => cases h

/-- Settles O3: a word that matches no row does not decode, and a word that decodes is its command's. -/
theorem decodingIsTotalByMatchAndMask : Obligations.DecodingIsTotalByMatchAndMask := by
  refine ⟨matches_row_iff_decodes, fun w s hf hnone => ?_, fun w s i hf hdecode hrange => ?_⟩
  · rw [transact_write_cmd w hf]
    cases hdecode : decode w with
    | ok i => exact absurd ((matches_row_iff_decodes w i).mpr ⟨i, hdecode, rfl⟩) (hnone i)
    | error e => exact runCommand_of_illegal hdecode s
  · rw [transact_write_cmd w hf, runCommand_of_decode hdecode, exec_of_illegalOperand hrange,
      Laws.decodedWordIsTheEncoding w i hdecode]

end Sys2Proof.Machine
end

section
/-! PROOFS of the family 60_exceptions.md, part 2: which command raises which fault (O20, O29, O32 to O35). In a safe
state the fault a command raises is the one of its first failing check, or BufferExhausted past all checks, so each
statement about one cause is a statement about `firstFault` (spec/60_exceptions.md R150 to R159). -/

namespace Sys2Proof.Machine

/-! ### What the checks can answer -/

section
variable {i : Instr} {s : State}

/-- The range of the operand is checked first (R157). -/
theorem firstFault_of_operand (h : i.wellFormed s.bufAw = false) : firstFault i s = some .illegalOperand := if_pos h

/-- Direction and state are checked next (R157). -/
theorem firstFault_of_sequence (hw : i.wellFormed s.bufAw = true) (h : legalIn i s.dir s.codecState = false) :
    firstFault i s = some .sequenceError := (firstFault_eq_sequenceError_iff hw).mpr h

/-- Where CODE_PATCH is legal its one check left is that of its operand (R153). -/
theorem firstFault_codePatch {postquant : BitVec 16} (hl : legalIn (.codePatch postquant) s.dir s.codecState = true) :
    firstFault (.codePatch postquant) s =
      if s.patchArea < postquant.toNat then some .invalidQuantizationIndex else none :=
  (if_neg nofun).trans (if_neg (by simp [hl]))

/-- Where CODE_PH is legal its one check left is that of the chosen width (R152). -/
theorem firstFault_codePh {large : Bool} (hl : legalIn (.codePh large) s.dir s.codecState = true) :
    firstFault (.codePh large) s =
      if chooseWbits s.phQuantWbits s.grid < 2 ∨ 17 < chooseWbits s.phQuantWbits s.grid then some .invalidBitWidth
      else none :=
  (if_neg nofun).trans (if_neg (by simp [hl]))

/-- Everything the checks of a command can answer (R157). -/
theorem firstFault_eq_some {c : Cause} (h : firstFault i s = some c) :
    c = .illegalOperand ∧ i.wellFormed s.bufAw = false ∨
    c = .sequenceError ∧ legalIn i s.dir s.codecState = false ∨
    (∃ postquant, i = .codePatch postquant ∧ c = .invalidQuantizationIndex) ∨
    ∃ large, i = .codePh large ∧ c = .invalidBitWidth := by
  cases hw : i.wellFormed s.bufAw with
  | false =>
    rw [firstFault_of_operand hw] at h
    exact .inl ⟨(Option.some.inj h).symm, rfl⟩
  | true =>
    cases hl : legalIn i s.dir s.codecState with
    | false =>
      rw [firstFault_of_sequence hw hl] at h
      exact .inr (.inl ⟨(Option.some.inj h).symm, rfl⟩)
    | true =>
      cases i with
      | codePatch postquant =>
        rw [firstFault_codePatch hl] at h
        obtain ⟨-, hc⟩ := Option.ite_none_right_eq_some.mp h
        exact .inr (.inr (.inl ⟨postquant, rfl, (Option.some.inj hc).symm⟩))
      | codePh large =>
        rw [firstFault_codePh hl] at h
        obtain ⟨-, hc⟩ := Option.ite_none_right_eq_some.mp h
        exact .inr (.inr (.inr ⟨large, rfl, (Option.some.inj hc).symm⟩))
      | _ => simp [firstFault, hw, hl] at h

/-- A command that passes its checks has its operand in range and is legal where it stands (R81, R120). -/
theorem wellFormed_and_legal_of_firstFault (h : firstFault i s = none) :
    i.wellFormed s.bufAw = true ∧ legalIn i s.dir s.codecState = true := by
  cases hw : i.wellFormed s.bufAw with
  | false =>
    rw [firstFault_of_operand hw] at h
    cases h
  | true =>
    cases hl : legalIn i s.dir s.codecState with
    | false =>
      rw [firstFault_of_sequence hw hl] at h
      cases h
    | true => exact ⟨rfl, rfl⟩

/-! ### What a command raises -/

/-- The causes have six different codes (R150). -/
theorem causeCode_injective {c c' : Cause} (h : causeCode c = causeCode c') : c = c' := by
  revert h
  cases c <;> cases c' <;> decide

section
variable (hs : s.Operational)
include hs

/-- A command raises the fault of the first check it fails (R157). -/
theorem exec_of_firstFault {c : Cause} (h : firstFault i s = some c) :
    exec i s = .next (raiseFault c (encode i) s) := by
  obtain ⟨r, hexec, hanswers⟩ := exec_checked i hs
  rw [h] at hanswers
  cases hanswers
  exact hexec

/-- Past its checks a command completes, or it raises BufferExhausted (R151, R157). -/
theorem exec_of_checks_passed (h : firstFault i s = none) :
    (∃ t, exec i s = .next t ∧ t.fault = false) ∨ exec i s = .next (raiseFault .bufferExhausted (encode i) s) := by
  obtain ⟨r, hexec, hanswers⟩ := exec_checked i hs
  rw [h] at hanswers
  cases hanswers with
  | runs hruns =>
    cases hruns with
    | ok hcompleted => exact .inl ⟨_, hexec, hcompleted.fault⟩
    | exhausted => exact .inr hexec

/-- Past its checks a command that ends Faulted raised BufferExhausted. -/
theorem exhausted_of_checks_passed {t : State} (hpass : firstFault i s = none) (h : exec i s = .next t)
    (hf : t.fault = true) : t = raiseFault .bufferExhausted (encode i) s := by
  rcases exec_of_checks_passed hs hpass with ⟨u, hu, hcompleted⟩ | hexhausted
  · rw [h] at hu
    cases hu
    rw [hf] at hcompleted
    cases hcompleted
  · rw [h] at hexhausted
    exact Host.Outcome.next.inj hexhausted

/-- A command that ends Faulted with a cause other than BufferExhausted failed the check of that cause first. -/
theorem firstFault_of_cause {t : State} {c : Cause} (hc : c ≠ .bufferExhausted) (h : exec i s = .next t)
    (hf : t.fault = true) (hcause : t.cause = causeCode c) : firstFault i s = some c := by
  cases hfirst : firstFault i s with
  | some c' =>
    rw [exec_of_firstFault hs hfirst] at h
    cases h
    exact congrArg some (causeCode_injective hcause)
  | none =>
    obtain rfl := exhausted_of_checks_passed hs hfirst h hf
    exact absurd (causeCode_injective (c := .bufferExhausted) hcause).symm hc

end

end

/-- Settles O29: an illegal word does not reach the checks, every other command is `exec_checked`. -/
theorem faultChecksInFixedOrder : Obligations.FaultChecksInFixedOrder :=
  ⟨fun _ _ hs => ⟨fun _ => exec_of_firstFault hs, exec_of_checks_passed hs⟩, fun w _ s hf hillegal =>
    (transact_write_cmd w hf).trans (runCommand_of_illegal hillegal s)⟩

/-! ### IllegalOperand -/

/-- The operands that are out of range (R81). -/
theorem wellFormed_eq_false {i : Instr} {s : State} (h : i.wellFormed s.bufAw = false) :
    (∃ n, (i = .pack n ∨ i = .unpack n) ∧ 32 < n.toNat) ∨
      ∃ cap, (i = .initEnc cap ∨ i = .initDec cap) ∧ s.maxCap < cap.toNat := by
  cases i with
  | pack n => exact .inl ⟨n, .inl rfl, Nat.not_le.mp (of_decide_eq_false h)⟩
  | unpack n => exact .inl ⟨n, .inr rfl, Nat.not_le.mp (of_decide_eq_false h)⟩
  | initEnc cap => exact .inr ⟨cap, .inl rfl, Nat.not_le.mp (of_decide_eq_false h)⟩
  | initDec cap => exact .inr ⟨cap, .inr rfl, Nat.not_le.mp (of_decide_eq_false h)⟩
  | _ => cases h

/-- Settles O32: the four commands make the check first, in every state; no other check has that cause. -/
theorem illegalOperandRaised : Obligations.IllegalOperandRaised := by
  have raised : ∀ {i : Instr} {s : State}, i.wellFormed s.bufAw = false →
      ∃ t, exec i s = .next t ∧ t.fault = true ∧ t.cause = 5 ∧ t.faultCmd = encode i := fun h =>
    ⟨_, exec_of_illegalOperand h, rfl, rfl, rfl⟩
  refine ⟨fun n cap s => ⟨fun hn => ?_, fun hcap => ?_⟩, fun i s t hs h hf hcause => ?_⟩
  · have hrange : decide (n.toNat ≤ 32) = false := decide_eq_false (Nat.not_le.mpr hn)
    exact List.forall_mem_cons.mpr ⟨raised hrange, List.forall_mem_singleton.mpr (raised hrange)⟩
  · have hrange : decide (cap.toNat ≤ s.maxCap) = false := decide_eq_false (Nat.not_le.mpr hcap)
    exact List.forall_mem_cons.mpr ⟨raised hrange, List.forall_mem_singleton.mpr (raised hrange)⟩
  · have hfirst : firstFault i s = some .illegalOperand := firstFault_of_cause hs (by decide) h hf hcause
    rcases firstFault_eq_some hfirst with ⟨-, hrange⟩ | ⟨hc, -⟩ | ⟨_, -, hc⟩ | ⟨_, -, hc⟩
    · exact wellFormed_eq_false hrange
    all_goals cases hc

/-! ### InvalidBitWidth -/

/-- The chosen width is above 17 exactly if the scan meets a bit at position 17 or higher (R125). -/
theorem lt_chooseWbits_iff (q : BitVec 8) (coeffs : List Int) :
    17 < chooseWbits q coeffs ↔
      ∃ v ∈ coeffs, ∃ j, 17 ≤ j ∧ j ≤ q.toNat % 16 + 7 ∧ v.natAbs.testBit j = true := by
  obtain ⟨hmin, hmax, hcover, hattain⟩ := chosenWidthIsHighestBitPlusOne q coeffs
  constructor
  · intro hwide
    rcases hattain with hsame | ⟨v, hv, hbit⟩
    · omega
    · exact ⟨v, hv, _, by omega, by omega, hbit⟩
  · rintro ⟨v, hv, j, hlow, hhigh, hbit⟩
    have := hcover v hv j (by omega) (by omega) hbit
    omega

/-- Settles O20: InvalidBitWidth is the answer of CODE_PH's own check, and the width is never below 2. -/
theorem invalidBitWidthExactly : Obligations.InvalidBitWidthExactly := by
  refine ⟨fun large s hs hd hc => ⟨?_, ?_⟩, fun i s t hs h hf hcause => ?_⟩
  · have hl : legalIn (.codePh large) s.dir s.codecState = true := by simpa [legalIn, hd] using hc
    rw [exec_raises_iff hs (by decide), firstFault_codePh hl, Option.ite_none_right_eq_some]
    exact and_iff_left rfl
  · rw [or_iff_right (Nat.not_lt.mpr (two_le_chooseWbits _ _))]
    exact lt_chooseWbits_iff _ _
  · have hfirst : firstFault i s = some .invalidBitWidth := firstFault_of_cause hs (by decide) h hf hcause
    rcases firstFault_eq_some hfirst with ⟨hc, -⟩ | ⟨hc, -⟩ | ⟨_, -, hc⟩ | ⟨large, hi, -⟩
    · cases hc
    · cases hc
    · cases hc
    · exact ⟨large, hi⟩

/-! ### InvalidQuantizationIndex -/

/-- Settles O33: past that check CODE_PATCH has none left, so all it can still raise is BufferExhausted. -/
theorem invalidQuantizationIndexRaised : Obligations.InvalidQuantizationIndexRaised := by
  intro postquant s hs hd hc
  have hl : legalIn (.codePatch postquant) s.dir s.codecState = true := by simp [legalIn, hd, hc]
  have harea : s.patchArea = s.curPatchSize.toNat ^ 2 := (sq _).symm
  refine ⟨?_, rfl, fun hq t h hf => ?_⟩
  · rw [exec_raises_iff hs (by decide), firstFault_codePatch hl, harea, Option.ite_none_right_eq_some]
    exact and_iff_left rfl
  · have hfirst : firstFault (.codePatch postquant) s = none := by
      rw [firstFault_codePatch hl, if_neg (by omega)]
    rw [exhausted_of_checks_passed hs hfirst h hf]
    rfl

/-! ### The Faulted condition -/

/-- Settles O34: of the state before, only `BUF_AW`, the transactions, the response and the counters are left. -/
theorem raisedFaultForgetsState : Obligations.RaisedFaultForgetsState := by
  intro c w s t
  refine ⟨rfl, by cases c <;> rfl, rfl, fun hbufAw hpending hresponse hepoch hdraws => ?_⟩
  simp only [raiseFault, hbufAw, hpending, hresponse, hepoch, hdraws]

/-- Settles O35: the port ignores writes and shows the record (`registerAccessCornerCases`), a read changes the response
and the count alone (`regRead_frame`), and `rst` resets from any state (`hardwareResetGivesResetValues`). -/
theorem faultedConditionIsAbsorbing : Obligations.FaultedConditionIsAbsorbing := by
  intro s hf
  obtain ⟨-, faulted⟩ := registerAccessCornerCases
  refine ⟨fun r w => (faulted s r w hf).1, fun r => ?_, ?_⟩
  · obtain ⟨-, t, v, hread, hresponse, hstatus, hcmd⟩ := faulted s r 0 hf
    refine ⟨v, t.draws, ?_, fun hr => ?_, fun hr => hcmd (by rw [hr]; rfl)⟩
    · cases hread
      rw [← hresponse]
      exact congrArg Host.Outcome.next (regRead_frame r s)
    · rw [← hf]
      exact hstatus (by rw [hr]; rfl)
  · obtain ⟨-, reset⟩ := hardwareResetGivesResetValues
    obtain ⟨t, ht, hvalues, -⟩ := reset s
    exact ⟨t, ht, hvalues⟩

end Sys2Proof.Machine
end

section
/-! PROOFS of the family 60_exceptions.md, part 3: BufferExhausted (O30). A command that completes has moved the stream by
its bits and still rests within `capacity`, so they fitted; with room for its bits, or with its bits left, each command
completes by its own statement (spec/60_exceptions.md R151, spec/40_bitpacker.md R111). -/

namespace Sys2Proof.Machine

/-! ### Past the checks of the arguments -/

/-- A CODE_PH that passes its checks has a width of at most 17 (R152). -/
theorem chosenWidth_of_firstFault {large : Bool} {s : State} (h : firstFault (.codePh large) s = none) :
    chooseWbits s.phQuantWbits s.grid ≤ 17 := by
  obtain ⟨-, hl⟩ := wellFormed_and_legal_of_firstFault h
  by_contra hwide
  rw [firstFault_codePh hl, if_pos (.inr (Nat.not_le.mp hwide))] at h
  cases h

/-- A CODE_PATCH that passes its checks has an operand within the patch (R153). -/
theorem postquant_of_firstFault {postquant : BitVec 16} {s : State} (h : firstFault (.codePatch postquant) s = none) :
    postquant.toNat ≤ s.patchArea := by
  obtain ⟨-, hl⟩ := wellFormed_and_legal_of_firstFault h
  by_contra hbeyond
  rw [firstFault_codePatch hl, if_pos (Nat.not_le.mp hbeyond)] at h
  cases h

/-! ### What fits and what completes -/

section
variable {i : Instr} {s : State} {k : Nat} (hs : s.Operational)
include hs

/-- A command that completes exactly if its bits fit raises BufferExhausted exactly if they do not. -/
theorem exec_exhausts_iff {fits : Prop} (hpass : firstFault i s = none)
    (hcompletes : fits → ∃ t, exec i s = .next t ∧ t.fault = false)
    (hfitted : ∀ t, exec i s = .next t → t.fault = false → fits) :
    exec i s = .next (raiseFault .bufferExhausted (encode i) s) ↔ ¬ fits := by
  constructor
  · intro hexhausted hfits
    obtain ⟨t, h, hf⟩ := hcompletes hfits
    rw [hexhausted] at h
    cases h
    cases hf
  · intro hnot
    rcases exec_of_checks_passed hs hpass with ⟨t, h, hf⟩ | hexhausted
    · exact absurd (hfitted t h hf) hnot
    · exact hexhausted

/-- A command that is no INIT leaves `capacity` alone, and completes with `byte_count` within it (R33, R45(b)). -/
theorem exec_byteCount_le {t : State} (h : exec i s = .next t) (hf : t.fault = false)
    (hi : ∀ cap, i ≠ .initEnc cap ∧ i ≠ .initDec cap) : t.byteCount.toNat ≤ s.capacity.toNat := by
  have ht : t.Operational := ⟨hf, exec_inv i hs h⟩
  obtain ⟨-, hcount, -⟩ := ht.resting
  obtain ⟨hcapacity, -⟩ := (exec_registerFrame h hf).session hi
  rw [hcapacity] at hcount
  exact BitVec.le_def.mp hcount

/-! ### Commands that send -/

/-- The bits a command has packed had room. -/
theorem room_of_completed (hk : bitsSent i s = some k) {t : State} (h : exec i s = .next t) (hf : t.fault = false) :
    s.Room k := by
  have hpacks := exec_packs hs.resting h hf hk
  have hcount := exec_byteCount_le hs h hf fun cap => ⟨(by rintro rfl; cases hk), (by rintro rfl; cases hk)⟩
  have hposition := hpacks.position
  have hpartial := hpacks.partialByte
  have hpos := packedPos_eq t
  unfold State.Room
  omega

/-- A command that passes its checks and has room for its bits completes (R106). -/
theorem completes_of_room (hpass : firstFault i s = none) (hk : bitsSent i s = some k) (hroom : s.Room k) :
    ∃ t, exec i s = .next t ∧ t.fault = false := by
  have ⟨hf, _⟩ := hs
  obtain ⟨hw, hl⟩ := wellFormed_and_legal_of_firstFault hpass
  cases i with
  | pack n =>
    cases hk
    obtain ⟨hd, -⟩ : s.dir = .enc ∧ s.codecState ≠ .idle := by simpa [legalIn] using hl
    obtain ⟨t, hexec, ho, -⟩ := packAppendsBitsOfData n s hs hd (of_decide_eq_true hw) hroom
    exact ⟨t, hexec, ho.fault.trans hf⟩
  | codeGh =>
    cases hk
    obtain ⟨hd, -⟩ : s.dir = .enc ∧ s.codecState ≠ .idle := by simpa [legalIn] using hl
    obtain ⟨t, ho, -, hexec⟩ := codeGroupHeaderAppendsFields s hs hd hroom
    exact ⟨_, hexec, ho.fault.trans hf⟩
  | codePh large =>
    cases hk
    obtain ⟨hd, hc⟩ : s.dir = .enc ∧ (s.codecState = .groupOpen ∨ s.codecState = .patchOpen) := by
      simpa [legalIn] using hl
    obtain ⟨q, t, -, ho, -, hexec⟩ := codePatchHeaderAppendsFields large s hs hd hc (chosenWidth_of_firstFault hpass) hroom
    exact ⟨_, hexec, ho.fault.trans hf⟩
  | codePatch postquant =>
    cases hk
    obtain ⟨hd, hc⟩ : s.dir = .enc ∧ s.codecState = .patchOpen := by simpa [legalIn] using hl
    obtain ⟨t, hexec, -, -, hframe⟩ :=
      codePatchAppendsCoefficientCode postquant s hs hd hc (postquant_of_firstFault hpass) hroom
    exact ⟨t, hexec, by rw [hframe, hf]⟩
  | endData =>
    cases hk
    obtain ⟨hd, hc⟩ : s.dir = .enc ∧ (s.codecState = .groupOpen ∨ s.codecState = .patchOpen) := by
      simpa [legalIn] using hl
    obtain ⟨t, ho, -, hexec⟩ := endDataAppendsSentinel s hs hd hc hroom
    exact ⟨_, hexec, ho.fault.trans hf⟩
  | _ => cases hk

/-! ### Commands that read -/

/-- The bits a command has unpacked were left. -/
theorem available_of_completed (hk : bitsRead i s = some k) {t : State} (h : exec i s = .next t)
    (hf : t.fault = false) : s.Available k := by
  have hunpacks := exec_unpacks hs.resting h hf hk
  have hcount := exec_byteCount_le hs h hf fun cap => ⟨(by rintro rfl; cases hk), (by rintro rfl; cases hk)⟩
  have hposition := hunpacks.taken.position
  unfold State.Available
  omega

/-- A command that passes its checks and has its bits left completes (R107). -/
theorem completes_of_available (hpass : firstFault i s = none) (hk : bitsRead i s = some k) (ha : s.Available k) :
    ∃ t, exec i s = .next t ∧ t.fault = false := by
  have ⟨hf, _⟩ := hs
  obtain ⟨hw, hl⟩ := wellFormed_and_legal_of_firstFault hpass
  cases i with
  | unpack n =>
    cases hk
    obtain ⟨hd, -⟩ : s.dir = .dec ∧ s.codecState ≠ .idle := by simpa [legalIn] using hl
    obtain ⟨t, hexec, -, -, -, hframe⟩ := unpackDeliversNextBits n s hs hd (of_decide_eq_true hw) ha
    exact ⟨t, hexec, by rw [hframe, hf]⟩
  | decodeGh =>
    cases hk
    obtain ⟨hd, -⟩ : s.dir = .dec ∧ s.codecState ≠ .idle := by simpa [legalIn] using hl
    obtain ⟨t, hexec, -, -, hframe⟩ := decodeGroupHeaderReadsFields s hs hd ha
    exact ⟨t, hexec, by rw [hframe, hf]⟩
  | decodePh large =>
    cases hk
    obtain ⟨hd, hc⟩ : s.dir = .dec ∧ (s.codecState = .groupOpen ∨ s.codecState = .patchOpen) := by
      simpa [legalIn] using hl
    by_cases hsentinel : s.upcoming 8 = wireBits endOfPatches.toNat 8
    · rw [if_pos hsentinel] at ha
      obtain ⟨t, hexec, -, hframe⟩ := decodePatchHeaderStopsAtSentinel large s hs hd hc hsentinel ha
      exact ⟨t, hexec, by rw [hframe, hf]⟩
    · rw [if_neg hsentinel] at ha
      obtain ⟨t, hexec, -, -, -, -, hframe⟩ := decodePatchHeaderReadsFields large s hs hd hc hsentinel ha
      exact ⟨t, hexec, by rw [hframe, hf]⟩
  | _ => cases hk

end

/-- Settles O30: what has room, or is left, completes; what has completed had room, or was left. -/
theorem bufferExhaustedExactlyWithoutRoom : Obligations.BufferExhaustedExactlyWithoutRoom := fun _ _ _ hs hpass =>
  ⟨fun hk => exec_exhausts_iff hs hpass (completes_of_room hs hpass hk) fun _ => room_of_completed hs hk,
    fun hk => exec_exhausts_iff hs hpass (completes_of_available hs hpass hk) fun _ => available_of_completed hs hk⟩

end Sys2Proof.Machine
end

section
/-! PROOFS of the family 70_reset_and_hazards.md: the table of the three resets (O8). Each column is what its own file
says of that reset: `rst` gives the values of R48, INIT_ENC and INIT_DEC open a session, BP_RESET zeroes the cursors, and
while Faulted the port ignores every write (spec/70_reset_and_hazards.md R171). -/

namespace Sys2Proof.Machine

/-- Settles O8, column by column: `rst` by O7, the session commands by O9 and BP_RESET by O10, each of which the port runs
while no fault is pending (`transact_cmd`), and the ignored writes by O35. -/
theorem threeResetsCompared : Obligations.ThreeResetsCompared := by
  intro s
  refine ⟨?rst, fun hf => ⟨fun cap hcap => ?sessions, ?bpReset⟩, fun hf _ _ _ => ?faulted⟩
  case rst =>
    obtain ⟨-, reset⟩ := hardwareResetGivesResetValues
    obtain ⟨t, ht, ⟨⟨hfault, hcause, hfaultCmd⟩, hdir, hstate, hcapacity, ⟨hcount, hacc, hbits, htotal⟩, ⟨hsize, hwidth⟩,
      ⟨hdata, hstride, hpatchSize, hlayer⟩, ⟨hquant, hdc, hrange, hids⟩, ⟨hbufAddr, hpatchAddr⟩, hbuf, hpatch, -⟩, -⟩ :=
      reset s
    exact ⟨t, ht, hcount, hacc, hbits, htotal, hcapacity, hdir, hstate, hsize, hwidth, hdata, hstride, hpatchSize, hlayer,
      hquant, hdc, hrange, hids, hbufAddr, hpatchAddr, hbuf, hpatch, hfault, hcause, hfaultCmd⟩
  case sessions =>
    obtain ⟨-, -, opens, -⟩ := initOpensSession cap s
    obtain ⟨henc, hdec⟩ := opens hcap
    exact ⟨(transact_cmd _ hf).trans henc, (transact_cmd _ hf).trans hdec⟩
  case bpReset =>
    obtain ⟨-, runs, -⟩ := bpResetZeroesCursorsOnly
    obtain ⟨hzeroes, hexec⟩ := runs s
    exact (transact_cmd _ hf).trans (hexec.trans (congrArg _ hzeroes))
  case faulted =>
    obtain ⟨writesIgnored, -⟩ := faultedConditionIsAbsorbing s hf
    exact writesIgnored 0 _

end Sys2Proof.Machine
end
